-- ==== Sys2Proof/Word.lean ====
section
/-! DEFINITION. The machine's word types: 32-bit register and sample words (R12, R13, R65), bytes of a
word's lanes (R67), 18-bit host byte addresses (R60) and the binary64 patterns of the read offset (R32). -/

namespace Sys2Proof

/-- A 32-bit register, command or sample word (R12); a binary32 value is its bit pattern (R13). -/
abbrev Word := BitVec 32

/-- One byte lane of a word (R67). -/
abbrev Byte := BitVec 8

/-- A host byte address, `addr[17:0]` (R60). -/
abbrev Addr := BitVec 18

/-- A binary64 bit pattern (R13). -/
abbrev Bits64 := BitVec 64

end Sys2Proof
end

