-- ==== Sys2Proof/Config.lean ====
section
/-! DEFINITION. What an implementation fixes: the synthesis parameters C, N and NCH_MAX (R7 to R10), and the
values the spec leaves open (R11, R40, R41, R77, R163). An open value is an opaque constant, so nothing proved
about the machine can rest on a particular choice of it. -/

namespace Sys2Proof

/-- The synthesis parameters of one RSMP instance (R7, R8, R9). -/
structure Params where
  /-- `C`, the ring capacity in samples per channel (R7). -/
  cap : Nat
  /-- `N`, the block size in samples per channel (R8). -/
  blk : Nat
  /-- `NCH_MAX`, the number of channel buffers (R9). -/
  nch : Nat
  deriving DecidableEq, Repr

/-- The legal ranges of the synthesis parameters (R7, R8, R9). -/
abbrev Params.Legal (p : Params) : Prop :=
  2 ≤ p.cap ∧ p.cap ≤ 2 ^ 24 ∧ 1 ≤ p.blk ∧ p.blk ≤ min p.cap 1024 ∧ 1 ≤ p.nch ∧ p.nch ≤ 16

/-- The default parameters: C = 16384, N = 128, NCH_MAX = 2 (R7, R8, R9). -/
def Params.standard : Params := { cap := 16384, blk := 128, nch := 2 }

/-- `WBITS`, the width in bits of the write cursor (R10). -/
def Params.wbits (p : Params) : Nat := Nat.clog 2 p.cap

/-- FREE VALUE. What byte `a` of the staging windows holds after reset number `epoch`, before anything is
written there: any value (R40, R41; log 3). -/
opaque Config.powerOn : (epoch a : Nat) → Byte

/-- FREE VALUE. The word the `k`-th read of engine state or OBUF during BUSY returns: any 32-bit value,
independently at each read (R77; log 5). -/
opaque Config.busyRead : (k : Nat) → Word

/-- FREE VALUE. The sign of a NaN output sample, from the two tap words and the fraction (R163; log 6). -/
opaque Config.nanSign : (s0 s1 : Word) → (frac : Bits64) → Bool

/-- FREE VALUE. The fraction field of a NaN output sample, less one: R163 says only that the field is not
zero (log 6). -/
opaque Config.nanPayload : (s0 s1 : Word) → (frac : Bits64) → Fin 8388607

/-- OPEN parameter: a bound in clock cycles on the completion of PROCESS (R11, R276). The model has no
time and nothing reads it (R271, R282; log 16). -/
opaque Config.latProcessMax : Nat

/-- OPEN parameter: a bound in clock cycles on the completion of INIT and of the clear after reset (R11,
R277). The model has no time and nothing reads it (R271, R282; log 16). -/
opaque Config.latInitMax : Nat

end Sys2Proof
end

