-- ==== Sys2Proof/Syntax.lean ====
section
/-! DEFINITION. The operations of RSMP, one constructor for each row of spec/opcode_table.json: the command
words of the CMD format (R92, R93, R96) and the host bus operations of the BUS format (R91, R99). -/

namespace Sys2Proof

/-- An operation of RSMP (R18, R90). Command operands are the 5-bit fields NIN and NOUT (R94); a window
operand is the channel field `addr[15:12]` and the sample field `addr[11:2]` (R66); a write carries its data
word (R91). -/
inductive Instr where
  /-- Command NOP (R111). -/
  | nop
  /-- Command INIT (R113). -/
  | init
  /-- Command PROCESS with its NIN and NOUT fields (R180, R94). -/
  | process (nin nout : BitVec 5)
  /-- Any command word that is not legal (R114). -/
  | illegalCmd (w : Word)
  /-- Read CFG_CAP (R200). -/
  | rdCfgCap
  /-- Read CFG_BLK (R200). -/
  | rdCfgBlk
  /-- Read the write-only CMD (R201). -/
  | rdCmd
  /-- Read STATUS (R202). -/
  | rdStatus
  /-- Read the write-only PITCH_IN (R201). -/
  | rdPitchIn
  /-- Read PITCH (R203). -/
  | rdPitch
  /-- Read WCUR (R203). -/
  | rdWcur
  /-- Read ACTIVE (R203). -/
  | rdActive
  /-- Read ROFF_LO (R203). -/
  | rdRoffLo
  /-- Read ROFF_HI (R203). -/
  | rdRoffHi
  /-- Write the read-only CFG_CAP (R206). -/
  | wrRoCfgCap (v : Word)
  /-- Write the read-only CFG_BLK (R206). -/
  | wrRoCfgBlk (v : Word)
  /-- Write the read-only PITCH (R206). -/
  | wrRoPitch (v : Word)
  /-- Write the read-only WCUR (R206). -/
  | wrRoWcur (v : Word)
  /-- Write the read-only ACTIVE (R206). -/
  | wrRoActive (v : Word)
  /-- Write the read-only ROFF_LO (R206). -/
  | wrRoRoffLo (v : Word)
  /-- Write the read-only ROFF_HI (R206). -/
  | wrRoRoffHi (v : Word)
  /-- Write CMD: submit the command word `w` (R205, R110). -/
  | wrCmd (w : Word)
  /-- Write STATUS: clear error flags (R204). -/
  | wrStatus (v : Word)
  /-- Write PITCH_IN: stage a pitch value (R140). -/
  | wrPitchIn (v : Word)
  /-- Read IBUF[c][i] (R209). -/
  | rdIbuf (c : BitVec 4) (i : BitVec 10)
  /-- Write IBUF[c][i] (R210). -/
  | wrIbuf (c : BitVec 4) (i : BitVec 10) (v : Word)
  /-- Read OBUF[c][i] (R211). -/
  | rdObuf (c : BitVec 4) (i : BitVec 10)
  /-- Write OBUF[c][i], ignored (R212). -/
  | wrObuf (c : BitVec 4) (i : BitVec 10) (v : Word)
  /-- Read a reserved address (R207). -/
  | rdRsvd (a : Addr)
  /-- Write a reserved address (R208). -/
  | wrRsvd (a : Addr) (v : Word)
  deriving DecidableEq, Repr

end Sys2Proof
end

