-- ==== Sys2Proof/Decode.lean ====
section
/-! DEFINITION. Decoding and encoding of RSMP operations (30_encoding.md): the two operation formats BUS and CMD
(R90), the fields of a command word (R92) and its legality (R95), the address map (R61, R66, R99), the decoder,
total and rejecting by name, the encoder written from the same tables, and the pseudo-instructions of R101. -/

namespace Sys2Proof

/-! ## The two operation formats -/

/-- An operation as it arrives at the port (R90): a BUS read or write with its width in bits, its byte
address and, for a write, its data (R91); or a command word in the CMD format (R92), which stands for a BUS
write of that word to CMD (log 13). -/
inductive HostOp where
  | read (width : Nat) (addr : Addr)
  | write (width : Nat) (addr : Addr) (wdata : Word)
  | cmd (w : Word)
  deriving DecidableEq, Repr

/-- Why the decoder rejects an access (R63, R213). -/
inductive DecodeError where
  /-- The access is not 32 bits wide. -/
  | accessWidth (width : Nat)
  /-- `addr[1:0]` is not 0. -/
  | misaligned (addr : Addr)
  deriving DecidableEq, Repr

/-! ## Command words -/

/-- OP, `w[3:0]` (R92). -/
def opField (w : Word) : BitVec 4 := w.extractLsb' 0 4

/-- NIN, `w[12:8]` (R92, R94). -/
def ninField (w : Word) : BitVec 5 := w.extractLsb' 8 5

/-- NOUT, `w[20:16]` (R92, R94). -/
def noutField (w : Word) : BitVec 5 := w.extractLsb' 16 5

/-- The reserved fields `w[7:4]`, `w[15:13]` and `w[31:21]` are 0 (R92). -/
def reservedZero (w : Word) : Bool :=
  w.extractLsb' 4 4 == 0 && w.extractLsb' 13 3 == 0 && w.extractLsb' 21 11 == 0

/-- `legal(w)`, the five clauses of R95 in its order. -/
def legalCmd (p : Params) (w : Word) : Bool :=
  (opField w == 0 || opField w == 1 || opField w == 2)
    && reservedZero w
    && (opField w == 2 || (ninField w == 0 && noutField w == 0))
    && (opField w != 2 || (decide ((ninField w).toNat ≤ p.nch) && decide ((noutField w).toNat ≤ p.nch)))

/-- The command a word stands for, by the match and mask of R96; every other word is illegal (R97). -/
def decodeCmd (p : Params) (w : Word) : Instr :=
  if w &&& 0xFFFFFFFF#32 = 0x00000000#32 then .nop
  else if w &&& 0xFFFFFFFF#32 = 0x00000001#32 then .init
  else if w &&& 0xFFE0E0FF#32 = 0x00000002#32 ∧ (ninField w).toNat ≤ p.nch ∧ (noutField w).toNat ≤ p.nch then
    .process (ninField w) (noutField w)
  else .illegalCmd w

/-- The general PROCESS word, `(nout << 16) | (nin << 8) | 0x2` (R96). -/
def processWord (nin nout : BitVec 5) : Word :=
  nout.zeroExtend 32 <<< 16 ||| nin.zeroExtend 32 <<< 8 ||| 0x2#32

/-! ## Addresses -/

/-- `addr[1:0] = 0` (R63). -/
def aligned (a : Addr) : Bool := a.extractLsb' 0 2 == 0

/-- `addr[17:16]`, the region of R61: 0 registers, 1 IBUF, 2 OBUF, 3 reserved. -/
def regionField (a : Addr) : BitVec 2 := a.extractLsb' 16 2

/-- `c = a[15:12]` of a window address (R66). -/
def chanField (a : Addr) : BitVec 4 := a.extractLsb' 12 4

/-- `i = a[11:2]` of a window address (R66). -/
def sampField (a : Addr) : BitVec 10 := a.extractLsb' 2 10

/-- The window word (c, i) exists: c < NCH_MAX and i < N (R66). -/
def inWindow (p : Params) (c : BitVec 4) (i : BitVec 10) : Bool :=
  decide (c.toNat < p.nch) && decide (i.toNat < p.blk)

/-! ## The decoder -/

/-- The operation a 32-bit aligned READ at `a` selects (R99). -/
def decodeRead (p : Params) (a : Addr) : Instr :=
  if a = 0x00000#18 then .rdCfgCap
  else if a = 0x00004#18 then .rdCfgBlk
  else if a = 0x00008#18 then .rdCmd
  else if a = 0x0000C#18 then .rdStatus
  else if a = 0x00010#18 then .rdPitchIn
  else if a = 0x00014#18 then .rdPitch
  else if a = 0x00018#18 then .rdWcur
  else if a = 0x0001C#18 then .rdActive
  else if a = 0x00020#18 then .rdRoffLo
  else if a = 0x00024#18 then .rdRoffHi
  else if regionField a = 1#2 ∧ inWindow p (chanField a) (sampField a) then .rdIbuf (chanField a) (sampField a)
  else if regionField a = 2#2 ∧ inWindow p (chanField a) (sampField a) then .rdObuf (chanField a) (sampField a)
  else .rdRsvd a

/-- The operation a 32-bit aligned WRITE of `v` at `a` selects (R99). -/
def decodeWrite (p : Params) (a : Addr) (v : Word) : Instr :=
  if a = 0x00000#18 then .wrRoCfgCap v
  else if a = 0x00004#18 then .wrRoCfgBlk v
  else if a = 0x00008#18 then .wrCmd v
  else if a = 0x0000C#18 then .wrStatus v
  else if a = 0x00010#18 then .wrPitchIn v
  else if a = 0x00014#18 then .wrRoPitch v
  else if a = 0x00018#18 then .wrRoWcur v
  else if a = 0x0001C#18 then .wrRoActive v
  else if a = 0x00020#18 then .wrRoRoffLo v
  else if a = 0x00024#18 then .wrRoRoffHi v
  else if regionField a = 1#2 ∧ inWindow p (chanField a) (sampField a) then .wrIbuf (chanField a) (sampField a) v
  else if regionField a = 2#2 ∧ inWindow p (chanField a) (sampField a) then .wrObuf (chanField a) (sampField a) v
  else .wrRsvd a v

/-- An access of `width` bits at `a` is admitted only if it is 32 bits wide and aligned (R63, R213). -/
def admitWord (width : Nat) (a : Addr) (i : Instr) : Except DecodeError Instr :=
  if width ≠ 32 then .error (.accessWidth width)
  else if aligned a then .ok i
  else .error (.misaligned a)

/-- The decoder: every port operation is an instruction or is rejected by name (R90, R99, R213). -/
def decode (p : Params) : HostOp → Except DecodeError Instr
  | .read width a => admitWord width a (decodeRead p a)
  | .write width a v => admitWord width a (decodeWrite p a v)
  | .cmd w => .ok (decodeCmd p w)

/-! ## The encoder -/

/-- The address of IBUF[c][i], `0x10000 + 0x1000 c + 4 i` (R66). -/
def ibufAddr (c i : Nat) : Nat := 0x10000 + 0x1000 * c + 4 * i

/-- The address of OBUF[c][i], `0x20000 + 0x1000 c + 4 i` (R66). -/
def obufAddr (c i : Nat) : Nat := 0x20000 + 0x1000 * c + 4 * i

/-- The port operation of an instruction, from the tables of R96 and R99. -/
def encode : Instr → HostOp
  | .nop => .cmd 0x00000000#32
  | .init => .cmd 0x00000001#32
  | .process nin nout => .cmd (processWord nin nout)
  | .illegalCmd w => .cmd w
  | .rdCfgCap => .read 32 0x00000#18
  | .rdCfgBlk => .read 32 0x00004#18
  | .rdCmd => .read 32 0x00008#18
  | .rdStatus => .read 32 0x0000C#18
  | .rdPitchIn => .read 32 0x00010#18
  | .rdPitch => .read 32 0x00014#18
  | .rdWcur => .read 32 0x00018#18
  | .rdActive => .read 32 0x0001C#18
  | .rdRoffLo => .read 32 0x00020#18
  | .rdRoffHi => .read 32 0x00024#18
  | .wrRoCfgCap v => .write 32 0x00000#18 v
  | .wrRoCfgBlk v => .write 32 0x00004#18 v
  | .wrRoPitch v => .write 32 0x00014#18 v
  | .wrRoWcur v => .write 32 0x00018#18 v
  | .wrRoActive v => .write 32 0x0001C#18 v
  | .wrRoRoffLo v => .write 32 0x00020#18 v
  | .wrRoRoffHi v => .write 32 0x00024#18 v
  | .wrCmd w => .write 32 0x00008#18 w
  | .wrStatus v => .write 32 0x0000C#18 v
  | .wrPitchIn v => .write 32 0x00010#18 v
  | .rdIbuf c i => .read 32 (BitVec.ofNat 18 (ibufAddr c.toNat i.toNat))
  | .wrIbuf c i v => .write 32 (BitVec.ofNat 18 (ibufAddr c.toNat i.toNat)) v
  | .rdObuf c i => .read 32 (BitVec.ofNat 18 (obufAddr c.toNat i.toNat))
  | .wrObuf c i v => .write 32 (BitVec.ofNat 18 (obufAddr c.toNat i.toNat)) v
  | .rdRsvd a => .read 32 a
  | .wrRsvd a v => .write 32 a v

/-! ## The numbering of spec/opcode_table.json -/

/-- The BUS operation of a table key: `key[18]` is the direction (0 READ, 1 WRITE) and `key[17:0]` the
byte address; a write carries `wdata`. -/
def HostOp.ofKey (key : BitVec 19) (wdata : Word) : HostOp :=
  if key.getLsbD 18 then .write 32 (key.extractLsb' 0 18) wdata else .read 32 (key.extractLsb' 0 18)

/-- The port operation of a table row's bits: a BUS row has a 19-bit key (24 bits in whole bytes) and its
write data, to which the table gives no bits, is 0; a CMD row has a 32-bit word. A number with a bit above
the row's format is no operation. -/
def HostOp.ofTable (nbits w : Nat) : Option HostOp :=
  if nbits ≤ 24 then
    if w < 2 ^ 19 then some (HostOp.ofKey (BitVec.ofNat 19 w) 0) else none
  else if w < 2 ^ 32 then some (.cmd (BitVec.ofNat 32 w)) else none

/-- The instruction the decoder reads from a table row's bits, at the default parameters. -/
def decodeTableWord (nbits w : Nat) : Option Instr :=
  match HostOp.ofTable nbits w with
  | none => none
  | some op =>
    match decode Params.standard op with
    | .ok i => some i
    | .error _ => none

/-! ## Pseudo-instructions -/

/-- The pseudo-instructions of R101; `f32(x)` is given as its bit pattern, and `waitidlePoll` is one poll
of the host-side loop `waitidle`, whose branch is the host's. -/
inductive Pseudo where
  | nopc
  | init
  | process (nin nout : BitVec 5)
  | pitch (v : Word)
  | ldin (c : BitVec 4) (i : BitVec 10) (v : Word)
  | rdout (c : BitVec 4) (i : BitVec 10)
  | waitidlePoll
  | clrerr
  deriving DecidableEq, Repr

/-- The access each pseudo-instruction expands to (R101). -/
def Pseudo.expand : Pseudo → HostOp
  | .nopc => .write 32 0x00008#18 0x00000000#32
  | .init => .write 32 0x00008#18 0x00000001#32
  | .process nin nout => .write 32 0x00008#18 (processWord nin nout)
  | .pitch v => .write 32 0x00010#18 v
  | .ldin c i v => .write 32 (BitVec.ofNat 18 (ibufAddr c.toNat i.toNat)) v
  | .rdout c i => .read 32 (BitVec.ofNat 18 (obufAddr c.toNat i.toNat))
  | .waitidlePoll => .read 32 0x0000C#18
  | .clrerr => .write 32 0x0000C#18 0x00000006#32

end Sys2Proof
end

