-- ==== Sys2Proof/Machine/State.lean ====
section
/-! DEFINITION. The machine's state as plain data (10_state.md R30 to R41), the ways a step can stop, and the
state right after reset (R261). -/

namespace Sys2Proof.Machine

/-- Why a step faults: never. RSMP raises no exception, trap or fault of any kind (R232, R237), so this
type has no constructor. -/
inductive Fault where
  deriving DecidableEq, Repr

/-- Why a step is refused. Each refusal is safe: the model then claims nothing about the run. -/
inductive Refusal where
  /-- An instruction that has no meaning in this model yet; raised by exec alone. Safe. -/
  | notModelled (mnemonic : String)
  /-- A host access of a width other than 32 bits (R63, R213); raised when an access is admitted. Safe. -/
  | accessWidth (width : Nat)
  /-- A host access with `addr[1:0] ≠ 0` (R63, R213); raised when an access is admitted. Safe. -/
  | misaligned (addr : Addr)
  /-- A host access while the reset input is asserted (R260); raised by the schedule. Safe. -/
  | accessDuringReset
  /-- A PROCESS with input that adopts or runs with a NaN or infinite pitch (R145); raised by the Engine's
  completion step. Safe. -/
  | nonFinitePitch
  /-- A read position with no floor, from a non-finite R (R150, D15); raised by the Engine's completion
  step. Safe. -/
  | noReadPosition
  deriving DecidableEq, Repr

/-- `INFLIGHT`: the command accepted and not yet completed (R38). -/
inductive InFlight where
  | none
  /-- The clear sequence of INIT or of reset. -/
  | clear
  /-- A PROCESS with the operands latched at the CMD write. -/
  | process (nin nout : BitVec 5)
  deriving DecidableEq, Repr

/-- What happens next at the block: a host access, a turn of the Engine, or a change of the reset input
(R17, R236, R260; log 1). -/
inductive Event where
  | host (op : HostOp)
  | engine
  | resetAssert
  | resetRelease
  deriving DecidableEq, Repr

/-- Stored bytes: (byte address, byte) pairs, addresses strictly rising. -/
abbrev Memory := List Host.Cell

/-- The state of one RSMP instance. -/
structure State where
  /-- MODEL: the synthesis parameters of this instance (R7, R8, R9; log 2). -/
  par : Params
  /-- `RING`: slot `RING[c][j]` is the word at byte `4 * (c * C + j)` of the internal space (R35, R64). -/
  ring : Memory
  /-- `W`, the write cursor (R31). -/
  wcur : Nat
  /-- `R`, the read offset, a binary64 pattern (R32). -/
  roff : Bits64
  /-- `P`, the pitch ratio, a binary32 pattern (R33). -/
  pitch : Word
  /-- `A`, the active channel count (R34). -/
  active : Nat
  /-- `PSTAGE`, the staged pitch word (R36). -/
  pstage : Word
  /-- `PEND`: a pitch word is staged (R37). -/
  pend : Bool
  /-- `INFLIGHT` (R38). -/
  inflight : InFlight
  /-- `ERR_CMD`, sticky (R39). -/
  errCmd : Bool
  /-- `ERR_BUSY`, sticky (R39). -/
  errBusy : Bool
  /-- `IBUF` and `OBUF`, at their host byte addresses (R40, R41, R66). -/
  mem : Memory
  /-- MODEL: the reset input is asserted (R260; log 12). -/
  rst : Bool
  /-- MODEL: what happens next, in order (R17, R236; log 1). -/
  events : List Event
  /-- MODEL: the words the host's reads returned, newest first (R283; log 11). -/
  reads : List Word
  /-- MODEL: how many free values were drawn (R77; log 5). -/
  draws : Nat
  /-- MODEL: which power-on contents the staging windows have (R40, R41; log 3). -/
  epoch : Nat
  deriving DecidableEq, Repr

/-- What a byte of RING that is not listed reads as: part of the +0.0 of reset and INIT (R35, R113). -/
def ringUnlisted : Byte := 0

/-- What a byte of the staging windows that is not listed reads as: the free power-on contents (R40, R41;
log 3). -/
def memUnlisted (epoch a : Nat) : Byte := Config.powerOn epoch a

/-- The canonical form of stored bytes: addresses strictly rising, and no entry equal to the fixed byte `d`
an unlisted address reads as (`none` where no fixed byte is). -/
abbrev Memory.wf (d : Option Byte) (m : Memory) : Prop :=
  m.Pairwise (fun x y => x.1 < y.1) ∧ ∀ x ∈ m, d ≠ some x.2

/-- The machine with parameters `p` right after reset is released: the reset values of R30 and R261, the
clear in flight (R262), and nothing scheduled. -/
def State.resetWith (p : Params) : State where
  par := p
  ring := []
  wcur := 0
  roff := 0x0000000000000000#64
  pitch := 0x3F800000#32
  active := 0
  pstage := 0x00000000#32
  pend := false
  inflight := .clear
  errCmd := false
  errBusy := false
  mem := []
  rst := false
  events := []
  reads := []
  draws := 0
  epoch := 0

/-- The machine right after reset, at the default parameters (R7, R8, R9, R261). -/
def State.reset : State := State.resetWith Params.standard

end Sys2Proof.Machine
end

