-- ==== Sys2Proof/Machine/Flags.lean ====
section
/-! DEFINITION. The status flags of R44: BUSY, the sticky error flags and PEND, their setting (R230, R231) and clearing
(R204). RSMP takes no exceptions (R232): setting an error flag is the whole of its error handling (R237). -/

namespace Sys2Proof.Machine

/-- `BUSY`: a command is in flight (R38). -/
def State.busy (s : State) : Bool := decide (s.inflight ≠ .none)

/-- `set_error(ERR_CMD)` (R16, R230). -/
def State.setErrCmd (s : State) : State := { s with errCmd := true }

/-- `set_error(ERR_BUSY)` (R16, R231). -/
def State.setErrBusy (s : State) : State := { s with errBusy := true }

/-- The effect of writing `v` to STATUS: bit 1 clears ERR_CMD, bit 2 clears ERR_BUSY, every other bit is
ignored (R204). -/
def State.clearErrors (s : State) (v : Word) : State :=
  { s with errCmd := s.errCmd && !v.getLsbD 1, errBusy := s.errBusy && !v.getLsbD 2 }

/-- The STATUS word, `zext_32 (PEND, ERR_BUSY, ERR_CMD, BUSY)` with BUSY in bit 0 (R44, R202). -/
def State.statusWord (s : State) : Word :=
  (BitVec.ofBool s.pend ++ BitVec.ofBool s.errBusy ++ BitVec.ofBool s.errCmd ++ BitVec.ofBool s.busy).zeroExtend 32

end Sys2Proof.Machine
end

