-- ==== Sys2Proof/Machine/Operands.lean ====
section
/-! DEFINITION. Operand forms: the byte lanes of a word (R67), the slot indices of the ring (R15, R72, R131) and the words of
the configuration registers (R42, R45). The window addresses of R66 are `ibufAddr` and `obufAddr` of Decode. -/

namespace Sys2Proof.Machine

/-- Byte lane `k` of a word, bits [8k+7:8k] (R67). -/
def lane (w : Word) (k : Nat) : Byte := w.extractLsb' (8 * k) 8

/-- The word of four byte lanes, lane 0 first (R67). -/
def joinLanes (b0 b1 b2 b3 : Byte) : Word := b3 ++ b2 ++ b1 ++ b0

/-- `wrap(k)`: the residue of the integer `k` in [0, C) (R15). -/
def wrap (p : Params) (k : Int) : Nat := (k % (p.cap : Int)).toNat

/-- The slot of sample `i` of a block written from the cursor `w0`: `(w0 + i) mod C` (R131). -/
def writeSlot (p : Params) (w0 i : Nat) : Nat := (w0 + i) % p.cap

/-- The first byte of `RING[c][j]` in the internal space (R64). The spec gives the slots no byte addresses;
they are the model's (log 10). -/
def ringAddr (p : Params) (c j : Nat) : Nat := 4 * (c * p.cap + j)

/-- CFG_CAP: C (R42, R200). -/
def cfgCapWord (p : Params) : Word := BitVec.ofNat 32 p.cap

/-- CFG_BLK: N in [10:0], NCH_MAX in [20:16], zero elsewhere (R45, R200). -/
def cfgBlkWord (p : Params) : Word :=
  (BitVec.ofNat 5 p.nch ++ 0#5 ++ BitVec.ofNat 11 p.blk).zeroExtend 32

end Sys2Proof.Machine
end

