-- ==== Sys2Proof/Machine/Ops.lean ====
section
/-! DEFINITION. The named operations over stored bytes, RING, the staging windows and the registers, and the two gates
every access shares: a write that BUSY discards (R110, R140, R210) and a read that BUSY leaves open (R77). -/

namespace Sys2Proof.Machine

/-! ## Stored bytes -/

/-- The byte listed at `a`, if one is. -/
def Memory.find : Memory → Nat → Option Byte
  | [], _ => none
  | x :: m, a => if x.1 = a then some x.2 else Memory.find m a

/-- List `b` at `a`, in address order. -/
def Memory.setByte : Memory → Nat → Byte → Memory
  | [], a, b => [(a, b)]
  | x :: m, a, b =>
    if a < x.1 then (a, b) :: x :: m
    else if a = x.1 then (a, b) :: m
    else x :: Memory.setByte m a b

/-- List nothing at `a`. -/
def Memory.clearByte (m : Memory) (a : Nat) : Memory := m.filter (fun x => x.1 ≠ a)

/-- Store `b` at `a`, where an unlisted address reads as the fixed byte `d`, if any: storing that byte
removes the entry. -/
def Memory.put (d : Option Byte) (m : Memory) (a : Nat) (b : Byte) : Memory :=
  if d = some b then m.clearByte a else m.setByte a b

/-- Store the word `w` at `a`, lane 0 at the lowest address (R67). -/
def Memory.putWord (d : Option Byte) (m : Memory) (a : Nat) (w : Word) : Memory :=
  (((m.put d a (lane w 0)).put d (a + 1) (lane w 1)).put d (a + 2) (lane w 2)).put d (a + 3) (lane w 3)

/-- The word at `a` of a byte-addressed store (R67). -/
def wordAt (byte : Nat → Byte) (a : Nat) : Word :=
  joinLanes (byte a) (byte (a + 1)) (byte (a + 2)) (byte (a + 3))

/-! ## RING -/

/-- One byte of RING. -/
def ringByte (ring : Memory) (a : Nat) : Byte := (ring.find a).getD ringUnlisted

/-- `RING[c][j]` (R35). -/
def ringRead (p : Params) (ring : Memory) (c j : Nat) : Word := wordAt (ringByte ring) (ringAddr p c j)

/-- `RING[c][j] <- w` (R35). -/
def ringWrite (p : Params) (ring : Memory) (c j : Nat) (w : Word) : Memory :=
  ring.putWord (some ringUnlisted) (ringAddr p c j) w

/-! ## The staging windows -/

/-- One byte of the staging windows, at its host byte address. -/
def memByte (epoch : Nat) (mem : Memory) (a : Nat) : Byte := (mem.find a).getD (memUnlisted epoch a)

/-- The staging word at host byte address `a`. -/
def memRead (epoch : Nat) (mem : Memory) (a : Nat) : Word := wordAt (memByte epoch mem) a

/-- Store a staging word at host byte address `a`. -/
def memWrite (mem : Memory) (a : Nat) (w : Word) : Memory := mem.putWord none a w

/-- One byte of the staging windows of a state. -/
def State.byte (s : State) (a : Nat) : Byte := memByte s.epoch s.mem a

/-- `IBUF[c][i]` (R40, R66). -/
def State.ibuf (s : State) (c i : Nat) : Word := memRead s.epoch s.mem (ibufAddr c i)

/-- `OBUF[c][i]` (R41, R66). -/
def State.obuf (s : State) (c i : Nat) : Word := memRead s.epoch s.mem (obufAddr c i)

/-- `RING[c][j]` of a state (R35). -/
def State.slot (s : State) (c j : Nat) : Word := ringRead s.par s.ring c j

/-- `IBUF[c][i] <- v` (R210). -/
def State.writeIbuf (s : State) (c i : Nat) (v : Word) : State :=
  { s with mem := memWrite s.mem (ibufAddr c i) v }

/-! ## Registers and the port -/

/-- `PSTAGE <- v; PEND <- 1` (R140). -/
def State.stagePitch (s : State) (v : Word) : State := { s with pstage := v, pend := true }

/-- `INFLIGHT <- f`: accept a command (R110). -/
def State.accept (s : State) (f : InFlight) : State := { s with inflight := f }

/-- A read returns `v` to the host (R91). -/
def State.returnWord (s : State) (v : Word) : State := { s with reads := v :: s.reads }

/-- A read returns any 32-bit value: the next free value (R77; log 5). -/
def State.returnAny (s : State) : State :=
  { s with reads := Config.busyRead s.draws :: s.reads, draws := s.draws + 1 }

/-- A read of engine state or OBUF: exact while idle, any value while BUSY (R77, R203, R211). -/
def State.returnIfIdle (s : State) (v : Word) : State := if s.busy then s.returnAny else s.returnWord v

/-- A write that is discarded with ERR_BUSY while BUSY, and has the effect `f` while idle (R110, R140,
R210, R231). -/
def State.whenIdle (s : State) (f : State → State) : State := if s.busy then s.setErrBusy else f s

end Sys2Proof.Machine
end

