-- ==== Sys2Proof/Machine/Commands.lean ====
section
/-! DEFINITION. The commands (40_commands.md, R180) and WR_CMD. Submitting a command is the dispatch of R110: discarded with
ERR_BUSY while BUSY, else checked for legality, else accepted. What an accepted command does is the Engine's
completion step (R270). -/

namespace Sys2Proof.Machine

/-- NOP (R111): nothing, while idle. -/
def execNop (s : State) : Host.Outcome State Fault Refusal := .next (s.whenIdle fun t => t)

/-- INIT (R113): `INFLIGHT <- CLEAR`, while idle. -/
def execInit (s : State) : Host.Outcome State Fault Refusal := .next (s.whenIdle fun t => t.accept .clear)

/-- PROCESS (R180): `INFLIGHT <- PROCESS(nin, nout)`, while idle. Operands above NCH_MAX make the word
illegal (R95, R114). -/
def execProcess (nin nout : BitVec 5) (s : State) : Host.Outcome State Fault Refusal :=
  .next (s.whenIdle fun t =>
    if nin.toNat ≤ t.par.nch ∧ nout.toNat ≤ t.par.nch then t.accept (.process nin nout) else t.setErrCmd)

/-- An illegal command word (R114, R230): `ERR_CMD <- 1`, while idle. -/
def execIllegalCmd (_w : Word) (s : State) : Host.Outcome State Fault Refusal :=
  .next (s.whenIdle fun t => t.setErrCmd)

/-- The case on OP of the dispatch, for a legal word (R110). -/
def State.acceptWord (s : State) (w : Word) : State :=
  if opField w = 0x1#4 then s.accept .clear
  else if opField w = 0x2#4 then s.accept (.process (ninField w) (noutField w))
  else s

/-- WR_CMD (R205): the dispatch of R110 on the written word. -/
def execWrCmd (w : Word) (s : State) : Host.Outcome State Fault Refusal :=
  .next (s.whenIdle fun t => if legalCmd t.par w then t.acceptWord w else t.setErrCmd)

end Sys2Proof.Machine
end

