-- ==== Sys2Proof/Machine/Registers.lean ====
section
/-! DEFINITION. The register reads and writes of 46_register_access.md and WR_PITCH_IN (R140). -/

namespace Sys2Proof.Machine

/-- RD_CFG_CAP (R200): C, at all times. -/
def execRdCfgCap (s : State) : Host.Outcome State Fault Refusal := .next (s.returnWord (cfgCapWord s.par))

/-- RD_CFG_BLK (R200): N and NCH_MAX, at all times. -/
def execRdCfgBlk (s : State) : Host.Outcome State Fault Refusal := .next (s.returnWord (cfgBlkWord s.par))

/-- RD_CMD (R201): a write-only register reads 0. -/
def execRdCmd (s : State) : Host.Outcome State Fault Refusal := .next (s.returnWord 0x00000000#32)

/-- RD_STATUS (R202): exact at all times. -/
def execRdStatus (s : State) : Host.Outcome State Fault Refusal := .next (s.returnWord s.statusWord)

/-- RD_PITCH_IN (R201): a write-only register reads 0. -/
def execRdPitchIn (s : State) : Host.Outcome State Fault Refusal := .next (s.returnWord 0x00000000#32)

/-- RD_PITCH (R203): bits32(P) while idle. -/
def execRdPitch (s : State) : Host.Outcome State Fault Refusal := .next (s.returnIfIdle s.pitch)

/-- RD_WCUR (R203): W while idle. -/
def execRdWcur (s : State) : Host.Outcome State Fault Refusal :=
  .next (s.returnIfIdle (BitVec.ofNat 32 s.wcur))

/-- RD_ACTIVE (R203): A while idle. -/
def execRdActive (s : State) : Host.Outcome State Fault Refusal :=
  .next (s.returnIfIdle (BitVec.ofNat 32 s.active))

/-- RD_ROFF_LO (R203): bits64(R)[31:0] while idle. -/
def execRdRoffLo (s : State) : Host.Outcome State Fault Refusal :=
  .next (s.returnIfIdle (s.roff.extractLsb' 0 32))

/-- RD_ROFF_HI (R203): bits64(R)[63:32] while idle. -/
def execRdRoffHi (s : State) : Host.Outcome State Fault Refusal :=
  .next (s.returnIfIdle (s.roff.extractLsb' 32 32))

/-- WR_RO at CFG_CAP (R206): ignored. -/
def execWrRoCfgCap (_v : Word) (s : State) : Host.Outcome State Fault Refusal := .next s

/-- WR_RO at CFG_BLK (R206): ignored. -/
def execWrRoCfgBlk (_v : Word) (s : State) : Host.Outcome State Fault Refusal := .next s

/-- WR_RO at PITCH (R206): ignored. -/
def execWrRoPitch (_v : Word) (s : State) : Host.Outcome State Fault Refusal := .next s

/-- WR_RO at WCUR (R206): ignored. -/
def execWrRoWcur (_v : Word) (s : State) : Host.Outcome State Fault Refusal := .next s

/-- WR_RO at ACTIVE (R206): ignored. -/
def execWrRoActive (_v : Word) (s : State) : Host.Outcome State Fault Refusal := .next s

/-- WR_RO at ROFF_LO (R206): ignored. -/
def execWrRoRoffLo (_v : Word) (s : State) : Host.Outcome State Fault Refusal := .next s

/-- WR_RO at ROFF_HI (R206): ignored. -/
def execWrRoRoffHi (_v : Word) (s : State) : Host.Outcome State Fault Refusal := .next s

/-- WR_STATUS (R204): write 1 to clear the error flags, performed also while BUSY. -/
def execWrStatus (v : Word) (s : State) : Host.Outcome State Fault Refusal := .next (s.clearErrors v)

/-- WR_PITCH_IN (R140): stage a pitch word, unvalidated (R145), while idle. -/
def execWrPitchIn (v : Word) (s : State) : Host.Outcome State Fault Refusal :=
  .next (s.whenIdle fun t => t.stagePitch v)

end Sys2Proof.Machine
end

