-- ==== Sys2Proof/Machine/Windows.lean ====
section
/-! DEFINITION. The accesses to the staging windows and to reserved addresses (46_register_access.md R207 to R212). A window
operand outside the words of R66 names a reserved address (R62): it reads 0 and ignores writes (log 14). -/

namespace Sys2Proof.Machine

/-- RD_IBUF (R209): exact also while BUSY. -/
def execRdIbuf (c : BitVec 4) (i : BitVec 10) (s : State) : Host.Outcome State Fault Refusal :=
  .next (s.returnWord (if inWindow s.par c i then s.ibuf c.toNat i.toNat else 0x00000000#32))

/-- WR_IBUF (R210): the word is stored unchanged, while idle. -/
def execWrIbuf (c : BitVec 4) (i : BitVec 10) (v : Word) (s : State) : Host.Outcome State Fault Refusal :=
  .next (if inWindow s.par c i then s.whenIdle fun t => t.writeIbuf c.toNat i.toNat v else s)

/-- RD_OBUF (R211): exact while idle, any value while BUSY. -/
def execRdObuf (c : BitVec 4) (i : BitVec 10) (s : State) : Host.Outcome State Fault Refusal :=
  .next (if inWindow s.par c i then s.returnIfIdle (s.obuf c.toNat i.toNat) else s.returnWord 0x00000000#32)

/-- WR_OBUF (R212): ignored. -/
def execWrObuf (_c : BitVec 4) (_i : BitVec 10) (_v : Word) (s : State) : Host.Outcome State Fault Refusal :=
  .next s

/-- RD_RSVD (R207): a reserved address reads 0. -/
def execRdRsvd (_a : Addr) (s : State) : Host.Outcome State Fault Refusal := .next (s.returnWord 0x00000000#32)

/-- WR_RSVD (R208): a write to a reserved address is ignored. -/
def execWrRsvd (_a : Addr) (_v : Word) (s : State) : Host.Outcome State Fault Refusal := .next s

end Sys2Proof.Machine
end

