-- ==== Sys2Proof/Machine/Dispatch.lean ====
section
/-! DEFINITION. The meaning of every instruction of spec/opcode_table.json, one arm each. -/

namespace Sys2Proof.Machine

def exec (i : Instr) (s : State) : Host.Outcome State Fault Refusal :=
  match i with
  | .nop => Sys2Proof.Machine.execNop s
  | .init => Sys2Proof.Machine.execInit s
  | .process nin nout => Sys2Proof.Machine.execProcess nin nout s
  | .illegalCmd w => Sys2Proof.Machine.execIllegalCmd w s
  | .rdCfgCap => Sys2Proof.Machine.execRdCfgCap s
  | .rdCfgBlk => Sys2Proof.Machine.execRdCfgBlk s
  | .rdCmd => Sys2Proof.Machine.execRdCmd s
  | .rdStatus => Sys2Proof.Machine.execRdStatus s
  | .rdPitchIn => Sys2Proof.Machine.execRdPitchIn s
  | .rdPitch => Sys2Proof.Machine.execRdPitch s
  | .rdWcur => Sys2Proof.Machine.execRdWcur s
  | .rdActive => Sys2Proof.Machine.execRdActive s
  | .rdRoffLo => Sys2Proof.Machine.execRdRoffLo s
  | .rdRoffHi => Sys2Proof.Machine.execRdRoffHi s
  | .wrRoCfgCap v => Sys2Proof.Machine.execWrRoCfgCap v s
  | .wrRoCfgBlk v => Sys2Proof.Machine.execWrRoCfgBlk v s
  | .wrRoPitch v => Sys2Proof.Machine.execWrRoPitch v s
  | .wrRoWcur v => Sys2Proof.Machine.execWrRoWcur v s
  | .wrRoActive v => Sys2Proof.Machine.execWrRoActive v s
  | .wrRoRoffLo v => Sys2Proof.Machine.execWrRoRoffLo v s
  | .wrRoRoffHi v => Sys2Proof.Machine.execWrRoRoffHi v s
  | .wrCmd w => Sys2Proof.Machine.execWrCmd w s
  | .wrStatus v => Sys2Proof.Machine.execWrStatus v s
  | .wrPitchIn v => Sys2Proof.Machine.execWrPitchIn v s
  | .rdIbuf c j => Sys2Proof.Machine.execRdIbuf c j s
  | .wrIbuf c j v => Sys2Proof.Machine.execWrIbuf c j v s
  | .rdObuf c j => Sys2Proof.Machine.execRdObuf c j s
  | .wrObuf c j v => Sys2Proof.Machine.execWrObuf c j v s
  | .rdRsvd a => Sys2Proof.Machine.execRdRsvd a s
  | .wrRsvd a v => Sys2Proof.Machine.execWrRsvd a v s

end Sys2Proof.Machine
end

