-- ==== Sys2Proof/Machine/Float.lean ====
section
/-! DEFINITION. The floating-point primitives of R14 on bit patterns: every result is the exact result rounded once to
nearest, ties to even, with no flags and no flush of subnormals. A finite pattern is read as an exact dyadic
number, the operation is done exactly on integers, and `roundMag` narrows the exact result. -/

namespace Sys2Proof.Machine

/-- What a binary pattern stands for: `fin neg m e` is the exact value (-1)^neg * m * 2^e, a zero keeping
its sign. -/
inductive FpValue where
  | nan
  | inf (neg : Bool)
  | fin (neg : Bool) (m : Nat) (e : Int)
  deriving DecidableEq, Repr

/-- A binary interchange format: `prec` significant bits, the exponent `emin` of the smallest subnormal,
and the magnitude pattern of infinity. -/
structure FpFormat where
  prec : Nat
  emin : Int
  infMag : Nat
  deriving DecidableEq, Repr

/-- binary32 (R13, R65). -/
def binary32 : FpFormat := { prec := 24, emin := -149, infMag := 0x7F800000 }

/-- binary64 (R13). -/
def binary64 : FpFormat := { prec := 53, emin := -1074, infMag := 0x7FF0000000000000 }

/-! ## Reading patterns -/

/-- The value of a magnitude pattern (the pattern without its sign bit). -/
def valueOfMag (f : FpFormat) (neg : Bool) (mag : Nat) : FpValue :=
  let frac := mag % 2 ^ (f.prec - 1)
  let expo := mag / 2 ^ (f.prec - 1)
  if f.infMag < mag then .nan
  else if mag = f.infMag then .inf neg
  else if expo = 0 then .fin neg frac f.emin
  else .fin neg (2 ^ (f.prec - 1) + frac) (f.emin + (expo - 1 : Nat))

/-- The value of a binary32 pattern: bit 31 the sign, [30:23] the exponent, [22:0] the fraction (R65). -/
def value32 (x : Word) : FpValue := valueOfMag binary32 (x.getLsbD 31) (x.toNat % 2 ^ 31)

/-- The value of a binary64 pattern (R13). -/
def value64 (x : Bits64) : FpValue := valueOfMag binary64 (x.getLsbD 63) (x.toNat % 2 ^ 63)

/-- The pattern is a binary32 NaN: exponent field 0xFF and a nonzero fraction (R163). -/
def isNan32 (x : Word) : Bool := decide (0x7F800000 < x.toNat % 2 ^ 31)

/-- The pattern is finite: exponent field not 0xFF (R145). -/
def isFinite32 (x : Word) : Bool := decide (x.toNat % 2 ^ 31 < 0x7F800000)

/-- The pattern is a binary64 NaN. -/
def isNan64 (x : Bits64) : Bool := decide (0x7FF0000000000000 < x.toNat % 2 ^ 63)

/-- The pattern is a finite binary64. -/
def isFinite64 (x : Bits64) : Bool := decide (x.toNat % 2 ^ 63 < 0x7FF0000000000000)

/-- The exact rational value of a finite datum; NaN and the infinities have none. -/
def FpValue.real : FpValue → Option Rat
  | .fin neg m e => some ((if neg then -(m : Rat) else (m : Rat)) * (2 : Rat) ^ e)
  | _ => none

/-- The exact rational value of a finite binary32 pattern. -/
def real32 (x : Word) : Option Rat := (value32 x).real

/-- The exact rational value of a finite binary64 pattern. -/
def real64 (x : Bits64) : Option Rat := (value64 x).real

/-! ## Rounding and writing patterns -/

/-- `m / 2^s` to the nearest integer, ties to even (s ≥ 1). -/
def roundHalfEven (m s : Nat) : Nat :=
  let q := m / 2 ^ s
  let r := m % 2 ^ s
  if 2 ^ s < 2 * r ∨ (2 * r = 2 ^ s ∧ q % 2 = 1) then q + 1 else q

/-- The exponent of the unit in the last place of the rounded `m * 2^e` (m ≠ 0): `prec` significant bits,
but not below `emin`. -/
def ulpExp (f : FpFormat) (m : Nat) (e : Int) : Int :=
  max (e + (Nat.log2 m + 1 : Nat) - f.prec) f.emin

/-- The magnitude pattern of `m * 2^e` rounded to the format: nearest, ties to even, subnormals kept, and
infinity when the rounded magnitude exceeds the largest finite one (R14). -/
def roundMag (f : FpFormat) (m : Nat) (e : Int) : Nat :=
  if m = 0 then 0
  else
    let q := ulpExp f m e
    let k := if q ≤ e then m * 2 ^ (e - q).toNat else roundHalfEven m (q - e).toNat
    min ((q - f.emin).toNat * 2 ^ (f.prec - 1) + k) f.infMag

/-- A binary64 pattern from its sign and magnitude. -/
def pack64 (neg : Bool) (mag : Nat) : Bits64 := BitVec.ofNat 64 ((if neg then 2 ^ 63 else 0) + mag)

/-- A binary32 pattern from its sign and magnitude. -/
def pack32 (neg : Bool) (mag : Nat) : Word := BitVec.ofNat 32 ((if neg then 2 ^ 31 else 0) + mag)

/-- The binary64 pattern used for a NaN inside a computation. It is never observable: a NaN sample is
written by `nanResult` (R163) and a NaN read offset is refused (R150; log 7). -/
def nan64 : Bits64 := 0x7FF8000000000000#64

/-- The binary64 pattern nearest to (-1)^neg * m * 2^e (R14). -/
def round64 (neg : Bool) (m : Nat) (e : Int) : Bits64 := pack64 neg (roundMag binary64 m e)

/-! ## The primitives of R14 -/

/-- The integer (-1)^neg * m. -/
def signed (neg : Bool) (m : Nat) : Int := if neg then -(m : Int) else m

/-- (-1)^neg * m * 2^e as a multiple of 2^q, for q ≤ e. -/
def scaled (q : Int) (neg : Bool) (m : Nat) (e : Int) : Int := signed neg (m * 2 ^ (e - q).toNat)

/-- `f64(k)` for an integer (R14). -/
def f64OfInt (k : Int) : Bits64 := round64 (decide (k < 0)) k.natAbs 0

/-- `f64(x)` for a binary32 value (R14). -/
def f64OfF32 (x : Word) : Bits64 :=
  match value32 x with
  | .nan => nan64
  | .inf n => pack64 n binary64.infMag
  | .fin n m e => round64 n m e

/-- `add64` (R14). An exact zero sum is +0.0 unless both operands are negative zeros. -/
def add64 (a b : Bits64) : Bits64 :=
  match value64 a, value64 b with
  | .nan, _ => nan64
  | _, .nan => nan64
  | .inf n, .inf n' => if n = n' then pack64 n binary64.infMag else nan64
  | .inf n, .fin _ _ _ => pack64 n binary64.infMag
  | .fin _ _ _, .inf n => pack64 n binary64.infMag
  | .fin n m e, .fin n' m' e' =>
    let q := min e e'
    let k := scaled q n m e + scaled q n' m' e'
    round64 (decide (k < 0) || (decide (k = 0) && n && n')) k.natAbs q

/-- The pattern with its sign bit inverted. -/
def neg64 (a : Bits64) : Bits64 := a ^^^ 0x8000000000000000#64

/-- `sub64` (R14): the sum with the negated operand. -/
def sub64 (a b : Bits64) : Bits64 := add64 a (neg64 b)

/-- `mul64` (R14). -/
def mul64 (a b : Bits64) : Bits64 :=
  match value64 a, value64 b with
  | .nan, _ => nan64
  | _, .nan => nan64
  | .inf n, .inf n' => pack64 (n != n') binary64.infMag
  | .inf n, .fin n' m _ => if m = 0 then nan64 else pack64 (n != n') binary64.infMag
  | .fin n m _, .inf n' => if m = 0 then nan64 else pack64 (n != n') binary64.infMag
  | .fin n m e, .fin n' m' e' => round64 (n != n') (m * m') (e + e')

/-- `gt64`: the comparison a > b, false if either is a NaN (R14). -/
def gt64 (a b : Bits64) : Bool :=
  match value64 a, value64 b with
  | .nan, _ => false
  | _, .nan => false
  | .inf n, .inf n' => !n && n'
  | .inf n, .fin _ _ _ => !n
  | .fin _ _ _, .inf n => n
  | .fin n m e, .fin n' m' e' =>
    let q := min e e'
    decide (scaled q n' m' e' < scaled q n m e)

/-- `fmod64` for finite x and finite y > 0: the exact remainder of the truncated division, with the sign of
x (R14). Outside that domain the result is a NaN. -/
def fmod64 (x y : Bits64) : Bits64 :=
  match value64 x, value64 y with
  | .fin n m e, .fin false m' e' =>
    if m' = 0 then nan64
    else
      let q := min e e'
      round64 n ((m * 2 ^ (e - q).toNat) % (m' * 2 ^ (e' - q).toNat)) q
  | _, _ => nan64

/-- `floor64` for finite x: the largest integer at most x (R14); no value otherwise (R150). -/
def floor64 (x : Bits64) : Option Int :=
  match value64 x with
  | .fin n m e =>
    if 0 ≤ e then some (signed n (m * 2 ^ e.toNat))
    else some (signed n m / (2 ^ (-e).toNat : Nat))
  | _ => none

/-- `cvt32`: binary64 to binary32, where a NaN becomes the pattern `nan` (R14, R163). -/
def cvt32 (nan : Word) (x : Bits64) : Word :=
  match value64 x with
  | .nan => nan
  | .inf n => pack32 n binary32.infMag
  | .fin n m e => pack32 n (roundMag binary32 m e)

end Sys2Proof.Machine
end

