-- ==== Sys2Proof/Machine/Engine.lean ====
section
/-! DEFINITION. The Engine: the clear (R113) and PROCESS (R180 to R192) with its steps ENSURE_CHANNELS (R120), WRITE_BLOCK
(R130), SAMPLE_PARAMETER (R141), READ_SAMPLE (R150) and FINAL_NORMALIZE (R158), and the completion step (R270). -/

namespace Sys2Proof.Machine

/-! ## The clear -/

/-- `complete CLEAR` (R113): every slot +0.0, so nothing is listed. ERR_CMD, ERR_BUSY, IBUF, OBUF and PSTAGE
are unchanged. -/
def State.completeClear (s : State) : State :=
  { s with
    ring := []
    wcur := 0
    roff := 0x0000000000000000#64
    pitch := 0x3F800000#32
    active := 0
    pend := false
    inflight := .none }

/-! ## Channel reconciliation -/

/-- ENSURE_CHANNELS(nin) (R120). -/
def State.ensureChannels (s : State) (nin : Nat) : State :=
  if s.active < nin then { s with active := nin } else s

/-! ## Write path -/

/-- The word WRITE_BLOCK stores as sample `i` of channel `c`: the input word, or silence for a channel with
no input (R130, R132, R135). -/
def State.inputWord (s : State) (nin c i : Nat) : Word :=
  if c < nin then s.ibuf c i else 0x00000000#32

/-- The first `n` samples of channel `c` written from the pre-call cursor of `s` (R130, R131). -/
def State.writeSamples (s : State) (nin c : Nat) : Nat → Memory → Memory
  | 0, ring => ring
  | i + 1, ring =>
    ringWrite s.par (s.writeSamples nin c i ring) c (writeSlot s.par s.wcur i) (s.inputWord nin c i)

/-- The blocks of the first `k` channels written (R130). -/
def State.writeChannels (s : State) (nin : Nat) : Nat → Memory → Memory
  | 0, ring => ring
  | c + 1, ring => s.writeSamples nin c s.par.blk (s.writeChannels nin c ring)

/-- WRITE_BLOCK(nin): one block of every populated channel, then the cursor once (R130, R133). -/
def State.writeBlock (s : State) (nin : Nat) : State :=
  { s with
    ring := s.writeChannels nin s.active s.ring
    wcur := writeSlot s.par s.wcur s.par.blk }

/-! ## Parameter sampling -/

/-- SAMPLE_PARAMETER (R141). PEND is cleared at the end of the PROCESS (R186). -/
def State.sampleParameter (s : State) : State := if s.pend then { s with pitch := s.pstage } else s

/-! ## Read path -/

/-- `nanResult(s0, s1, frac)`: a binary32 NaN with any sign and any nonzero fraction field (R163; log 6). -/
def nanResult (s0 s1 : Word) (frac : Bits64) : Word :=
  pack32 (Config.nanSign s0 s1 frac) (0x7F800001 + (Config.nanPayload s0 s1 frac).val)

/-- Step 1, the read position (R151). -/
def readPos (p : Params) (w : Nat) (r : Bits64) : Bits64 :=
  fmod64 (add64 (f64OfInt w) r) (f64OfInt p.cap)

/-- Step 2, the fraction of the read position above its floor `k0` (R152). -/
def readFrac (rp : Bits64) (k0 : Int) : Bits64 := sub64 rp (f64OfInt k0)

/-- Step 4, the interpolation in binary64, three roundings in this order (R154). -/
def interpolate64 (s0 s1 : Word) (frac : Bits64) : Bits64 :=
  add64 (f64OfF32 s0) (mul64 frac (sub64 (f64OfF32 s1) (f64OfF32 s0)))

/-- The output word: step 4 rounded to binary32, or a NaN pattern (R155, R163). -/
def interpolate (s0 s1 : Word) (frac : Bits64) : Word :=
  cvt32 (nanResult s0 s1 frac) (interpolate64 s0 s1 frac)

/-- Steps 5 and 6, the advance of R by P and its one normalisation (R156, R157). -/
def advance (p : Params) (pitch : Word) (r : Bits64) : Bits64 :=
  let r1 := add64 r (f64OfF32 pitch)
  if gt64 r1 (f64OfInt ((p.cap : Int) - 1)) then sub64 r1 (f64OfInt p.cap) else r1

/-- READ_SAMPLE(c) at the read offset `r`: the output word and the new read offset (R150); nothing where the
read position has no floor. -/
def State.readSample (s : State) (c : Nat) (r : Bits64) : Option (Word × Bits64) :=
  match floor64 (readPos s.par s.wcur r) with
  | none => none
  | some k0 =>
    some
      (interpolate (s.slot c (wrap s.par k0)) (s.slot c (wrap s.par (k0 + 1)))
          (readFrac (readPos s.par s.wcur r) k0),
        advance s.par s.pitch r)

/-- FINAL_NORMALIZE (R158); nothing where R is not finite (D15). -/
def finalNormalize (p : Params) (r : Bits64) : Option Bits64 :=
  if isFinite64 r then some (fmod64 r (f64OfInt p.cap)) else none

/-! ## Block processor -/

/-- Output sample `i` of channel `c`: a READ_SAMPLE of a populated channel, silence otherwise (R182, R184).
The pair is the read offset and the staging bytes. -/
def State.outputSample (s : State) (c i : Nat) (x : Bits64 × Memory) : Option (Bits64 × Memory) :=
  if c < s.active then
    match s.readSample c x.1 with
    | none => none
    | some (y, r) => some (r, memWrite x.2 (obufAddr c i) y)
  else some (x.1, memWrite x.2 (obufAddr c i) 0x00000000#32)

/-- The first `n` output samples of channel `c`, in increasing sample order (R183). -/
def State.outputSamples (s : State) (c : Nat) : Nat → Bits64 × Memory → Option (Bits64 × Memory)
  | 0, x => some x
  | i + 1, x =>
    match s.outputSamples c i x with
    | none => none
    | some y => s.outputSample c i y

/-- The first `k` output channels, in increasing channel order (R183). -/
def State.outputChannels (s : State) : Nat → Bits64 × Memory → Option (Bits64 × Memory)
  | 0, x => some x
  | c + 1, x =>
    match s.outputChannels c x with
    | none => none
    | some y => s.outputSamples c s.par.blk y

/-- The first `n` OBUF words of channel `c` silenced (R181). -/
def silenceSamples (c : Nat) : Nat → Memory → Memory
  | 0, mem => mem
  | i + 1, mem => memWrite (silenceSamples c i mem) (obufAddr c i) 0x00000000#32

/-- The first `k` OBUF channels silenced (R181). -/
def silenceChannels (p : Params) : Nat → Memory → Memory
  | 0, mem => mem
  | c + 1, mem => silenceSamples c p.blk (silenceChannels p c mem)

/-- The end of every PROCESS: `PEND <- 0; INFLIGHT <- none` (R180, R186). -/
def State.finish (s : State) : State := { s with pend := false, inflight := .none }

/-- NO_INPUT(nout) (R181). -/
def State.noInput (s : State) (nout : Nat) : State := { s with mem := silenceChannels s.par nout s.mem }

/-- The first three steps of INPUT_BLOCK: ENSURE_CHANNELS, WRITE_BLOCK, SAMPLE_PARAMETER (R182). -/
def State.ingest (s : State) (nin : Nat) : State := ((s.ensureChannels nin).writeBlock nin).sampleParameter

/-- The reads of INPUT_BLOCK and FINAL_NORMALIZE, from the state after the first three steps (R182). -/
def State.synthesize (s : State) (nout : Nat) : Option State :=
  match s.outputChannels nout (s.roff, s.mem) with
  | none => none
  | some (r, mem) =>
    match finalNormalize s.par r with
    | none => none
    | some r' => some { s with roff := r', mem := mem }

/-- `complete PROCESS(nin, nout)` (R180 to R182). A non-finite pitch is refused (R145), and so is a read
position without a floor (R150). -/
def State.completeProcess (s : State) (nin nout : Nat) : Host.Outcome State Fault Refusal :=
  if nin = 0 then .next (s.noInput nout).finish
  else if isFinite32 (s.ingest nin).pitch then
    match (s.ingest nin).synthesize nout with
    | none => .refused .noReadPosition
    | some t => .next t.finish
  else .refused .nonFinitePitch

/-- The Engine's completion step; with nothing in flight the Engine has no step and the state stays (R245,
R270). -/
def State.engineStep (s : State) : Host.Outcome State Fault Refusal :=
  match s.inflight with
  | .none => .next s
  | .clear => .next s.completeClear
  | .process nin nout => s.completeProcess nin.toNat nout.toNat

end Sys2Proof.Machine
end

