-- ==== Sys2Proof/Machine/Schedule.lean ====
section
/-! DEFINITION. Which agent moves next, the reset input, and how a host access becomes an instruction (R17, R75, R236, R260).
State holds the order of moves as data, so a claim about every state is a claim about every order (log 1). -/

namespace Sys2Proof.Machine

/-- The move of one step, with the state after its event is taken from the schedule. -/
inductive Turn where
  /-- The host issues an access (R75). -/
  | host (op : HostOp) (s : State)
  /-- The Engine has the turn (R270). -/
  | engine (s : State)
  /-- Neither agent moves: only the reset input changed, or reset holds the Engine. -/
  | wait (s : State)
  deriving DecidableEq, Repr

/-- Release of reset: every state element takes its reset value, an in-flight command is abandoned and the
clear is in flight (R260, R261). The staging windows get new unspecified contents (R40, R41; log 3), and the
model's own schedule and observation stay. -/
def State.releaseReset (s : State) : State :=
  { State.resetWith s.par with
    events := s.events
    reads := s.reads
    draws := s.draws
    epoch := s.epoch + 1 }

/-- The next move. With the schedule exhausted the Engine has the turn, so an in-flight command always
completes (R271); while reset is asserted the Engine does not move (R260; log 12). -/
def State.nextTurn (s : State) : Turn :=
  match s.events with
  | [] => if s.rst then .wait s else .engine s
  | .host op :: rest => .host op { s with events := rest }
  | .engine :: rest =>
    if s.rst then .wait { s with events := rest } else .engine { s with events := rest }
  | .resetAssert :: rest => .wait { s with events := rest, rst := true }
  | .resetRelease :: rest =>
    if s.rst then .wait { s with events := rest }.releaseReset else .wait { s with events := rest }

/-- The refusal of an access the decoder rejects (R213). -/
def Refusal.ofDecode : DecodeError → Refusal
  | .accessWidth width => .accessWidth width
  | .misaligned a => .misaligned a

/-- The instruction a host access performs, or its refusal (R213, R260). -/
def State.fetch (s : State) (op : HostOp) : Except Refusal Instr :=
  if s.rst then .error .accessDuringReset
  else
    match decode s.par op with
    | .ok i => .ok i
    | .error e => .error (Refusal.ofDecode e)

/-- The state in which the next step is the host access of a table row's bits (reset released, that access
first in the schedule); a number that is no row's bits changes nothing. -/
def State.scheduleFirst (s : State) (nbits w : Nat) : State :=
  match HostOp.ofTable nbits w with
  | none => s
  | some op => { s with rst := false, events := .host op :: s.events }

end Sys2Proof.Machine
end

