-- ==== Sys2Proof/Machine/Step.lean ====
section
/-! DEFINITION. One step: the agent that has the turn moves (R17, R75, R236, R270). -/

namespace Sys2Proof.Machine

/-- One step of the machine. A host access is decoded and its instruction executed (R75), the Engine completes
the command in flight (R270), or only the schedule moves on. -/
def step (s : State) : Host.Outcome State Fault Refusal :=
  match s.nextTurn with
  | .host op t =>
    match t.fetch op with
    | .ok i => exec i t
    | .error r => .refused r
  | .engine t => t.engineStep
  | .wait t => .next t

/-- `s` with the table row's bits `w` placed as the host access of the very next step. -/
def State.withFetchWord (s : State) (nbits w : Nat) : State := s.scheduleFirst nbits w

end Sys2Proof.Machine
end

