-- ==== Sys2Proof/WellFormed.lean ====
section
/-! DEFINITION. Which instructions stand for an encoding of their own row, for given parameters: command operands
within NCH_MAX (R95), command words that are illegal (R97), window operands that name an existing word (R66)
and addresses that are reserved (R62). -/

namespace Sys2Proof

/-- PROCESS operands: NIN and NOUT at most NCH_MAX (R95). -/
def processOk (p : Params) (nin nout : BitVec 5) : Bool :=
  decide (nin.toNat ≤ p.nch) && decide (nout.toNat ≤ p.nch)

/-- An aligned address that is no register offset of R43 and no window word of R66 (R62). -/
def reservedAddr (p : Params) (a : Addr) : Bool :=
  aligned a && decide (0x28 ≤ a.toNat)
    && !((regionField a == 1 || regionField a == 2) && inWindow p (chanField a) (sampField a))

/-- The well-formed instructions at the parameters `p`. -/
def WellFormed (p : Params) : Instr → Bool
  | .nop | .init => true
  | .process nin nout => processOk p nin nout
  | .illegalCmd w => !legalCmd p w
  | .rdCfgCap | .rdCfgBlk | .rdCmd | .rdStatus | .rdPitchIn => true
  | .rdPitch | .rdWcur | .rdActive | .rdRoffLo | .rdRoffHi => true
  | .wrRoCfgCap _ | .wrRoCfgBlk _ | .wrRoPitch _ | .wrRoWcur _ => true
  | .wrRoActive _ | .wrRoRoffLo _ | .wrRoRoffHi _ => true
  | .wrCmd _ | .wrStatus _ | .wrPitchIn _ => true
  | .rdIbuf c i | .wrIbuf c i _ | .rdObuf c i | .wrObuf c i _ => inWindow p c i
  | .rdRsvd a | .wrRsvd a _ => reservedAddr p a

end Sys2Proof
end

