-- ==== Sys2Proof/Safety.lean ====
section
/-! DEFINITION. The terms the statements use: the invariant of reachable states (R50), the ranges of pitch and read offset
under the host's contract (R170), the pitch a block runs with (R141), the groups of state the rules name (R49,
R112), a run of host operations, and the end of a run (R283). -/

namespace Sys2Proof.Machine

/-- Byte `a` of the host space belongs to a word of the IBUF or OBUF window (R61, R66). -/
abbrev windowByte (p : Params) (a : Nat) : Prop :=
  0x10000 ≤ a ∧ a < 0x30000 ∧ a % 0x10000 / 0x1000 < p.nch ∧ a % 0x1000 / 4 < p.blk

/-- The invariant of reachable states: legal parameters (R7 to R9), the ranges of W and A and the zeros of
unpopulated channels (R50), legal latched operands (R38, R95), a finite pitch (R145), a read offset of
magnitude below C (R158, R166), and stored bytes in canonical form inside their windows. -/
structure Inv (s : State) : Prop where
  legal : s.par.Legal
  wcur_lt : s.wcur < s.par.cap
  active_le : s.active ≤ s.par.nch
  ring_wf : s.ring.wf (some ringUnlisted)
  ring_populated : ∀ x ∈ s.ring, x.1 < 4 * (s.active * s.par.cap)
  mem_wf : s.mem.wf none
  mem_window : ∀ x ∈ s.mem, windowByte s.par x.1
  operands : ∀ nin nout, s.inflight = .process nin nout → nin.toNat ≤ s.par.nch ∧ nout.toNat ≤ s.par.nch
  pitch_finite : isFinite32 s.pitch = true
  roff_bounded : ∃ v, real64 s.roff = some v ∧ |v| < s.par.cap

/-- A binary32 pitch in the design bounds [0.5, 2.0] (R19, R170). -/
abbrev PitchInRange (w : Word) : Prop := ∃ v, real32 w = some v ∧ 1 / 2 ≤ v ∧ v ≤ 2

/-- A read offset in (-1, C-1] that is an integer multiple of 2^-24 (R32, R170, R171). -/
abbrev OffsetInRange (p : Params) (r : Bits64) : Prop :=
  ∃ k : Int, real64 r = some ((k : Rat) / 2 ^ 24) ∧ -2 ^ 24 < k ∧ k ≤ ((p.cap : Int) - 1) * 2 ^ 24

/-- The pitch word an input block runs with: the staged word if one is pending (R141, R144). -/
def State.blockPitch (s : State) : Word := if s.pend then s.pstage else s.pitch

/-- The active channel count after an input block of `nin` channels (R120, R190). -/
def State.blockActive (s : State) (nin : Nat) : Nat := max s.active nin

/-- The read offset after `n` READ_SAMPLE calls of an input block (R156, R157, R160). -/
def State.offsetAfter (s : State) (n : Nat) : Bits64 := (advance s.par s.blockPitch)^[n] s.roff

/-- `trunc` of a rational: toward zero (R14). -/
def truncRat (q : Rat) : Int := if 0 ≤ q then ⌊q⌋ else ⌈q⌉

/-- The binary64 zero with the given sign. -/
def zero64 (neg : Bool) : Bits64 := if neg then 0x8000000000000000#64 else 0x0000000000000000#64

/-- The binary64 infinity with the given sign. -/
def inf64 (neg : Bool) : Bits64 := if neg then 0xFFF0000000000000#64 else 0x7FF0000000000000#64

/-- The binary32 zero with the given sign. -/
def zero32 (neg : Bool) : Word := if neg then 0x80000000#32 else 0x00000000#32

/-- The binary32 infinity with the given sign. -/
def inf32 (neg : Bool) : Word := if neg then 0xFF800000#32 else 0x7F800000#32

/-- The binary64 pattern `y` is the rational `x` rounded to nearest, ties to even (R14): the infinity of its sign
when `x` is beyond the largest finite value by half a unit or more, and finite otherwise; no finite pattern is
nearer, at a tie `y` is even, and a nonzero `x` gives `y` its sign, also where `y` is a zero. -/
abbrev RoundsTo64 (y : Bits64) (x : Rat) : Prop :=
  (|x| < 2 ^ 1024 - 2 ^ 970 → ∃ v, real64 y = some v) ∧
    (2 ^ 1024 - 2 ^ 970 ≤ x → y = inf64 false) ∧
    (x ≤ -(2 ^ 1024 - 2 ^ 970) → y = inf64 true) ∧
    (x < 0 → y.getLsbD 63 = true) ∧ (0 < x → y.getLsbD 63 = false) ∧
    ∀ v, real64 y = some v → ∀ z u, real64 z = some u →
      |v - x| ≤ |u - x| ∧ (|v - x| = |u - x| → u ≠ v → y.getLsbD 0 = false)

/-- The binary32 pattern `y` is the rational `x` rounded to nearest, ties to even (R14): the infinity of its sign
when the rounded magnitude exceeds the largest binary32, and finite otherwise; no finite pattern is nearer, at a
tie `y` is even, and a nonzero `x` gives `y` its sign, also where `y` is a zero. -/
abbrev RoundsTo32 (y : Word) (x : Rat) : Prop :=
  (|x| < 2 ^ 128 - 2 ^ 103 → ∃ v, real32 y = some v) ∧
    (2 ^ 128 - 2 ^ 103 ≤ x → y = inf32 false) ∧
    (x ≤ -(2 ^ 128 - 2 ^ 103) → y = inf32 true) ∧
    (x < 0 → y.getLsbD 31 = true) ∧ (0 < x → y.getLsbD 31 = false) ∧
    ∀ v, real32 y = some v → ∀ z u, real32 z = some u →
      |v - x| ≤ |u - x| ∧ (|v - x| = |u - x| → u ≠ v → y.getLsbD 0 = false)

/-- The engine state RING, W, R, P, A of `t` is that of `s` (R49). -/
abbrev SameEngineState (s t : State) : Prop :=
  t.ring = s.ring ∧ t.wcur = s.wcur ∧ t.roff = s.roff ∧ t.pitch = s.pitch ∧ t.active = s.active

/-- Everything a command in flight reads is in `t` as it is in `s` (R112). -/
abbrev SameCommandInputs (s t : State) : Prop :=
  SameEngineState s t ∧ t.mem = s.mem ∧ t.epoch = s.epoch ∧ t.pstage = s.pstage ∧ t.pend = s.pend
    ∧ t.inflight = s.inflight ∧ t.par = s.par

/-- `t` is `s` but for a PSTAGE word that is not pending (R36). -/
abbrev SameButUnusedStage (s t : State) : Prop :=
  t = { s with pstage := t.pstage } ∧ (s.pend = true → t.pstage = s.pstage)

/-- A host's instructions performed in order, the Engine taking no turn between them. -/
def runInstrs : List Instr → State → Host.Outcome State Fault Refusal
  | [], s => .next s
  | i :: is, s =>
    match exec i s with
    | .next t => runInstrs is t
    | .fault f => .fault f
    | .refused r => .refused r

/-- The end of a run (R283): the host program has issued its last access and nothing is in flight. -/
abbrev State.Finished (s : State) : Prop := s.events = [] ∧ s.inflight = .none

end Sys2Proof.Machine
end

