-- ==== Sys2Proof/Certificates/Slice0/Obligations.lean ====
section
/-! DEFINITION. The statements for the provers. Each docstring names the rules it formalises. -/

open Sys2Proof Sys2Proof.Machine

/-! ## Encoding -/

/-- Every well-formed instruction is read back from its encoding (R91, R92, R96, R99). -/
def Obligations.DecodeOfEncode : Prop :=
  ∀ (p : Params) (i : Instr), p.Legal → WellFormed p i = true → decode p (encode i) = .ok i

/-- Every accepted port operation is the encoding of the one well-formed instruction it decodes to (R96, R99). -/
def Obligations.EncodeOfDecode : Prop :=
  ∀ (p : Params) (op : HostOp) (i : Instr), decode p op = .ok i → encode i = op ∧ WellFormed p i = true

/-- Words written out from the tables of R96, R99 and R101 decode to the operations they stand for. -/
def Obligations.WrittenOutWordsDecode : Prop :=
  decode Params.standard (.cmd 0x00020102#32) = .ok (.process 1 2)
    ∧ decode Params.standard (.cmd 0x00030102#32) = .ok (.illegalCmd 0x00030102#32)
    ∧ decode Params.standard (.read 32 0x0000C#18) = .ok .rdStatus
    ∧ decode Params.standard (.write 32 0x00010#18 0x3F99999A#32) = .ok (.wrPitchIn 0x3F99999A#32)
    ∧ decode Params.standard (.write 32 0x1100C#18 0xBF000000#32) = .ok (.wrIbuf 1 3 0xBF000000#32)
    ∧ decode Params.standard (.read 32 0x21008#18) = .ok (.rdObuf 1 2)
    ∧ decode Params.standard (.read 32 0x12000#18) = .ok (.rdRsvd 0x12000#18)

/-- Writing a word to CMD is submitting the command the word decodes to (R96, R110, R205). -/
def Obligations.CmdWriteRunsDecodedCommand : Prop :=
  ∀ (s : State) (w : Word), exec (.wrCmd w) s = exec (decodeCmd s.par w) s

/-- An access that is not 32 bits wide, or not aligned, is refused by name; every 32-bit aligned access
completes (R63). -/
def Obligations.OnlyAlignedWordAccessesAreAdmitted : Prop :=
  ∀ (s : State) (rest : List Event) (width : Nat) (a : Addr) (v : Word) (op : HostOp),
    s.rst = false → s.events = .host op :: rest → (op = .read width a ∨ op = .write width a v) →
      (width ≠ 32 → step s = .refused (.accessWidth width))
        ∧ (width = 32 → a.extractLsb' 0 2 ≠ 0#2 → step s = .refused (.misaligned a))
        ∧ (width = 32 → a.extractLsb' 0 2 = 0#2 → ∃ t, step s = .next t)

/-! ## The step -/

/-- A scheduled host access that decodes to an instruction is that instruction executed, with the access taken
from the schedule (R75). -/
def Obligations.StepRunsDecodedInstruction : Prop :=
  ∀ (s : State) (op : HostOp) (rest : List Event) (i : Instr),
    s.rst = false → s.events = .host op :: rest → decode s.par op = .ok i →
      step s = exec i { s with events := rest }

/-- The Engine's turn completes the command in flight, from the state at the moment it fires; with nothing in
flight the Engine has no step and the state stays (R270). The Engine also has the turn when the schedule is
exhausted (log 1: the model's form of weak fairness). -/
def Obligations.EngineTurnCompletesInFlight : Prop :=
  ∀ (s : State) (rest : List Event), s.rst = false →
    (s.events = .engine :: rest → step s = { s with events := rest }.engineStep)
      ∧ (s.events = [] → step s = s.engineStep)
      ∧ (s.inflight = .none → s.engineStep = .next s)
      ∧ (s.inflight = .clear → s.engineStep = .next s.completeClear)
      ∧ (∀ nin nout, s.inflight = .process nin nout →
          s.engineStep = s.completeProcess nin.toNat nout.toNat)

/-- With nothing scheduled and nothing in flight the block keeps all its state indefinitely (R245). -/
def Obligations.IdleBlockKeepsItsState : Prop :=
  ∀ (s : State) (n : Nat), s.Finished → Host.Core.run Sys2Proof.core n s = .next s

/-- The reset values. RING, W, R, P, A, PEND, INFLIGHT (so BUSY) and the error flags are those of R261. Every IBUF
and OBUF word is unspecified there: that it reads as the free power-on contents of reset number 0 is the model's
choice (log 3), and nothing is known of its value. -/
def Obligations.ResetValues : Prop :=
  ∀ (p : Params) (c j : Nat),
    (State.resetWith p).slot c j = 0x00000000#32
      ∧ (State.resetWith p).wcur = 0 ∧ (State.resetWith p).roff = 0x0000000000000000#64
      ∧ (State.resetWith p).pitch = 0x3F800000#32 ∧ (State.resetWith p).active = 0
      ∧ (State.resetWith p).pend = false ∧ (State.resetWith p).inflight = .clear
      ∧ (State.resetWith p).busy = true
      ∧ (State.resetWith p).errCmd = false ∧ (State.resetWith p).errBusy = false
      ∧ (State.resetWith p).ibuf c j = wordAt (Config.powerOn 0) (ibufAddr c j)
      ∧ (State.resetWith p).obuf c j = wordAt (Config.powerOn 0) (obufAddr c j)

/-- The reset input. While it is asserted a host access is refused and its release gives every state element its
reset value, with the command in flight abandoned (R260, R261). The rest is the model's choice. Log 12: asserting
it changes the level of the input alone, the Engine does not move meanwhile, a release with nothing asserted
changes nothing, and the schedule and observation go on. Log 3: the staging windows hold new free contents. Log 4:
PSTAGE, which R36 gives no reset value, is 0 among the values of `State.resetWith`. -/
def Obligations.ResetAbandonsAndRestores : Prop :=
  ∀ (s : State) (op : HostOp) (rest : List Event),
    (s.events = .resetAssert :: rest → step s = .next { s with events := rest, rst := true })
      ∧ (s.rst = true → s.events = .host op :: rest → step s = .refused .accessDuringReset)
      ∧ (s.rst = true → s.events = .engine :: rest → step s = .next { s with events := rest })
      ∧ (s.rst = true → s.events = [] → step s = .next s)
      ∧ (s.rst = true → s.events = .resetRelease :: rest →
          step s = .next { State.resetWith s.par with
            events := rest, reads := s.reads, draws := s.draws, epoch := s.epoch + 1 })
      ∧ (s.rst = false → s.events = .resetRelease :: rest → step s = .next { s with events := rest })

/-- The invariant holds right after reset, for every legal choice of the parameters. -/
def Obligations.InvariantHoldsAtReset : Prop :=
  Inv State.reset ∧ ∀ p : Params, p.Legal → Inv (State.resetWith p)

/-- Every step keeps the invariant of reachable states (R50, R145, R158, R166). -/
def Obligations.StepKeepsInvariant : Prop :=
  ∀ s t : State, Inv s → step s = .next t → Inv t

/-- The invariant gives R50: the cursor and the channel count are in range and every slot of an unpopulated
channel holds +0.0. -/
def Obligations.UnpopulatedChannelsHoldZero : Prop :=
  ∀ s : State, Inv s →
    s.wcur < s.par.cap ∧ s.active ≤ s.par.nch
      ∧ ∀ c j, s.active ≤ c → j < s.par.cap → s.slot c j = 0x00000000#32

/-- Only the completion of a command and the release of reset change RING, W, R, P and A; no host access
does (R49). -/
def Obligations.OnlyCommandsAndResetChangeEngineState : Prop :=
  (∀ (i : Instr) (s t : State), exec i s = .next t → SameEngineState s t)
    ∧ ∀ s t : State, step s = .next t → ¬ SameEngineState s t →
        (s.inflight ≠ .none ∧ ∃ u, s.nextTurn = .engine u)
          ∨ (s.rst = true ∧ ∃ rest, s.events = .resetRelease :: rest)

/-! ## Reads -/

/-- CFG_CAP reads C, CFG_BLK reads N in [10:0] and NCH_MAX in [20:16] with zeros elsewhere, at all times, and
nothing but the observation changes (R45, R200). -/
def Obligations.ConfigReadsGiveParameters : Prop :=
  ∀ s : State, s.par.Legal →
    ∃ cap blk : Word,
      exec .rdCfgCap s = .next { s with reads := cap :: s.reads }
        ∧ exec .rdCfgBlk s = .next { s with reads := blk :: s.reads }
        ∧ cap.toNat = s.par.cap
        ∧ (blk.extractLsb' 0 11).toNat = s.par.blk ∧ blk.extractLsb' 11 5 = 0#5
        ∧ (blk.extractLsb' 16 5).toNat = s.par.nch ∧ blk.extractLsb' 21 11 = 0#11
        ∧ (s.par = Params.standard → cap = 0x00004000#32 ∧ blk = 0x00020080#32)

/-- CMD and PITCH_IN are write-only: they read 0 in every state (R201). -/
def Obligations.WriteOnlyRegistersReadZero : Prop :=
  ∀ s : State,
    exec .rdCmd s = .next { s with reads := 0x00000000#32 :: s.reads }
      ∧ exec .rdPitchIn s = .next { s with reads := 0x00000000#32 :: s.reads }

/-- STATUS reads BUSY, ERR_CMD, ERR_BUSY and PEND in bits 0 to 3 and 0 above, exact at all times, with no side
effect (R44, R202). -/
def Obligations.StatusReadGivesFlags : Prop :=
  ∀ s : State, ∃ w : Word,
    exec .rdStatus s = .next { s with reads := w :: s.reads }
      ∧ (w.getLsbD 0 = true ↔ s.inflight ≠ .none)
      ∧ w.getLsbD 1 = s.errCmd ∧ w.getLsbD 2 = s.errBusy ∧ w.getLsbD 3 = s.pend
      ∧ w.extractLsb' 4 28 = 0#28

/-- While idle, PITCH, WCUR, ACTIVE, ROFF_LO and ROFF_HI read P, W, A and the two halves of R, and change
nothing else (R203). W and A are below 2^32 in every state of the invariant. -/
def Obligations.EngineRegistersReadWhileIdle : Prop :=
  ∀ s : State, s.inflight = .none → Inv s →
    ∃ w a lo hi : Word,
      exec .rdPitch s = .next { s with reads := s.pitch :: s.reads }
        ∧ exec .rdWcur s = .next { s with reads := w :: s.reads } ∧ w.toNat = s.wcur
        ∧ exec .rdActive s = .next { s with reads := a :: s.reads } ∧ a.toNat = s.active
        ∧ exec .rdRoffLo s = .next { s with reads := lo :: s.reads }
        ∧ exec .rdRoffHi s = .next { s with reads := hi :: s.reads }
        ∧ hi ++ lo = s.roff

/-- While BUSY, a read of engine state or of an OBUF word returns a free value, and the next such read takes
the next free value (R77). Which value is the model's constant of log 5: nothing is known of it. -/
def Obligations.BusyReadsReturnFreeValue : Prop :=
  ∀ (s : State) (i : Instr), s.inflight ≠ .none →
    (i = .rdPitch ∨ i = .rdWcur ∨ i = .rdActive ∨ i = .rdRoffLo ∨ i = .rdRoffHi
      ∨ ∃ c j, i = .rdObuf c j ∧ c.toNat < s.par.nch ∧ j.toNat < s.par.blk) →
    exec i s = .next { s with reads := Config.busyRead s.draws :: s.reads, draws := s.draws + 1 }

/-- RD_IBUF returns the word stored at `0x10000 + 0x1000 c + 4 i`, byte lane k from the byte k above it, at all
times, also while BUSY (R66, R67, R209). -/
def Obligations.IbufReadReturnsStoredWord : Prop :=
  ∀ (s : State) (c : BitVec 4) (i : BitVec 10), c.toNat < s.par.nch → i.toNat < s.par.blk →
    ∃ w : Word,
      exec (.rdIbuf c i) s = .next { s with reads := w :: s.reads }
        ∧ ∀ k, k < 4 → w.extractLsb' (8 * k) 8 = s.byte (0x10000 + 0x1000 * c.toNat + 4 * i.toNat + k)

/-- RD_OBUF returns, while idle, the word stored at `0x20000 + 0x1000 c + 4 i` (R66, R67, R211). -/
def Obligations.ObufReadReturnsStoredWordWhileIdle : Prop :=
  ∀ (s : State) (c : BitVec 4) (i : BitVec 10), s.inflight = .none →
    c.toNat < s.par.nch → i.toNat < s.par.blk →
    ∃ w : Word,
      exec (.rdObuf c i) s = .next { s with reads := w :: s.reads }
        ∧ ∀ k, k < 4 → w.extractLsb' (8 * k) 8 = s.byte (0x20000 + 0x1000 * c.toNat + 4 * i.toNat + k)

/-- Reads have no side effects: a read changes nothing but the observation (and the count of free values
drawn), and the same read repeated returns the same word (R71): every read while idle, and while BUSY every read
but those that R77 leaves open, of engine state and of the OBUF words. -/
def Obligations.ReadsHaveNoSideEffects : Prop :=
  ∀ (i : Instr) (s : State),
    (i ∈ [.rdCfgCap, .rdCfgBlk, .rdCmd, .rdStatus, .rdPitchIn, .rdPitch, .rdWcur, .rdActive, .rdRoffLo, .rdRoffHi]
      ∨ (∃ c j, i = .rdIbuf c j) ∨ (∃ c j, i = .rdObuf c j) ∨ ∃ a, i = .rdRsvd a) →
    ∃ w t, exec i s = .next t ∧ t = { s with reads := w :: s.reads, draws := t.draws }
      ∧ ((s.inflight = .none
            ∨ (i ∉ [.rdPitch, .rdWcur, .rdActive, .rdRoffLo, .rdRoffHi]
              ∧ ∀ c j, i = .rdObuf c j → ¬ (c.toNat < s.par.nch ∧ j.toNat < s.par.blk))) →
          exec i t = .next { s with reads := w :: w :: s.reads })

/-- A reserved address reads 0 and ignores writes, also while BUSY, with no flag set and no state changed
(R62, R207, R208). -/
def Obligations.ReservedAddressesReadZeroAndIgnoreWrites : Prop :=
  ∀ (s : State) (a : Addr) (v : Word) (rest : List Event), s.rst = false → reservedAddr s.par a = true →
    step { s with events := .host (.read 32 a) :: rest }
        = .next { s with events := rest, reads := 0x00000000#32 :: s.reads }
      ∧ step { s with events := .host (.write 32 a v) :: rest } = .next { s with events := rest }
      ∧ exec (.rdRsvd a) s = .next { s with reads := 0x00000000#32 :: s.reads }
      ∧ exec (.wrRsvd a v) s = .next s

/-! ## Register and window writes -/

/-- Writes to the read-only registers and to OBUF are ignored in every state: not even an error flag changes
(R206, R212). -/
def Obligations.ReadOnlyAndObufWritesAreIgnored : Prop :=
  ∀ (s : State) (v : Word) (c : BitVec 4) (i : BitVec 10),
    exec (.wrRoCfgCap v) s = .next s ∧ exec (.wrRoCfgBlk v) s = .next s ∧ exec (.wrRoPitch v) s = .next s
      ∧ exec (.wrRoWcur v) s = .next s ∧ exec (.wrRoActive v) s = .next s ∧ exec (.wrRoRoffLo v) s = .next s
      ∧ exec (.wrRoRoffHi v) s = .next s ∧ exec (.wrObuf c i v) s = .next s

/-- Writing STATUS clears ERR_CMD where bit 1 is 1 and ERR_BUSY where bit 2 is 1, in every state, and changes
nothing else (R204). -/
def Obligations.StatusWriteClearsFlags : Prop :=
  ∀ (s : State) (v : Word),
    exec (.wrStatus v) s = .next { s with
      errCmd := if v.getLsbD 1 then false else s.errCmd
      errBusy := if v.getLsbD 2 then false else s.errBusy }

/-- Writing PITCH_IN while idle stages the word and sets PEND; while BUSY it only sets ERR_BUSY (R140). -/
def Obligations.PitchWriteStagesTheWord : Prop :=
  ∀ (s : State) (v : Word),
    (s.inflight = .none → exec (.wrPitchIn v) s = .next { s with pstage := v, pend := true })
      ∧ (s.inflight ≠ .none → exec (.wrPitchIn v) s = .next { s with errBusy := true })

/-- Last value wins: after any sequence of accepted PITCH_IN writes, PSTAGE holds the last one, and a block
with input sets P to it (R142). -/
def Obligations.LastPitchWriteWins : Prop :=
  ∀ (s : State) (vs : List Word) (v : Word), s.inflight = .none →
    runInstrs ((vs ++ [v]).map Instr.wrPitchIn) s = .next { s with pstage := v, pend := true }
      ∧ ∀ (nin nout : Nat) (t : State), nin ≠ 0 →
          { s with pstage := v, pend := true }.completeProcess nin nout = .next t → t.pitch = v

/-- Writing IBUF[c][i] while idle stores the word, byte lane k at the byte k above
`0x10000 + 0x1000 c + 4 i`, leaves every other byte, and changes nothing else; while BUSY it only sets ERR_BUSY
(R66, R67, R210). A word outside the window is a reserved address and ignores the write (R208). -/
def Obligations.IbufWriteStoresTheWord : Prop :=
  ∀ (s : State) (c : BitVec 4) (i : BitVec 10) (v : Word),
    (s.inflight = .none → c.toNat < s.par.nch → i.toNat < s.par.blk →
      ∃ t, exec (.wrIbuf c i v) s = .next t ∧ t = { s with mem := t.mem }
        ∧ t.ibuf c.toNat i.toNat = v
        ∧ (∀ k, k < 4 → t.byte (ibufAddr c.toNat i.toNat + k) = v.extractLsb' (8 * k) 8)
        ∧ ∀ a, a < ibufAddr c.toNat i.toNat ∨ ibufAddr c.toNat i.toNat + 4 ≤ a → t.byte a = s.byte a)
      ∧ (s.inflight ≠ .none → c.toNat < s.par.nch → i.toNat < s.par.blk →
          exec (.wrIbuf c i v) s = .next { s with errBusy := true })
      ∧ (¬ (c.toNat < s.par.nch ∧ i.toNat < s.par.blk) → exec (.wrIbuf c i v) s = .next s)

/-! ## Commands -/

/-- The dispatch of a word written to CMD (R110): BUSY first, then legality, then the case on OP. -/
def Obligations.CmdWriteDispatch : Prop :=
  ∀ (s : State) (w : Word),
    (s.inflight ≠ .none → exec (.wrCmd w) s = .next { s with errBusy := true })
      ∧ (s.inflight = .none → legalCmd s.par w = false → exec (.wrCmd w) s = .next { s with errCmd := true })
      ∧ (s.inflight = .none → legalCmd s.par w = true → w.extractLsb' 0 4 = 0x0#4 → exec (.wrCmd w) s = .next s)
      ∧ (s.inflight = .none → legalCmd s.par w = true → w.extractLsb' 0 4 = 0x1#4 →
          exec (.wrCmd w) s = .next { s with inflight := .clear })
      ∧ (s.inflight = .none → legalCmd s.par w = true → w.extractLsb' 0 4 = 0x2#4 →
          exec (.wrCmd w) s = .next { s with inflight := .process (w.extractLsb' 8 5) (w.extractLsb' 16 5) })

/-- The commands submitted while idle: NOP changes nothing, INIT and PROCESS are latched into INFLIGHT, an
illegal word sets ERR_CMD alone (R111, R113, R114, R180). Two clauses go beyond the words of those rules by the
model's reading of instruction terms that encode no word of their row (log 14): PROCESS operands above NCH_MAX
set ERR_CMD as the illegal word they make, and an illegal-command term does so whatever word it carries, although
R114 speaks of words that are not legal and the decoder yields no other. -/
def Obligations.CommandsSubmittedWhileIdle : Prop :=
  ∀ (s : State) (nin nout : BitVec 5) (w : Word), s.inflight = .none →
    exec .nop s = .next s
      ∧ exec .init s = .next { s with inflight := .clear }
      ∧ (nin.toNat ≤ s.par.nch → nout.toNat ≤ s.par.nch →
          exec (.process nin nout) s = .next { s with inflight := .process nin nout })
      ∧ (s.par.nch < nin.toNat ∨ s.par.nch < nout.toNat →
          exec (.process nin nout) s = .next { s with errCmd := true })
      ∧ exec (.illegalCmd w) s = .next { s with errCmd := true }

/-- ERR_BUSY: a write to CMD, PITCH_IN or an IBUF word while BUSY is discarded and sets it, whatever the word,
and no other access ever sets it (R231, R235). -/
def Obligations.BusyWritesAreDiscarded : Prop :=
  ∀ (s : State) (i : Instr),
    (s.inflight ≠ .none →
      (i ∈ [.nop, .init] ∨ (∃ nin nout, i = .process nin nout) ∨ (∃ w, i = .illegalCmd w) ∨ (∃ w, i = .wrCmd w)
        ∨ (∃ v, i = .wrPitchIn v) ∨ ∃ c j v, i = .wrIbuf c j v ∧ c.toNat < s.par.nch ∧ j.toNat < s.par.blk) →
      exec i s = .next { s with errBusy := true })
    ∧ ∀ t, exec i s = .next t → s.errBusy = false → t.errBusy = true →
        s.inflight ≠ .none
          ∧ (i ∈ [.nop, .init] ∨ (∃ nin nout, i = .process nin nout) ∨ (∃ w, i = .illegalCmd w)
            ∨ (∃ w, i = .wrCmd w) ∨ (∃ v, i = .wrPitchIn v)
            ∨ ∃ c j v, i = .wrIbuf c j v ∧ c.toNat < s.par.nch ∧ j.toNat < s.par.blk)

/-- ERR_CMD is set only by a command submitted while idle that is not legal, and then nothing else changes: the
converse of R230, with the precision of R237. That such a command does set it is CmdWriteDispatch and
CommandsSubmittedWhileIdle. That an illegal-command term counts as not legal whatever word it carries, and PROCESS
operands above NCH_MAX as the illegal word they make, is the model's reading of terms that encode no word of their
row (log 14). -/
def Obligations.ErrCmdOnlyFromIllegalWordWhileIdle : Prop :=
  ∀ (s t : State) (i : Instr), exec i s = .next t → s.errCmd = false → t.errCmd = true →
    s.inflight = .none ∧ t = { s with errCmd := true }
      ∧ ((∃ w, i = .illegalCmd w) ∨ (∃ w, i = .wrCmd w ∧ legalCmd s.par w = false)
        ∨ ∃ nin nout, i = .process nin nout ∧ (s.par.nch < nin.toNat ∨ s.par.nch < nout.toNat))

/-- While a command is in flight no host access changes anything the command reads at its completion, nor
takes the command back (R112). -/
def Obligations.CommandInputsFrozenWhileBusy : Prop :=
  ∀ (s t : State) (i : Instr), s.inflight ≠ .none → exec i s = .next t → SameCommandInputs s t

/-- The error flags change how nothing executes (R232): with other flag values every access but a STATUS read
has the same effect on the rest of the state, and so has the Engine's completion. -/
def Obligations.ErrorFlagsDoNotAffectExecution : Prop :=
  ∀ (s : State) (b1 b2 : Bool),
    (∀ (i : Instr) (t : State), i ≠ .rdStatus → exec i s = .next t →
      ∃ c1 c2, exec i { s with errCmd := b1, errBusy := b2 } = .next { t with errCmd := c1, errBusy := c2 })
    ∧ (∀ t, s.engineStep = .next t →
        { s with errCmd := b1, errBusy := b2 }.engineStep = .next { t with errCmd := b1, errBusy := b2 })
    ∧ ∀ r, s.engineStep = .refused r → { s with errCmd := b1, errBusy := b2 }.engineStep = .refused r

/-- PSTAGE is not observable while PEND = 0 (R36): two states that differ only in an unpended PSTAGE step to
states that do, with the same words read, or are both refused alike. -/
def Obligations.UnpendedStageIsUnobservable : Prop :=
  ∀ s s' : State, SameButUnusedStage s s' →
    (∀ t, step s = .next t → ∃ t', step s' = .next t' ∧ SameButUnusedStage t t')
      ∧ ∀ r, step s = .refused r → step s' = .refused r

/-! ## The Engine -/

/-- Completion of INIT and of the clear after reset (R113): every slot +0.0 and the reset values of W, R, P, A
and PEND; everything else as before. -/
def Obligations.ClearRecreatesEngineState : Prop :=
  ∀ s : State, s.inflight = .clear →
    ∃ t, s.engineStep = .next t
      ∧ t = { s with
          ring := t.ring, wcur := 0, roff := 0x0000000000000000#64, pitch := 0x3F800000#32, active := 0,
          pend := false, inflight := .none }
      ∧ ∀ c j, t.slot c j = 0x00000000#32

/-- INIT from idle to completion: the command is accepted, the Engine's turn completes it, and the result is
that of completing the clear (R110, R113, R270). -/
def Obligations.InitRunsToCompletion : Prop :=
  ∀ (s : State) (rest : List Event), s.inflight = .none → s.rst = false →
    s.events = .host (.cmd 0x00000001#32) :: .engine :: rest →
    ∃ t, step s = .next t ∧ t.busy = true
      ∧ step t = .next { s with
          events := rest, ring := [], wcur := 0, roff := 0x0000000000000000#64, pitch := 0x3F800000#32,
          active := 0, pend := false }

/-- A block with no input (R181, R191): every OBUF word of a channel below nout becomes +0.0, every other byte
of the staging windows and all of RING, W, R, P and A stay, and PEND is cleared. -/
def Obligations.NoInputBlockIsSilence : Prop :=
  ∀ (s : State) (nout : BitVec 5), s.par.Legal → s.inflight = .process 0 nout →
    ∃ t, s.engineStep = .next t
      ∧ t = { s with mem := t.mem, pend := false, inflight := .none }
      ∧ (∀ c i, c < nout.toNat → i < s.par.blk → t.obuf c i = 0x00000000#32)
      ∧ ∀ a, (∀ c i, c < nout.toNat → i < s.par.blk → a < obufAddr c i ∨ obufAddr c i + 4 ≤ a) →
          t.byte a = s.byte a

/-- The end state of a block with input (R190): A, W, P, R and PEND as given there, the block in the N slots
from W of every populated channel. The frame: the other slots of every channel keep their words (R130, R131), so
does every staging byte outside the OBUF words of channels below nout (R40, R41), and every other field is as
before but for INFLIGHT, which is none. What the OBUF words hold is OutputSamplesAreInterpolated and
UnpopulatedOutputsAreSilent. -/
def Obligations.InputBlockEndState : Prop :=
  ∀ (s t : State) (nin nout : BitVec 5), s.par.Legal → s.inflight = .process nin nout → nin.toNat ≠ 0 →
    s.engineStep = .next t →
    t = { s with
        ring := t.ring, wcur := (s.wcur + s.par.blk) % s.par.cap, roff := t.roff,
        pitch := if s.pend then s.pstage else s.pitch, active := max s.active nin.toNat, pend := false,
        inflight := .none, mem := t.mem }
      ∧ finalNormalize s.par (s.offsetAfter (min nout.toNat (max s.active nin.toNat) * s.par.blk)) = some t.roff
      ∧ (∀ c i, c < max s.active nin.toNat → i < s.par.blk →
          t.slot c ((s.wcur + i) % s.par.cap) = if c < nin.toNat then s.ibuf c i else 0x00000000#32)
      ∧ (∀ c j, j < s.par.cap →
          (max s.active nin.toNat ≤ c ∨ ∀ i, i < s.par.blk → j ≠ (s.wcur + i) % s.par.cap) →
          t.slot c j = s.slot c j)
      ∧ ∀ a, (∀ c i, c < nout.toNat → i < s.par.blk → a < obufAddr c i ∨ obufAddr c i + 4 ≤ a) →
          t.byte a = s.byte a

/-- The frame of the write path: a block with input leaves every ring slot that is not one of the N slots from
W of a populated channel (R130, R136). -/
def Obligations.InputBlockLeavesOtherSlots : Prop :=
  ∀ (s t : State) (nin nout : BitVec 5), s.par.Legal → s.inflight = .process nin nout → nin.toNat ≠ 0 →
    s.engineStep = .next t →
    ∀ c j, j < s.par.cap →
      (max s.active nin.toNat ≤ c ∨ ∀ i, i < s.par.blk → j ≠ (s.wcur + i) % s.par.cap) →
      t.slot c j = s.slot c j

/-- A PROCESS writes no staging byte outside the OBUF words of channels below nout: IBUF is not consumed and
higher output channels keep their words (R40, R41, R185). -/
def Obligations.ProcessWritesOnlyItsOutputWords : Prop :=
  ∀ (s t : State) (nin nout : BitVec 5), s.inflight = .process nin nout → s.engineStep = .next t →
    ∀ a, (∀ c i, c < nout.toNat → i < s.par.blk → a < obufAddr c i ∨ obufAddr c i + 4 ≤ a) →
      t.byte a = s.byte a

/-- Output channels with no populated buffer receive +0.0 in all N samples (R184). -/
def Obligations.UnpopulatedOutputsAreSilent : Prop :=
  ∀ (s t : State) (nin nout : BitVec 5), s.par.Legal → s.inflight = .process nin nout → nin.toNat ≠ 0 →
    s.engineStep = .next t →
    ∀ c i, max s.active nin.toNat ≤ c → c < nout.toNat → i < s.par.blk → t.obuf c i = 0x00000000#32

/-- Sample i of a read channel c is the interpolation of the two taps at the read position that the advanced
cursor and the read offset after c * N + i earlier reads of the block give: channels in increasing order share
one read offset (R150, R160, R183). -/
def Obligations.OutputSamplesAreInterpolated : Prop :=
  ∀ (s t : State) (nin nout : BitVec 5), s.par.Legal → s.inflight = .process nin nout → nin.toNat ≠ 0 →
    s.engineStep = .next t →
    ∀ c i, c < nout.toNat → c < max s.active nin.toNat → i < s.par.blk →
      ∃ (rp : Bits64) (k0 : Int),
        rp = readPos s.par t.wcur (s.offsetAfter (c * s.par.blk + i)) ∧ floor64 rp = some k0
          ∧ t.obuf c i = interpolate (t.slot c (wrap s.par k0)) (t.slot c (wrap s.par (k0 + 1))) (readFrac rp k0)

/-- A PROCESS with input that adopts or runs with a NaN or infinite pitch is refused (R145); a block with no
input neither adopts nor runs with it and completes (R146). R145 does not say when the refusal falls: that it
falls at the Engine's completion step, whatever NOUT, is the model's reading (log 8). -/
def Obligations.NonFinitePitchIsRefused : Prop :=
  ∀ (s : State) (nin nout : BitVec 5), s.inflight = .process nin nout → isFinite32 s.blockPitch = false →
    (nin.toNat ≠ 0 → s.engineStep = .refused .nonFinitePitch)
      ∧ (nin.toNat = 0 → ∃ t, s.engineStep = .next t ∧ t.pitch = s.pitch)

/-- The completion step cannot fail (R271): in every state of the invariant the Engine's step answers a next
state with nothing in flight, but for a block with input whose pitch is not finite (R145). -/
def Obligations.CompletionIsNeverBlocked : Prop :=
  ∀ s : State, Inv s →
    (∀ nin nout, s.inflight = .process nin nout → nin.toNat ≠ 0 → isFinite32 s.blockPitch = true) →
    ∃ t, s.engineStep = .next t ∧ t.inflight = .none

/-- PROCESS from idle to completion: the command is accepted, the Engine's turn completes it, and the end state
has the cursor, channel count and pitch of the rules (R110, R180, R181, R190, R270). The command arrives in
the CMD format; the BUS write of the same word acts alike by CmdWriteRunsDecodedCommand and
StepRunsDecodedInstruction. -/
def Obligations.ProcessRunsToCompletion : Prop :=
  ∀ (s : State) (rest : List Event) (nin nout : BitVec 5), Inv s → s.inflight = .none → s.rst = false →
    nin.toNat ≤ s.par.nch → nout.toNat ≤ s.par.nch → (nin.toNat ≠ 0 → isFinite32 s.blockPitch = true) →
    s.events = .host (.cmd (processWord nin nout)) :: .engine :: rest →
    ∃ t, step s = .next t ∧ t.busy = true
      ∧ ∃ u, step t = .next u ∧ u.events = rest ∧ u.inflight = .none ∧ u.pend = false
        ∧ (nin.toNat = 0 → SameEngineState s u)
        ∧ (nin.toNat ≠ 0 → u.wcur = (s.wcur + s.par.blk) % s.par.cap ∧ u.active = max s.active nin.toNat
            ∧ u.pitch = s.blockPitch)

/-- The end state of a block depends on its operands and inputs alone (R187): with any other OBUF contents, and
any other IBUF words of channels at or above nin, the engine state and the output words are the same. -/
def Obligations.BlockDependsOnItsInputsAlone : Prop :=
  ∀ (s t : State) (nin nout : BitVec 5) (mem : Memory) (epoch : Nat), s.par.Legal →
    s.inflight = .process nin nout →
    (∀ c i, c < nin.toNat → i < s.par.blk → { s with mem := mem, epoch := epoch }.ibuf c i = s.ibuf c i) →
    s.engineStep = .next t →
    ∃ t', { s with mem := mem, epoch := epoch }.engineStep = .next t' ∧ SameEngineState t t'
      ∧ t'.pend = t.pend ∧ t'.inflight = t.inflight
      ∧ ∀ c i, c < nout.toNat → i < s.par.blk → t'.obuf c i = t.obuf c i

/-! ## Arithmetic -/

/-- The conversions to binary64 are exact (R14): an integer of magnitude below 2^53 (0 giving +0.0), and every
binary32 value, zeros and infinities with their sign; a NaN stays a NaN. -/
def Obligations.ConversionsToBinary64AreExact : Prop :=
  (∀ k : Int, |k| < 2 ^ 53 → real64 (f64OfInt k) = some (k : Rat))
    ∧ f64OfInt 0 = zero64 false
    ∧ (∀ (w : Word) (v : Rat), real32 w = some v →
        real64 (f64OfF32 w) = some v ∧ (f64OfF32 w).getLsbD 63 = w.getLsbD 31)
    ∧ (∀ n : Bool, f64OfF32 (inf32 n) = inf64 n)
    ∧ ∀ w : Word, isNan32 w = true → isNan64 (f64OfF32 w) = true

/-- The sum, difference and product of binary64 values are the IEEE 754 ones (R14). Of finite operands: the exact
result rounded to nearest, ties to even, overflow going to the infinity of its sign; an exact zero sum or
difference is +0.0 unless both terms are -0.0, and a zero product has the sign the operands' signs give. With a NaN
operand the result is a NaN. With an infinite operand it is the infinity of IEEE 754, or a NaN for the difference
of equal infinities and the product of an infinity and a zero. -/
def Obligations.Binary64ArithmeticRoundsToNearestEven : Prop :=
  (∀ (a b : Bits64) (x y : Rat), real64 a = some x → real64 b = some y →
      RoundsTo64 (add64 a b) (x + y) ∧ RoundsTo64 (sub64 a b) (x - y) ∧ RoundsTo64 (mul64 a b) (x * y)
        ∧ (x + y = 0 → add64 a b = zero64 (a.getLsbD 63 && b.getLsbD 63))
        ∧ (x - y = 0 → sub64 a b = zero64 (a.getLsbD 63 && !b.getLsbD 63))
        ∧ (x * y = 0 → mul64 a b = zero64 (a.getLsbD 63 != b.getLsbD 63)))
    ∧ (∀ a b : Bits64, isNan64 a = true ∨ isNan64 b = true →
        isNan64 (add64 a b) = true ∧ isNan64 (sub64 a b) = true ∧ isNan64 (mul64 a b) = true)
    ∧ (∀ (n : Bool) (b : Bits64) (y : Rat), real64 b = some y →
        add64 (inf64 n) b = inf64 n ∧ add64 b (inf64 n) = inf64 n
          ∧ sub64 (inf64 n) b = inf64 n ∧ sub64 b (inf64 n) = inf64 (!n)
          ∧ (y ≠ 0 → mul64 (inf64 n) b = inf64 (n != b.getLsbD 63) ∧ mul64 b (inf64 n) = inf64 (n != b.getLsbD 63))
          ∧ (y = 0 → isNan64 (mul64 (inf64 n) b) = true ∧ isNan64 (mul64 b (inf64 n)) = true))
    ∧ ∀ n m : Bool,
        mul64 (inf64 n) (inf64 m) = inf64 (n != m)
          ∧ (n = m → add64 (inf64 n) (inf64 m) = inf64 n ∧ isNan64 (sub64 (inf64 n) (inf64 m)) = true)
          ∧ (n ≠ m → isNan64 (add64 (inf64 n) (inf64 m)) = true ∧ sub64 (inf64 n) (inf64 m) = inf64 n)

/-- The conversion to binary32 rounds to nearest, ties to even, and overflows to the infinity of its sign; a zero
and an infinity keep their sign, and a NaN becomes the pattern given for it (R14, R155). -/
def Obligations.ConversionToBinary32RoundsToNearestEven : Prop :=
  ∀ nan : Word,
    (∀ (a : Bits64) (x : Rat), real64 a = some x →
        RoundsTo32 (cvt32 nan a) x ∧ (x = 0 → cvt32 nan a = zero32 (a.getLsbD 63)))
      ∧ (∀ n : Bool, cvt32 nan (inf64 n) = inf32 n)
      ∧ ∀ a : Bits64, isNan64 a = true → cvt32 nan a = nan

/-- The floor and the comparison of finite binary64 values are those of their exact values; an infinity compares
beyond every finite value and not beyond itself, and every comparison with a NaN is false (R14). -/
def Obligations.FloorAndComparisonAreExact : Prop :=
  (∀ (a : Bits64) (x : Rat), real64 a = some x → floor64 a = some ⌊x⌋)
    ∧ (∀ (a b : Bits64) (x y : Rat), real64 a = some x → real64 b = some y → (gt64 a b = true ↔ y < x))
    ∧ (∀ (n : Bool) (b : Bits64) (y : Rat), real64 b = some y → gt64 (inf64 n) b = !n ∧ gt64 b (inf64 n) = n)
    ∧ (∀ n m : Bool, gt64 (inf64 n) (inf64 m) = (!n && m))
    ∧ ∀ a b : Bits64, isNan64 a = true ∨ isNan64 b = true → gt64 a b = false

/-- The remainder of finite x by finite y > 0 is exact, `x - y * trunc(x / y)`, below y in magnitude and with
the sign of x (R14). -/
def Obligations.RemainderIsExact : Prop :=
  ∀ (a b : Bits64) (x y : Rat), real64 a = some x → real64 b = some y → 0 < y →
    real64 (fmod64 a b) = some (x - y * truncRat (x / y))
      ∧ |x - y * truncRat (x / y)| < y
      ∧ (fmod64 a b).getLsbD 63 = a.getLsbD 63

/-- A binary32 word converted to binary64 and back is unchanged, infinities included, unless it is a NaN
(R14). -/
def Obligations.Binary32RoundTrip : Prop :=
  ∀ nan w : Word, isNan32 w = false → cvt32 nan (f64OfF32 w) = w

/-- At an integer read position (frac = +0.0) with finite taps the output is the slot word of s0, but for
s0 = -0.0, which gives +0.0 unless s1 is strictly negative (R165; for frac = +0.0, log 17). -/
def Obligations.IntegerPositionCopiesTheSlot : Prop :=
  ∀ (s0 s1 : Word) (x : Rat), isFinite32 s0 = true → real32 s1 = some x →
    (s0 ≠ 0x80000000#32 → interpolate s0 s1 0x0000000000000000#64 = s0)
      ∧ (s0 = 0x80000000#32 → x < 0 → interpolate s0 s1 0x0000000000000000#64 = 0x80000000#32)
      ∧ (s0 = 0x80000000#32 → 0 ≤ x → interpolate s0 s1 0x0000000000000000#64 = 0x00000000#32)

/-- When the output is a NaN (R163): exactly in the listed cases; the word is then `nanResult`, a NaN pattern
and nothing more. -/
def Obligations.NanOutputs : Prop :=
  ∀ (s0 s1 : Word) (frac : Bits64) (f : Rat), real64 frac = some f →
    ((isNan32 s0 = true ∨ isNan32 s1 = true
        ∨ (∃ n, value32 s0 = .inf n ∧ value32 s1 = .inf n)
        ∨ (f = 0 ∧ ∃ n, value64 (sub64 (f64OfF32 s1) (f64OfF32 s0)) = .inf n)
        ∨ (∃ n, value32 s0 = .inf n
            ∧ value64 (mul64 frac (sub64 (f64OfF32 s1) (f64OfF32 s0))) = .inf (!n)))
      ↔ isNan32 (interpolate s0 s1 frac) = true)
    ∧ (isNan32 (interpolate s0 s1 frac) = true → interpolate s0 s1 frac = nanResult s0 s1 frac)

/-- The difference of two binary32 taps never overflows; a finite s0 with s1 = +infinity gives +infinity for
frac > 0 and a NaN for frac = 0 (R164). -/
def Obligations.TapDifferenceNeverOverflows : Prop :=
  ∀ s0 s1 : Word, isFinite32 s0 = true →
    (isFinite32 s1 = true → isFinite64 (sub64 (f64OfF32 s1) (f64OfF32 s0)) = true)
      ∧ ∀ (frac : Bits64) (f : Rat), real64 frac = some f →
          (0 < f → interpolate s0 0x7F800000#32 frac = 0x7F800000#32)
            ∧ (f = 0 → isNan32 (interpolate s0 0x7F800000#32 frac) = true)

/-- One advance of the read offset under in-range pitch (R156, R157, R170, R171): the sum is exact, C is
subtracted once exactly when it exceeds C - 1, and the offset stays in (-1, C-1] on multiples of 2^-24. -/
def Obligations.InRangeAdvanceIsExactAndBounded : Prop :=
  ∀ (p : Params) (pitch : Word) (r : Bits64) (x v : Rat), p.Legal → OffsetInRange p r → PitchInRange pitch →
    real64 r = some x → real32 pitch = some v →
    OffsetInRange p (advance p pitch r)
      ∧ real64 (advance p pitch r) = some (if (p.cap : Rat) - 1 < x + v then x + v - p.cap else x + v)

/-- Steps 1 and 2 of READ_SAMPLE under in-range pitch (R151, R152, R171): the read position is exactly W + R,
less C once exactly when W + R is C or more (the truncated remainder), its floor k0 is in [-1, C-1], and the
fraction is an exact multiple of 2^-24 in [0, 1). -/
def Obligations.InRangeReadPositionIsExact : Prop :=
  ∀ (p : Params) (w : Nat) (r : Bits64) (x : Rat), p.Legal → w < p.cap → OffsetInRange p r → real64 r = some x →
    ∃ k0 j q : Int,
      floor64 (readPos p w r) = some k0 ∧ -1 ≤ k0 ∧ k0 ≤ (p.cap : Int) - 1
        ∧ real64 (readFrac (readPos p w r) k0) = some ((j : Rat) / 2 ^ 24) ∧ 0 ≤ j ∧ j < 2 ^ 24
        ∧ (q = 0 ∨ q = 1) ∧ (q = 1 ↔ (p.cap : Rat) ≤ w + x)
        ∧ real64 (readPos p w r) = some (w + x - q * p.cap)
        ∧ (w : Rat) + x - q * p.cap = k0 + (j : Rat) / 2 ^ 24

/-- FINAL_NORMALIZE of a finite R (R158): the truncated remainder by C, of magnitude below C and the sign of R;
R itself when its magnitude is below C already. -/
def Obligations.FinalNormalizeBoundsTheOffset : Prop :=
  ∀ (p : Params) (r : Bits64) (x : Rat), p.Legal → real64 r = some x →
    ∃ r', finalNormalize p r = some r'
      ∧ real64 r' = some (x - p.cap * truncRat (x / p.cap)) ∧ |x - p.cap * truncRat (x / p.cap)| < p.cap
      ∧ r'.getLsbD 63 = r.getLsbD 63
      ∧ (|x| < p.cap → r' = r)

/-- Bounded drift (R170): under in-range pitch a block with input always completes and leaves the read offset
in (-1, C-1] and the pitch in range. -/
def Obligations.InRangePitchKeepsOffsetBounded : Prop :=
  ∀ (s : State) (nin nout : BitVec 5), s.par.Legal → s.wcur < s.par.cap →
    s.inflight = .process nin nout → nin.toNat ≠ 0 → OffsetInRange s.par s.roff → PitchInRange s.blockPitch →
    ∃ t, s.engineStep = .next t ∧ OffsetInRange s.par t.roff ∧ PitchInRange t.pitch
end

