-- ==== Sys2Proof/Laws/Memory.lean ====
section
/-! SUPPORT. Laws of stored bytes: a read after a write, the frame of a write, and the canonical form, which every
operation keeps. -/

namespace Sys2Proof.Machine

/-! ## Bytes -/

theorem Memory.find_setByte (m : Memory) (a b : Nat) (v : Byte) :
    (m.setByte a v).find b = if a = b then some v else m.find b := by
  induction m with
  | nil => simp [Memory.setByte, Memory.find]
  | cons x m ih =>
    unfold Memory.setByte
    split_ifs <;> simp_all [Memory.find]
    grind

theorem Memory.find_clearByte (m : Memory) (a b : Nat) :
    (m.clearByte a).find b = if a = b then none else m.find b := by
  unfold Memory.clearByte
  induction m with
  | nil => simp [Memory.find]
  | cons x m ih =>
    rw [List.filter_cons]
    split_ifs <;> simp_all [Memory.find]

/-- What a byte reads as, unlisted bytes included, after a store with the fixed byte `d`. -/
theorem Memory.find_put_some (u : Byte) (m : Memory) (a b : Nat) (v : Byte) :
    ((m.put (some u) a v).find b).getD u = if a = b then v else (m.find b).getD u := by
  unfold Memory.put
  split_ifs <;> simp_all [Memory.find_setByte, Memory.find_clearByte]

theorem Memory.find_put_none (m : Memory) (a b : Nat) (v : Byte) :
    (m.put none a v).find b = if a = b then some v else m.find b := by
  simp [Memory.put, Memory.find_setByte]

/-! ## The canonical form -/

theorem Memory.mem_setByte {m : Memory} {a : Nat} {v : Byte} {x : Host.Cell} (h : x ∈ m.setByte a v) :
    x = (a, v) ∨ x ∈ m := by
  induction m with
  | nil => simpa [Memory.setByte] using h
  | cons y m ih =>
    unfold Memory.setByte at h
    split_ifs at h <;> simp_all <;> tauto

theorem Memory.mem_put {d : Option Byte} {m : Memory} {a : Nat} {v : Byte} {x : Host.Cell}
    (h : x ∈ m.put d a v) : x = (a, v) ∨ x ∈ m := by
  unfold Memory.put at h
  split_ifs at h
  · exact .inr (List.mem_of_mem_filter h)
  · exact Memory.mem_setByte h

theorem Memory.mem_putWord {d : Option Byte} {m : Memory} {a : Nat} {w : Word} {x : Host.Cell}
    (h : x ∈ m.putWord d a w) : (a ≤ x.1 ∧ x.1 < a + 4) ∨ x ∈ m := by
  unfold Memory.putWord at h
  rcases Memory.mem_put h with rfl | h
  · exact .inl (by simp)
  rcases Memory.mem_put h with rfl | h
  · exact .inl (by simp)
  rcases Memory.mem_put h with rfl | h
  · exact .inl (by simp)
  rcases Memory.mem_put h with rfl | h
  · exact .inl (by simp)
  exact .inr h

theorem Memory.rising_setByte {m : Memory} (h : m.Pairwise (fun x y => x.1 < y.1)) (a : Nat) (v : Byte) :
    (m.setByte a v).Pairwise (fun x y => x.1 < y.1) := by
  induction m with
  | nil => simp [Memory.setByte]
  | cons y m ih =>
    rw [List.pairwise_cons] at h
    unfold Memory.setByte
    split_ifs with h1 h2
    · rw [List.pairwise_cons, List.pairwise_cons]
      refine ⟨fun z hz => ?_, h⟩
      rcases List.mem_cons.1 hz with rfl | hz
      · exact h1
      · exact h1.trans (h.1 z hz)
    · rw [List.pairwise_cons]
      exact ⟨fun z hz => h2 ▸ h.1 z hz, h.2⟩
    · rw [List.pairwise_cons]
      refine ⟨fun z hz => ?_, ih h.2⟩
      rcases Memory.mem_setByte hz with rfl | hz
      · simp only; omega
      · exact h.1 z hz

theorem Memory.wf_put {d : Option Byte} {m : Memory} (h : m.wf d) (a : Nat) (v : Byte) :
    (m.put d a v).wf d := by
  refine ⟨?_, fun x hx => ?_⟩
  · unfold Memory.put
    split_ifs
    · exact h.1.filter _
    · exact Memory.rising_setByte h.1 a v
  · unfold Memory.put at hx
    split_ifs at hx with hd
    · exact h.2 x (List.mem_of_mem_filter hx)
    · rcases Memory.mem_setByte hx with rfl | hx
      · exact hd
      · exact h.2 x hx

/-- Storing a word keeps the canonical form. -/
theorem Memory.wf_putWord {d : Option Byte} {m : Memory} (h : m.wf d) (a : Nat) (w : Word) :
    (m.putWord d a w).wf d :=
  Memory.wf_put (Memory.wf_put (Memory.wf_put (Memory.wf_put h _ _) _ _) _ _) _ _

/-! ## Words -/

theorem joinLanes_lane (w : Word) : joinLanes (lane w 0) (lane w 1) (lane w 2) (lane w 3) = w := by
  unfold joinLanes lane
  apply BitVec.eq_of_getLsbD_eq
  intro i hi
  simp only [BitVec.getLsbD_append, BitVec.getLsbD_extractLsb']
  interval_cases i <;> simp

/-- One byte of RING after a slot's word is stored. -/
theorem ringByte_putWord (m : Memory) (a b : Nat) (w : Word) :
    ringByte (m.putWord (some ringUnlisted) a w) b
      = if a ≤ b ∧ b < a + 4 then lane w (b - a) else ringByte m b := by
  unfold ringByte Memory.putWord
  simp only [Memory.find_put_some]
  split_ifs <;> (try omega) <;> (try rfl) <;> (congr 1; omega)

/-- One byte of the staging windows after a word is stored. -/
theorem memByte_memWrite (e : Nat) (m : Memory) (a b : Nat) (w : Word) :
    memByte e (memWrite m a w) b = if a ≤ b ∧ b < a + 4 then lane w (b - a) else memByte e m b := by
  unfold memByte memWrite Memory.putWord
  simp only [Memory.find_put_none]
  split_ifs <;> (try omega) <;> (try rfl) <;> simp only [Option.getD_some] <;> (congr 1; omega)

theorem wordAt_eq_of {f g : Nat → Byte} {a : Nat} (h : ∀ k, k < 4 → f (a + k) = g (a + k)) :
    wordAt f a = wordAt g a := by
  have h0 := h 0 (by omega); have h1 := h 1 (by omega); have h2 := h 2 (by omega); have h3 := h 3 (by omega)
  simp only [Nat.add_zero] at h0
  unfold wordAt
  rw [h0, h1, h2, h3]

/-- Read after write, and the frame of a write, at word addresses that are equal or do not overlap. -/
theorem memRead_memWrite (e : Nat) (m : Memory) (a b : Nat) (w : Word) (h : a = b ∨ a + 4 ≤ b ∨ b + 4 ≤ a) :
    memRead e (memWrite m a w) b = if a = b then w else memRead e m b := by
  unfold memRead
  rcases h with rfl | h
  · rw [if_pos rfl]
    unfold wordAt
    simp only [memByte_memWrite]
    simp [joinLanes_lane]
  · rw [if_neg (by omega)]
    apply wordAt_eq_of
    intro k hk
    rw [memByte_memWrite, if_neg (by omega)]

theorem wordAt_ringByte_putWord (m : Memory) (a b : Nat) (w : Word) (h : a = b ∨ a + 4 ≤ b ∨ b + 4 ≤ a) :
    wordAt (ringByte (m.putWord (some ringUnlisted) a w)) b = if a = b then w else wordAt (ringByte m) b := by
  rcases h with rfl | h
  · rw [if_pos rfl]
    unfold wordAt
    simp only [ringByte_putWord]
    simp [joinLanes_lane]
  · rw [if_neg (by omega)]
    apply wordAt_eq_of
    intro k hk
    rw [ringByte_putWord, if_neg (by omega)]

/-- Two slots of the ring have the same first byte exactly when they are the same slot (R64). -/
theorem ringAddr_eq_iff {p : Params} {c j c' j' : Nat} (hj : j < p.cap) (hj' : j' < p.cap) :
    ringAddr p c j = ringAddr p c' j' ↔ c = c' ∧ j = j' := by
  unfold ringAddr
  refine ⟨fun h => ?_, fun h => by rw [h.1, h.2]⟩
  have h1 : c * p.cap + j = c' * p.cap + j' := by omega
  have hp : 0 < p.cap := by omega
  have hc : (j + p.cap * c) / p.cap = (j' + p.cap * c') / p.cap := by
    rw [Nat.mul_comm p.cap c, Nat.mul_comm p.cap c', Nat.add_comm j, Nat.add_comm j', h1]
  rw [Nat.add_mul_div_left _ _ hp, Nat.add_mul_div_left _ _ hp, Nat.div_eq_of_lt hj, Nat.div_eq_of_lt hj'] at hc
  have hc' : c = c' := by omega
  subst hc'
  exact ⟨rfl, by omega⟩

/-- Read after write, and the frame of a write, at slots of the ring (R35, R64). -/
theorem ringRead_ringWrite {p : Params} (m : Memory) {c j c' j' : Nat} (w : Word) (hj : j < p.cap)
    (hj' : j' < p.cap) :
    ringRead p (ringWrite p m c j w) c' j' = if c = c' ∧ j = j' then w else ringRead p m c' j' := by
  unfold ringRead ringWrite
  rw [wordAt_ringByte_putWord]
  · simp only [ringAddr_eq_iff hj hj']
  · have := ringAddr_eq_iff (p := p) (c := c) (c' := c') hj hj'
    unfold ringAddr at *
    omega

/-! ## Window addresses -/

theorem ibufAddr_inj {c i c' i' : Nat} (hi : i < 1024) (hi' : i' < 1024) :
    ibufAddr c i = ibufAddr c' i' ↔ c = c' ∧ i = i' := by
  unfold ibufAddr; omega

theorem obufAddr_inj {c i c' i' : Nat} (hi : i < 1024) (hi' : i' < 1024) :
    obufAddr c i = obufAddr c' i' ↔ c = c' ∧ i = i' := by
  unfold obufAddr; omega

end Sys2Proof.Machine
end

