-- ==== Sys2Proof/Laws/State.lean ====
section
/-! SUPPORT. One lemma per field per named update of State, true by rfl. -/

namespace Sys2Proof.Machine

/-! ## setErrCmd -/

@[simp] theorem State.setErrCmd_par (s : State) : (s.setErrCmd).par = s.par := rfl
@[simp] theorem State.setErrCmd_ring (s : State) : (s.setErrCmd).ring = s.ring := rfl
@[simp] theorem State.setErrCmd_wcur (s : State) : (s.setErrCmd).wcur = s.wcur := rfl
@[simp] theorem State.setErrCmd_roff (s : State) : (s.setErrCmd).roff = s.roff := rfl
@[simp] theorem State.setErrCmd_pitch (s : State) : (s.setErrCmd).pitch = s.pitch := rfl
@[simp] theorem State.setErrCmd_active (s : State) : (s.setErrCmd).active = s.active := rfl
@[simp] theorem State.setErrCmd_pstage (s : State) : (s.setErrCmd).pstage = s.pstage := rfl
@[simp] theorem State.setErrCmd_pend (s : State) : (s.setErrCmd).pend = s.pend := rfl
@[simp] theorem State.setErrCmd_inflight (s : State) : (s.setErrCmd).inflight = s.inflight := rfl
@[simp] theorem State.setErrCmd_errCmd (s : State) : (s.setErrCmd).errCmd = true := rfl
@[simp] theorem State.setErrCmd_errBusy (s : State) : (s.setErrCmd).errBusy = s.errBusy := rfl
@[simp] theorem State.setErrCmd_mem (s : State) : (s.setErrCmd).mem = s.mem := rfl
@[simp] theorem State.setErrCmd_rst (s : State) : (s.setErrCmd).rst = s.rst := rfl
@[simp] theorem State.setErrCmd_events (s : State) : (s.setErrCmd).events = s.events := rfl
@[simp] theorem State.setErrCmd_reads (s : State) : (s.setErrCmd).reads = s.reads := rfl
@[simp] theorem State.setErrCmd_draws (s : State) : (s.setErrCmd).draws = s.draws := rfl
@[simp] theorem State.setErrCmd_epoch (s : State) : (s.setErrCmd).epoch = s.epoch := rfl

/-! ## setErrBusy -/

@[simp] theorem State.setErrBusy_par (s : State) : (s.setErrBusy).par = s.par := rfl
@[simp] theorem State.setErrBusy_ring (s : State) : (s.setErrBusy).ring = s.ring := rfl
@[simp] theorem State.setErrBusy_wcur (s : State) : (s.setErrBusy).wcur = s.wcur := rfl
@[simp] theorem State.setErrBusy_roff (s : State) : (s.setErrBusy).roff = s.roff := rfl
@[simp] theorem State.setErrBusy_pitch (s : State) : (s.setErrBusy).pitch = s.pitch := rfl
@[simp] theorem State.setErrBusy_active (s : State) : (s.setErrBusy).active = s.active := rfl
@[simp] theorem State.setErrBusy_pstage (s : State) : (s.setErrBusy).pstage = s.pstage := rfl
@[simp] theorem State.setErrBusy_pend (s : State) : (s.setErrBusy).pend = s.pend := rfl
@[simp] theorem State.setErrBusy_inflight (s : State) : (s.setErrBusy).inflight = s.inflight := rfl
@[simp] theorem State.setErrBusy_errCmd (s : State) : (s.setErrBusy).errCmd = s.errCmd := rfl
@[simp] theorem State.setErrBusy_errBusy (s : State) : (s.setErrBusy).errBusy = true := rfl
@[simp] theorem State.setErrBusy_mem (s : State) : (s.setErrBusy).mem = s.mem := rfl
@[simp] theorem State.setErrBusy_rst (s : State) : (s.setErrBusy).rst = s.rst := rfl
@[simp] theorem State.setErrBusy_events (s : State) : (s.setErrBusy).events = s.events := rfl
@[simp] theorem State.setErrBusy_reads (s : State) : (s.setErrBusy).reads = s.reads := rfl
@[simp] theorem State.setErrBusy_draws (s : State) : (s.setErrBusy).draws = s.draws := rfl
@[simp] theorem State.setErrBusy_epoch (s : State) : (s.setErrBusy).epoch = s.epoch := rfl

/-! ## clearErrors -/

@[simp] theorem State.clearErrors_par (s : State) (v : Word) : (s.clearErrors v).par = s.par := rfl
@[simp] theorem State.clearErrors_ring (s : State) (v : Word) : (s.clearErrors v).ring = s.ring := rfl
@[simp] theorem State.clearErrors_wcur (s : State) (v : Word) : (s.clearErrors v).wcur = s.wcur := rfl
@[simp] theorem State.clearErrors_roff (s : State) (v : Word) : (s.clearErrors v).roff = s.roff := rfl
@[simp] theorem State.clearErrors_pitch (s : State) (v : Word) : (s.clearErrors v).pitch = s.pitch := rfl
@[simp] theorem State.clearErrors_active (s : State) (v : Word) : (s.clearErrors v).active = s.active := rfl
@[simp] theorem State.clearErrors_pstage (s : State) (v : Word) : (s.clearErrors v).pstage = s.pstage := rfl
@[simp] theorem State.clearErrors_pend (s : State) (v : Word) : (s.clearErrors v).pend = s.pend := rfl
@[simp] theorem State.clearErrors_inflight (s : State) (v : Word) : (s.clearErrors v).inflight = s.inflight := rfl
@[simp] theorem State.clearErrors_errCmd (s : State) (v : Word) :
    (s.clearErrors v).errCmd = (s.errCmd && !v.getLsbD 1) := rfl
@[simp] theorem State.clearErrors_errBusy (s : State) (v : Word) :
    (s.clearErrors v).errBusy = (s.errBusy && !v.getLsbD 2) := rfl
@[simp] theorem State.clearErrors_mem (s : State) (v : Word) : (s.clearErrors v).mem = s.mem := rfl
@[simp] theorem State.clearErrors_rst (s : State) (v : Word) : (s.clearErrors v).rst = s.rst := rfl
@[simp] theorem State.clearErrors_events (s : State) (v : Word) : (s.clearErrors v).events = s.events := rfl
@[simp] theorem State.clearErrors_reads (s : State) (v : Word) : (s.clearErrors v).reads = s.reads := rfl
@[simp] theorem State.clearErrors_draws (s : State) (v : Word) : (s.clearErrors v).draws = s.draws := rfl
@[simp] theorem State.clearErrors_epoch (s : State) (v : Word) : (s.clearErrors v).epoch = s.epoch := rfl

/-! ## writeIbuf -/

@[simp] theorem State.writeIbuf_par (s : State) (c i : Nat) (v : Word) : (s.writeIbuf c i v).par = s.par := rfl
@[simp] theorem State.writeIbuf_ring (s : State) (c i : Nat) (v : Word) : (s.writeIbuf c i v).ring = s.ring := rfl
@[simp] theorem State.writeIbuf_wcur (s : State) (c i : Nat) (v : Word) : (s.writeIbuf c i v).wcur = s.wcur := rfl
@[simp] theorem State.writeIbuf_roff (s : State) (c i : Nat) (v : Word) : (s.writeIbuf c i v).roff = s.roff := rfl
@[simp] theorem State.writeIbuf_pitch (s : State) (c i : Nat) (v : Word) : (s.writeIbuf c i v).pitch = s.pitch := rfl
@[simp] theorem State.writeIbuf_active (s : State) (c i : Nat) (v : Word) :
    (s.writeIbuf c i v).active = s.active := rfl
@[simp] theorem State.writeIbuf_pstage (s : State) (c i : Nat) (v : Word) :
    (s.writeIbuf c i v).pstage = s.pstage := rfl
@[simp] theorem State.writeIbuf_pend (s : State) (c i : Nat) (v : Word) : (s.writeIbuf c i v).pend = s.pend := rfl
@[simp] theorem State.writeIbuf_inflight (s : State) (c i : Nat) (v : Word) :
    (s.writeIbuf c i v).inflight = s.inflight := rfl
@[simp] theorem State.writeIbuf_errCmd (s : State) (c i : Nat) (v : Word) :
    (s.writeIbuf c i v).errCmd = s.errCmd := rfl
@[simp] theorem State.writeIbuf_errBusy (s : State) (c i : Nat) (v : Word) :
    (s.writeIbuf c i v).errBusy = s.errBusy := rfl
@[simp] theorem State.writeIbuf_mem (s : State) (c i : Nat) (v : Word) :
    (s.writeIbuf c i v).mem = memWrite s.mem (ibufAddr c i) v := rfl
@[simp] theorem State.writeIbuf_rst (s : State) (c i : Nat) (v : Word) : (s.writeIbuf c i v).rst = s.rst := rfl
@[simp] theorem State.writeIbuf_events (s : State) (c i : Nat) (v : Word) :
    (s.writeIbuf c i v).events = s.events := rfl
@[simp] theorem State.writeIbuf_reads (s : State) (c i : Nat) (v : Word) : (s.writeIbuf c i v).reads = s.reads := rfl
@[simp] theorem State.writeIbuf_draws (s : State) (c i : Nat) (v : Word) : (s.writeIbuf c i v).draws = s.draws := rfl
@[simp] theorem State.writeIbuf_epoch (s : State) (c i : Nat) (v : Word) : (s.writeIbuf c i v).epoch = s.epoch := rfl

/-! ## stagePitch -/

@[simp] theorem State.stagePitch_par (s : State) (v : Word) : (s.stagePitch v).par = s.par := rfl
@[simp] theorem State.stagePitch_ring (s : State) (v : Word) : (s.stagePitch v).ring = s.ring := rfl
@[simp] theorem State.stagePitch_wcur (s : State) (v : Word) : (s.stagePitch v).wcur = s.wcur := rfl
@[simp] theorem State.stagePitch_roff (s : State) (v : Word) : (s.stagePitch v).roff = s.roff := rfl
@[simp] theorem State.stagePitch_pitch (s : State) (v : Word) : (s.stagePitch v).pitch = s.pitch := rfl
@[simp] theorem State.stagePitch_active (s : State) (v : Word) : (s.stagePitch v).active = s.active := rfl
@[simp] theorem State.stagePitch_pstage (s : State) (v : Word) : (s.stagePitch v).pstage = v := rfl
@[simp] theorem State.stagePitch_pend (s : State) (v : Word) : (s.stagePitch v).pend = true := rfl
@[simp] theorem State.stagePitch_inflight (s : State) (v : Word) : (s.stagePitch v).inflight = s.inflight := rfl
@[simp] theorem State.stagePitch_errCmd (s : State) (v : Word) : (s.stagePitch v).errCmd = s.errCmd := rfl
@[simp] theorem State.stagePitch_errBusy (s : State) (v : Word) : (s.stagePitch v).errBusy = s.errBusy := rfl
@[simp] theorem State.stagePitch_mem (s : State) (v : Word) : (s.stagePitch v).mem = s.mem := rfl
@[simp] theorem State.stagePitch_rst (s : State) (v : Word) : (s.stagePitch v).rst = s.rst := rfl
@[simp] theorem State.stagePitch_events (s : State) (v : Word) : (s.stagePitch v).events = s.events := rfl
@[simp] theorem State.stagePitch_reads (s : State) (v : Word) : (s.stagePitch v).reads = s.reads := rfl
@[simp] theorem State.stagePitch_draws (s : State) (v : Word) : (s.stagePitch v).draws = s.draws := rfl
@[simp] theorem State.stagePitch_epoch (s : State) (v : Word) : (s.stagePitch v).epoch = s.epoch := rfl

/-! ## accept -/

@[simp] theorem State.accept_par (s : State) (f : InFlight) : (s.accept f).par = s.par := rfl
@[simp] theorem State.accept_ring (s : State) (f : InFlight) : (s.accept f).ring = s.ring := rfl
@[simp] theorem State.accept_wcur (s : State) (f : InFlight) : (s.accept f).wcur = s.wcur := rfl
@[simp] theorem State.accept_roff (s : State) (f : InFlight) : (s.accept f).roff = s.roff := rfl
@[simp] theorem State.accept_pitch (s : State) (f : InFlight) : (s.accept f).pitch = s.pitch := rfl
@[simp] theorem State.accept_active (s : State) (f : InFlight) : (s.accept f).active = s.active := rfl
@[simp] theorem State.accept_pstage (s : State) (f : InFlight) : (s.accept f).pstage = s.pstage := rfl
@[simp] theorem State.accept_pend (s : State) (f : InFlight) : (s.accept f).pend = s.pend := rfl
@[simp] theorem State.accept_inflight (s : State) (f : InFlight) : (s.accept f).inflight = f := rfl
@[simp] theorem State.accept_errCmd (s : State) (f : InFlight) : (s.accept f).errCmd = s.errCmd := rfl
@[simp] theorem State.accept_errBusy (s : State) (f : InFlight) : (s.accept f).errBusy = s.errBusy := rfl
@[simp] theorem State.accept_mem (s : State) (f : InFlight) : (s.accept f).mem = s.mem := rfl
@[simp] theorem State.accept_rst (s : State) (f : InFlight) : (s.accept f).rst = s.rst := rfl
@[simp] theorem State.accept_events (s : State) (f : InFlight) : (s.accept f).events = s.events := rfl
@[simp] theorem State.accept_reads (s : State) (f : InFlight) : (s.accept f).reads = s.reads := rfl
@[simp] theorem State.accept_draws (s : State) (f : InFlight) : (s.accept f).draws = s.draws := rfl
@[simp] theorem State.accept_epoch (s : State) (f : InFlight) : (s.accept f).epoch = s.epoch := rfl

/-! ## returnWord -/

@[simp] theorem State.returnWord_par (s : State) (v : Word) : (s.returnWord v).par = s.par := rfl
@[simp] theorem State.returnWord_ring (s : State) (v : Word) : (s.returnWord v).ring = s.ring := rfl
@[simp] theorem State.returnWord_wcur (s : State) (v : Word) : (s.returnWord v).wcur = s.wcur := rfl
@[simp] theorem State.returnWord_roff (s : State) (v : Word) : (s.returnWord v).roff = s.roff := rfl
@[simp] theorem State.returnWord_pitch (s : State) (v : Word) : (s.returnWord v).pitch = s.pitch := rfl
@[simp] theorem State.returnWord_active (s : State) (v : Word) : (s.returnWord v).active = s.active := rfl
@[simp] theorem State.returnWord_pstage (s : State) (v : Word) : (s.returnWord v).pstage = s.pstage := rfl
@[simp] theorem State.returnWord_pend (s : State) (v : Word) : (s.returnWord v).pend = s.pend := rfl
@[simp] theorem State.returnWord_inflight (s : State) (v : Word) : (s.returnWord v).inflight = s.inflight := rfl
@[simp] theorem State.returnWord_errCmd (s : State) (v : Word) : (s.returnWord v).errCmd = s.errCmd := rfl
@[simp] theorem State.returnWord_errBusy (s : State) (v : Word) : (s.returnWord v).errBusy = s.errBusy := rfl
@[simp] theorem State.returnWord_mem (s : State) (v : Word) : (s.returnWord v).mem = s.mem := rfl
@[simp] theorem State.returnWord_rst (s : State) (v : Word) : (s.returnWord v).rst = s.rst := rfl
@[simp] theorem State.returnWord_events (s : State) (v : Word) : (s.returnWord v).events = s.events := rfl
@[simp] theorem State.returnWord_reads (s : State) (v : Word) : (s.returnWord v).reads = v :: s.reads := rfl
@[simp] theorem State.returnWord_draws (s : State) (v : Word) : (s.returnWord v).draws = s.draws := rfl
@[simp] theorem State.returnWord_epoch (s : State) (v : Word) : (s.returnWord v).epoch = s.epoch := rfl

/-! ## returnAny -/

@[simp] theorem State.returnAny_par (s : State) : (s.returnAny).par = s.par := rfl
@[simp] theorem State.returnAny_ring (s : State) : (s.returnAny).ring = s.ring := rfl
@[simp] theorem State.returnAny_wcur (s : State) : (s.returnAny).wcur = s.wcur := rfl
@[simp] theorem State.returnAny_roff (s : State) : (s.returnAny).roff = s.roff := rfl
@[simp] theorem State.returnAny_pitch (s : State) : (s.returnAny).pitch = s.pitch := rfl
@[simp] theorem State.returnAny_active (s : State) : (s.returnAny).active = s.active := rfl
@[simp] theorem State.returnAny_pstage (s : State) : (s.returnAny).pstage = s.pstage := rfl
@[simp] theorem State.returnAny_pend (s : State) : (s.returnAny).pend = s.pend := rfl
@[simp] theorem State.returnAny_inflight (s : State) : (s.returnAny).inflight = s.inflight := rfl
@[simp] theorem State.returnAny_errCmd (s : State) : (s.returnAny).errCmd = s.errCmd := rfl
@[simp] theorem State.returnAny_errBusy (s : State) : (s.returnAny).errBusy = s.errBusy := rfl
@[simp] theorem State.returnAny_mem (s : State) : (s.returnAny).mem = s.mem := rfl
@[simp] theorem State.returnAny_rst (s : State) : (s.returnAny).rst = s.rst := rfl
@[simp] theorem State.returnAny_events (s : State) : (s.returnAny).events = s.events := rfl
@[simp] theorem State.returnAny_reads (s : State) : (s.returnAny).reads = Config.busyRead s.draws :: s.reads := rfl
@[simp] theorem State.returnAny_draws (s : State) : (s.returnAny).draws = s.draws + 1 := rfl
@[simp] theorem State.returnAny_epoch (s : State) : (s.returnAny).epoch = s.epoch := rfl

/-! ## completeClear -/

@[simp] theorem State.completeClear_par (s : State) : (s.completeClear).par = s.par := rfl
@[simp] theorem State.completeClear_ring (s : State) : (s.completeClear).ring = [] := rfl
@[simp] theorem State.completeClear_wcur (s : State) : (s.completeClear).wcur = 0 := rfl
@[simp] theorem State.completeClear_roff (s : State) : (s.completeClear).roff = 0x0000000000000000#64 := rfl
@[simp] theorem State.completeClear_pitch (s : State) : (s.completeClear).pitch = 0x3F800000#32 := rfl
@[simp] theorem State.completeClear_active (s : State) : (s.completeClear).active = 0 := rfl
@[simp] theorem State.completeClear_pstage (s : State) : (s.completeClear).pstage = s.pstage := rfl
@[simp] theorem State.completeClear_pend (s : State) : (s.completeClear).pend = false := rfl
@[simp] theorem State.completeClear_inflight (s : State) : (s.completeClear).inflight = .none := rfl
@[simp] theorem State.completeClear_errCmd (s : State) : (s.completeClear).errCmd = s.errCmd := rfl
@[simp] theorem State.completeClear_errBusy (s : State) : (s.completeClear).errBusy = s.errBusy := rfl
@[simp] theorem State.completeClear_mem (s : State) : (s.completeClear).mem = s.mem := rfl
@[simp] theorem State.completeClear_rst (s : State) : (s.completeClear).rst = s.rst := rfl
@[simp] theorem State.completeClear_events (s : State) : (s.completeClear).events = s.events := rfl
@[simp] theorem State.completeClear_reads (s : State) : (s.completeClear).reads = s.reads := rfl
@[simp] theorem State.completeClear_draws (s : State) : (s.completeClear).draws = s.draws := rfl
@[simp] theorem State.completeClear_epoch (s : State) : (s.completeClear).epoch = s.epoch := rfl

/-! ## writeBlock -/

@[simp] theorem State.writeBlock_par (s : State) (nin : Nat) : (s.writeBlock nin).par = s.par := rfl
@[simp] theorem State.writeBlock_ring (s : State) (nin : Nat) :
    (s.writeBlock nin).ring = s.writeChannels nin s.active s.ring := rfl
@[simp] theorem State.writeBlock_wcur (s : State) (nin : Nat) :
    (s.writeBlock nin).wcur = writeSlot s.par s.wcur s.par.blk := rfl
@[simp] theorem State.writeBlock_roff (s : State) (nin : Nat) : (s.writeBlock nin).roff = s.roff := rfl
@[simp] theorem State.writeBlock_pitch (s : State) (nin : Nat) : (s.writeBlock nin).pitch = s.pitch := rfl
@[simp] theorem State.writeBlock_active (s : State) (nin : Nat) : (s.writeBlock nin).active = s.active := rfl
@[simp] theorem State.writeBlock_pstage (s : State) (nin : Nat) : (s.writeBlock nin).pstage = s.pstage := rfl
@[simp] theorem State.writeBlock_pend (s : State) (nin : Nat) : (s.writeBlock nin).pend = s.pend := rfl
@[simp] theorem State.writeBlock_inflight (s : State) (nin : Nat) : (s.writeBlock nin).inflight = s.inflight := rfl
@[simp] theorem State.writeBlock_errCmd (s : State) (nin : Nat) : (s.writeBlock nin).errCmd = s.errCmd := rfl
@[simp] theorem State.writeBlock_errBusy (s : State) (nin : Nat) : (s.writeBlock nin).errBusy = s.errBusy := rfl
@[simp] theorem State.writeBlock_mem (s : State) (nin : Nat) : (s.writeBlock nin).mem = s.mem := rfl
@[simp] theorem State.writeBlock_rst (s : State) (nin : Nat) : (s.writeBlock nin).rst = s.rst := rfl
@[simp] theorem State.writeBlock_events (s : State) (nin : Nat) : (s.writeBlock nin).events = s.events := rfl
@[simp] theorem State.writeBlock_reads (s : State) (nin : Nat) : (s.writeBlock nin).reads = s.reads := rfl
@[simp] theorem State.writeBlock_draws (s : State) (nin : Nat) : (s.writeBlock nin).draws = s.draws := rfl
@[simp] theorem State.writeBlock_epoch (s : State) (nin : Nat) : (s.writeBlock nin).epoch = s.epoch := rfl

/-! ## noInput -/

@[simp] theorem State.noInput_par (s : State) (nout : Nat) : (s.noInput nout).par = s.par := rfl
@[simp] theorem State.noInput_ring (s : State) (nout : Nat) : (s.noInput nout).ring = s.ring := rfl
@[simp] theorem State.noInput_wcur (s : State) (nout : Nat) : (s.noInput nout).wcur = s.wcur := rfl
@[simp] theorem State.noInput_roff (s : State) (nout : Nat) : (s.noInput nout).roff = s.roff := rfl
@[simp] theorem State.noInput_pitch (s : State) (nout : Nat) : (s.noInput nout).pitch = s.pitch := rfl
@[simp] theorem State.noInput_active (s : State) (nout : Nat) : (s.noInput nout).active = s.active := rfl
@[simp] theorem State.noInput_pstage (s : State) (nout : Nat) : (s.noInput nout).pstage = s.pstage := rfl
@[simp] theorem State.noInput_pend (s : State) (nout : Nat) : (s.noInput nout).pend = s.pend := rfl
@[simp] theorem State.noInput_inflight (s : State) (nout : Nat) : (s.noInput nout).inflight = s.inflight := rfl
@[simp] theorem State.noInput_errCmd (s : State) (nout : Nat) : (s.noInput nout).errCmd = s.errCmd := rfl
@[simp] theorem State.noInput_errBusy (s : State) (nout : Nat) : (s.noInput nout).errBusy = s.errBusy := rfl
@[simp] theorem State.noInput_mem (s : State) (nout : Nat) :
    (s.noInput nout).mem = silenceChannels s.par nout s.mem := rfl
@[simp] theorem State.noInput_rst (s : State) (nout : Nat) : (s.noInput nout).rst = s.rst := rfl
@[simp] theorem State.noInput_events (s : State) (nout : Nat) : (s.noInput nout).events = s.events := rfl
@[simp] theorem State.noInput_reads (s : State) (nout : Nat) : (s.noInput nout).reads = s.reads := rfl
@[simp] theorem State.noInput_draws (s : State) (nout : Nat) : (s.noInput nout).draws = s.draws := rfl
@[simp] theorem State.noInput_epoch (s : State) (nout : Nat) : (s.noInput nout).epoch = s.epoch := rfl

/-! ## finish -/

@[simp] theorem State.finish_par (s : State) : (s.finish).par = s.par := rfl
@[simp] theorem State.finish_ring (s : State) : (s.finish).ring = s.ring := rfl
@[simp] theorem State.finish_wcur (s : State) : (s.finish).wcur = s.wcur := rfl
@[simp] theorem State.finish_roff (s : State) : (s.finish).roff = s.roff := rfl
@[simp] theorem State.finish_pitch (s : State) : (s.finish).pitch = s.pitch := rfl
@[simp] theorem State.finish_active (s : State) : (s.finish).active = s.active := rfl
@[simp] theorem State.finish_pstage (s : State) : (s.finish).pstage = s.pstage := rfl
@[simp] theorem State.finish_pend (s : State) : (s.finish).pend = false := rfl
@[simp] theorem State.finish_inflight (s : State) : (s.finish).inflight = .none := rfl
@[simp] theorem State.finish_errCmd (s : State) : (s.finish).errCmd = s.errCmd := rfl
@[simp] theorem State.finish_errBusy (s : State) : (s.finish).errBusy = s.errBusy := rfl
@[simp] theorem State.finish_mem (s : State) : (s.finish).mem = s.mem := rfl
@[simp] theorem State.finish_rst (s : State) : (s.finish).rst = s.rst := rfl
@[simp] theorem State.finish_events (s : State) : (s.finish).events = s.events := rfl
@[simp] theorem State.finish_reads (s : State) : (s.finish).reads = s.reads := rfl
@[simp] theorem State.finish_draws (s : State) : (s.finish).draws = s.draws := rfl
@[simp] theorem State.finish_epoch (s : State) : (s.finish).epoch = s.epoch := rfl

/-! ## releaseReset -/

@[simp] theorem State.releaseReset_par (s : State) : (s.releaseReset).par = s.par := rfl
@[simp] theorem State.releaseReset_ring (s : State) : (s.releaseReset).ring = [] := rfl
@[simp] theorem State.releaseReset_wcur (s : State) : (s.releaseReset).wcur = 0 := rfl
@[simp] theorem State.releaseReset_roff (s : State) : (s.releaseReset).roff = 0x0000000000000000#64 := rfl
@[simp] theorem State.releaseReset_pitch (s : State) : (s.releaseReset).pitch = 0x3F800000#32 := rfl
@[simp] theorem State.releaseReset_active (s : State) : (s.releaseReset).active = 0 := rfl
@[simp] theorem State.releaseReset_pstage (s : State) : (s.releaseReset).pstage = 0x00000000#32 := rfl
@[simp] theorem State.releaseReset_pend (s : State) : (s.releaseReset).pend = false := rfl
@[simp] theorem State.releaseReset_inflight (s : State) : (s.releaseReset).inflight = .clear := rfl
@[simp] theorem State.releaseReset_errCmd (s : State) : (s.releaseReset).errCmd = false := rfl
@[simp] theorem State.releaseReset_errBusy (s : State) : (s.releaseReset).errBusy = false := rfl
@[simp] theorem State.releaseReset_mem (s : State) : (s.releaseReset).mem = [] := rfl
@[simp] theorem State.releaseReset_rst (s : State) : (s.releaseReset).rst = false := rfl
@[simp] theorem State.releaseReset_events (s : State) : (s.releaseReset).events = s.events := rfl
@[simp] theorem State.releaseReset_reads (s : State) : (s.releaseReset).reads = s.reads := rfl
@[simp] theorem State.releaseReset_draws (s : State) : (s.releaseReset).draws = s.draws := rfl
@[simp] theorem State.releaseReset_epoch (s : State) : (s.releaseReset).epoch = s.epoch + 1 := rfl

end Sys2Proof.Machine
end

