-- ==== Sys2Proof/Laws/Ops.lean ====
section
/-! SUPPORT. What each shared operation can do, said once: the two gates of BUSY, the flags, the operand forms, the window
words of a state, and the schedule. Proofs cite these instead of unfolding the operations. -/

namespace Sys2Proof.Machine

/-! ## BUSY and the flags -/

theorem State.busy_eq_true_iff (s : State) : s.busy = true ↔ s.inflight ≠ .none := by
  simp [State.busy]

theorem State.busy_eq_false_iff (s : State) : s.busy = false ↔ s.inflight = .none := by
  simp [State.busy]

/-- A write gated by BUSY is performed while idle. -/
theorem State.whenIdle_of_idle {s : State} (h : s.inflight = .none) (f : State → State) : s.whenIdle f = f s := by
  simp [State.whenIdle, State.busy, h]

/-- A write gated by BUSY only sets ERR_BUSY while a command is in flight (R231). -/
theorem State.whenIdle_of_busy {s : State} (h : s.inflight ≠ .none) (f : State → State) :
    s.whenIdle f = s.setErrBusy := by
  simp [State.whenIdle, State.busy, h]

/-- Everything a write gated by BUSY can do. -/
theorem State.whenIdle_cases (s : State) (f : State → State) :
    (s.inflight = .none ∧ s.whenIdle f = f s) ∨ (s.inflight ≠ .none ∧ s.whenIdle f = s.setErrBusy) := by
  by_cases h : s.inflight = .none
  · exact .inl ⟨h, State.whenIdle_of_idle h f⟩
  · exact .inr ⟨h, State.whenIdle_of_busy h f⟩

/-- A read of engine state is exact while idle (R203). -/
theorem State.returnIfIdle_of_idle {s : State} (h : s.inflight = .none) (v : Word) :
    s.returnIfIdle v = s.returnWord v := by
  simp [State.returnIfIdle, State.busy, h]

/-- A read of engine state takes a free value while a command is in flight (R77). -/
theorem State.returnIfIdle_of_busy {s : State} (h : s.inflight ≠ .none) (v : Word) :
    s.returnIfIdle v = s.returnAny := by
  simp [State.returnIfIdle, State.busy, h]

/-- Everything a read of engine state can do: one more word read, and perhaps one more free value drawn. -/
theorem State.returnIfIdle_eq (s : State) (v : Word) :
    ∃ w d, s.returnIfIdle v = { s with reads := w :: s.reads, draws := d } := by
  unfold State.returnIfIdle
  split_ifs
  · exact ⟨_, _, rfl⟩
  · exact ⟨v, s.draws, rfl⟩

/-! ## Commands -/

/-- What accepting a legal word can do (R110). -/
theorem State.acceptWord_cases (s : State) (w : Word) :
    (opField w = 0x1#4 ∧ s.acceptWord w = s.accept .clear) ∨
      (opField w = 0x2#4 ∧ s.acceptWord w = s.accept (.process (ninField w) (noutField w))) ∨
      (opField w ≠ 0x1#4 ∧ opField w ≠ 0x2#4 ∧ s.acceptWord w = s) := by
  unfold State.acceptWord
  split_ifs with h1 h2
  · exact .inl ⟨h1, rfl⟩
  · exact .inr (.inl ⟨h2, rfl⟩)
  · exact .inr (.inr ⟨h1, h2, rfl⟩)

/-- A legal word whose OP is PROCESS has operands at most NCH_MAX (R95). -/
theorem legalCmd_process {p : Params} {w : Word} (h : legalCmd p w = true) (ho : opField w = 0x2#4) :
    (ninField w).toNat ≤ p.nch ∧ (noutField w).toNat ≤ p.nch := by
  simp [legalCmd, ho] at h
  omega

/-! ## Operand forms -/

theorem wrap_lt {p : Params} (h : 0 < p.cap) (k : Int) : wrap p k < p.cap := by
  unfold wrap
  have := Int.emod_nonneg k (b := (p.cap : Int)) (by omega)
  have := Int.emod_lt_of_pos k (b := (p.cap : Int)) (by omega)
  omega

theorem writeSlot_lt {p : Params} (h : 0 < p.cap) (w i : Nat) : writeSlot p w i < p.cap := Nat.mod_lt _ h

/-- The N slots of one block are distinct (R131). -/
theorem writeSlot_inj {p : Params} {w i j : Nat} (hi : i < p.cap) (hj : j < p.cap)
    (h : writeSlot p w i = writeSlot p w j) : i = j := by
  unfold writeSlot at h
  exact Nat.ModEq.eq_of_lt_of_lt (Nat.ModEq.add_left_cancel' w h) hi hj

/-- A word's byte lanes are the bytes it is read from (R67). -/
theorem lane_wordAt (f : Nat → Byte) (a k : Nat) (hk : k < 4) : lane (wordAt f a) k = f (a + k) := by
  unfold lane wordAt joinLanes
  apply BitVec.eq_of_getLsbD_eq
  intro i hi
  simp only [BitVec.getLsbD_extractLsb', BitVec.getLsbD_append]
  interval_cases k <;> simp <;> grind

/-! ## Window words of a state -/

theorem State.byte_writeIbuf (s : State) (c i : Nat) (v : Word) (a : Nat) :
    (s.writeIbuf c i v).byte a
      = if ibufAddr c i ≤ a ∧ a < ibufAddr c i + 4 then lane v (a - ibufAddr c i) else s.byte a :=
  memByte_memWrite s.epoch s.mem (ibufAddr c i) a v

theorem State.ibuf_writeIbuf (s : State) (c i : Nat) (v : Word) : (s.writeIbuf c i v).ibuf c i = v := by
  simp [State.ibuf, State.writeIbuf, memRead_memWrite]

/-! ## The schedule -/

/-- Everything that can happen to the schedule in one step. -/
theorem State.nextTurn_cases (s : State) :
    (s.events = [] ∧ s.rst = true ∧ s.nextTurn = .wait s) ∨
      (s.events = [] ∧ s.rst = false ∧ s.nextTurn = .engine s) ∨
      (∃ op rest, s.events = .host op :: rest ∧ s.nextTurn = .host op { s with events := rest }) ∨
      (∃ rest, s.events = .engine :: rest ∧ s.rst = true ∧ s.nextTurn = .wait { s with events := rest }) ∨
      (∃ rest, s.events = .engine :: rest ∧ s.rst = false ∧ s.nextTurn = .engine { s with events := rest }) ∨
      (∃ rest, s.events = .resetAssert :: rest
        ∧ s.nextTurn = .wait { s with events := rest, rst := true }) ∨
      (∃ rest, s.events = .resetRelease :: rest ∧ s.rst = true
        ∧ s.nextTurn = .wait { s with events := rest }.releaseReset) ∨
      (∃ rest, s.events = .resetRelease :: rest ∧ s.rst = false
        ∧ s.nextTurn = .wait { s with events := rest }) := by
  unfold State.nextTurn
  rcases he : s.events with _ | ⟨e, rest⟩
  · cases hr : s.rst <;> simp
  · cases e <;> cases hr : s.rst <;> simp

/-- Everything one step can do: a decoded host instruction, the Engine's completion, or a move of the schedule
alone. -/
theorem step_next_cases {s t : State} (h : step s = .next t) :
    (∃ op u i, s.nextTurn = .host op u ∧ decode u.par op = .ok i ∧ u.rst = false ∧ exec i u = .next t) ∨
      (∃ u, s.nextTurn = .engine u ∧ u.engineStep = .next t) ∨ s.nextTurn = .wait t := by
  unfold step at h
  rcases hn : s.nextTurn with ⟨op, u⟩ | u | u <;> rw [hn] at h
  · refine .inl ⟨op, u, ?_⟩
    rcases hf : u.fetch op with r | i <;> simp only [hf] at h
    · cases h
    · unfold State.fetch at hf
      cases hr : u.rst <;> rw [hr] at hf
      · rcases hd : decode u.par op with e | j <;> simp [hd] at hf
        subst hf
        exact ⟨j, rfl, rfl, rfl, h⟩
      · simp at hf
  · exact .inr (.inl ⟨u, rfl, h⟩)
  · exact .inr (.inr (by injection h with h; rw [h]))

end Sys2Proof.Machine
end

