-- ==== Sys2Proof/Laws/Engine.lean ====
section
/-! SUPPORT. What each operation of the Engine can do, said once: the fields ENSURE_CHANNELS, WRITE_BLOCK and SAMPLE_PARAMETER
leave, the slots the write path stores, the words the read path stores, and the outcomes of a completion. -/

namespace Sys2Proof.Machine

/-! ## ENSURE_CHANNELS, SAMPLE_PARAMETER and the first three steps -/

/-- ENSURE_CHANNELS raises A to at least nin and changes nothing else (R120). -/
theorem State.ensureChannels_eq (s : State) (nin : Nat) :
    s.ensureChannels nin = { s with active := max s.active nin } := by
  unfold State.ensureChannels
  split_ifs with h
  · rw [Nat.max_eq_right (Nat.le_of_lt h)]
  · rw [Nat.max_eq_left (Nat.le_of_not_lt h)]

/-- SAMPLE_PARAMETER adopts the block's pitch and changes nothing else (R141). -/
theorem State.sampleParameter_eq (s : State) : s.sampleParameter = { s with pitch := s.blockPitch } := by
  unfold State.sampleParameter State.blockPitch
  split_ifs <;> rfl

/-- The state after the first three steps of INPUT_BLOCK (R182). -/
theorem State.ingest_eq (s : State) (nin : Nat) :
    s.ingest nin =
      { s with
        active := max s.active nin
        ring := { s with active := max s.active nin }.writeChannels nin (max s.active nin) s.ring
        wcur := writeSlot s.par s.wcur s.par.blk
        pitch := s.blockPitch } := by
  unfold State.ingest
  rw [State.ensureChannels_eq, State.sampleParameter_eq]
  rfl

@[simp] theorem State.ingest_par (s : State) (nin : Nat) : (s.ingest nin).par = s.par := by rw [s.ingest_eq]
@[simp] theorem State.ingest_active (s : State) (nin : Nat) : (s.ingest nin).active = max s.active nin := by
  rw [s.ingest_eq]
@[simp] theorem State.ingest_wcur (s : State) (nin : Nat) :
    (s.ingest nin).wcur = writeSlot s.par s.wcur s.par.blk := by rw [s.ingest_eq]
@[simp] theorem State.ingest_pitch (s : State) (nin : Nat) : (s.ingest nin).pitch = s.blockPitch := by
  rw [s.ingest_eq]
@[simp] theorem State.ingest_roff (s : State) (nin : Nat) : (s.ingest nin).roff = s.roff := by rw [s.ingest_eq]
@[simp] theorem State.ingest_mem (s : State) (nin : Nat) : (s.ingest nin).mem = s.mem := by rw [s.ingest_eq]

/-! ## The write path -/

/-- A slot after the first `n` samples of channel `c` are written: the sample that lands in it, or the slot as
it was (R130, R131). -/
theorem State.ringRead_writeSamples (s : State) (nin c : Nat) (ring : Memory) (hp : 0 < s.par.cap) (c' j : Nat)
    (hj : j < s.par.cap) (n : Nat) (hn : n ≤ s.par.cap) :
    (∀ i, i < n → c = c' → j = writeSlot s.par s.wcur i →
        ringRead s.par (s.writeSamples nin c n ring) c' j = s.inputWord nin c i) ∧
      ((c ≠ c' ∨ ∀ i, i < n → j ≠ writeSlot s.par s.wcur i) →
        ringRead s.par (s.writeSamples nin c n ring) c' j = ringRead s.par ring c' j) := by
  induction n with
  | zero => exact ⟨fun i hi => absurd hi (by omega), fun _ => rfl⟩
  | succ n ih =>
    have ih := ih (by omega)
    have hs : ringRead s.par (s.writeSamples nin c (n + 1) ring) c' j
        = if c = c' ∧ writeSlot s.par s.wcur n = j then s.inputWord nin c n
          else ringRead s.par (s.writeSamples nin c n ring) c' j :=
      ringRead_ringWrite _ _ (writeSlot_lt hp _ _) hj
    refine ⟨fun i hi hc he => ?_, fun h => ?_⟩
    · rw [hs]
      split_ifs with h
      · rw [writeSlot_inj (by omega) (by omega) (h.2.trans he)]
      · rcases Nat.lt_succ_iff_lt_or_eq.1 hi with hi | rfl
        · exact ih.1 i hi hc he
        · exact absurd ⟨hc, he.symm⟩ h
    · rw [hs, if_neg]
      · exact ih.2 (h.imp id fun h i hi => h i (by omega))
      · rintro ⟨hc, he⟩
        rcases h with h | h
        · exact h hc
        · exact h n (by omega) he.symm

/-- A slot after the blocks of the first `k` channels are written (R130). -/
theorem State.ringRead_writeChannels (s : State) (nin : Nat) (ring : Memory) (hp : 0 < s.par.cap)
    (hb : s.par.blk ≤ s.par.cap) (c j : Nat) (hj : j < s.par.cap) (k : Nat) :
    (∀ i, i < s.par.blk → c < k → j = writeSlot s.par s.wcur i →
        ringRead s.par (s.writeChannels nin k ring) c j = s.inputWord nin c i) ∧
      ((k ≤ c ∨ ∀ i, i < s.par.blk → j ≠ writeSlot s.par s.wcur i) →
        ringRead s.par (s.writeChannels nin k ring) c j = ringRead s.par ring c j) := by
  induction k with
  | zero => exact ⟨fun i _ hc => absurd hc (by omega), fun _ => rfl⟩
  | succ k ih =>
    have hw := s.ringRead_writeSamples nin k (s.writeChannels nin k ring) hp c j hj s.par.blk hb
    refine ⟨fun i hi hc he => ?_, fun h => ?_⟩
    · rcases Nat.lt_succ_iff_lt_or_eq.1 hc with hc | rfl
      · exact (hw.2 (.inl (by omega))).trans (ih.1 i hi hc he)
      · exact hw.1 i hi rfl he
    · refine (hw.2 (h.imp (fun h => by omega) id)).trans (ih.2 (h.imp (fun h => by omega) id))

/-- The write path keeps the ring's canonical form. -/
theorem State.wf_writeSamples (s : State) (nin c n : Nat) {ring : Memory} (h : ring.wf (some ringUnlisted)) :
    (s.writeSamples nin c n ring).wf (some ringUnlisted) := by
  induction n with
  | zero => exact h
  | succ n ih => exact Memory.wf_putWord ih _ _

theorem State.wf_writeChannels (s : State) (nin k : Nat) {ring : Memory} (h : ring.wf (some ringUnlisted)) :
    (s.writeChannels nin k ring).wf (some ringUnlisted) := by
  induction k with
  | zero => exact h
  | succ k ih => exact s.wf_writeSamples nin k _ ih

/-- The write path lists bytes of the slots of the written channels alone. -/
theorem State.mem_writeSamples (s : State) (nin c n : Nat) (hp : 0 < s.par.cap) {ring : Memory} {x : Host.Cell}
    (h : x ∈ s.writeSamples nin c n ring) : x.1 < 4 * ((c + 1) * s.par.cap) ∨ x ∈ ring := by
  induction n with
  | zero => exact .inr h
  | succ n ih =>
    rcases Memory.mem_putWord h with h | h
    · left
      have := writeSlot_lt hp s.wcur n
      have : (c + 1) * s.par.cap = c * s.par.cap + s.par.cap := by ring
      unfold ringAddr at h
      omega
    · exact ih h

theorem State.mem_writeChannels (s : State) (nin k : Nat) (hp : 0 < s.par.cap) {ring : Memory} {x : Host.Cell}
    (h : x ∈ s.writeChannels nin k ring) : x.1 < 4 * (k * s.par.cap) ∨ x ∈ ring := by
  induction k with
  | zero => exact .inr h
  | succ k ih =>
    rcases s.mem_writeSamples nin k _ hp h with h | h
    · exact .inl h
    · rcases ih h with h | h
      · left
        have : k * s.par.cap ≤ (k + 1) * s.par.cap := Nat.mul_le_mul_right _ (by omega)
        omega
      · exact .inr h

/-! ## The silence of a block with no input -/

theorem wf_silenceSamples (c n : Nat) {mem : Memory} (h : mem.wf none) : (silenceSamples c n mem).wf none := by
  induction n with
  | zero => exact h
  | succ n ih => exact Memory.wf_putWord ih _ _

theorem wf_silenceChannels (p : Params) (k : Nat) {mem : Memory} (h : mem.wf none) :
    (silenceChannels p k mem).wf none := by
  induction k with
  | zero => exact h
  | succ k ih => exact wf_silenceSamples k _ ih

/-- Silencing channel `c` leaves every byte outside its first `n` words. -/
theorem memByte_silenceSamples (e c n : Nat) (mem : Memory) (a : Nat)
    (h : ∀ i, i < n → a < obufAddr c i ∨ obufAddr c i + 4 ≤ a) :
    memByte e (silenceSamples c n mem) a = memByte e mem a := by
  induction n with
  | zero => rfl
  | succ n ih =>
    have hn := h n (by omega)
    unfold silenceSamples
    rw [memByte_memWrite, if_neg (by omega)]
    exact ih fun i hi => h i (by omega)

/-! ## The read path -/

/-- READ_SAMPLE advances the read offset once, whatever it returns (R156, R157). -/
theorem State.readSample_eq {s : State} {c : Nat} {r r' : Bits64} {y : Word} (h : s.readSample c r = some (y, r')) :
    ∃ k0, floor64 (readPos s.par s.wcur r) = some k0 ∧ r' = advance s.par s.pitch r
      ∧ y = interpolate (s.slot c (wrap s.par k0)) (s.slot c (wrap s.par (k0 + 1)))
          (readFrac (readPos s.par s.wcur r) k0) := by
  unfold State.readSample at h
  split at h
  · cases h
  · rename_i k0 hk
    simp only [Option.some.injEq, Prod.mk.injEq] at h
    exact ⟨k0, hk, h.2.symm, h.1.symm⟩

/-- One output sample: the word stored at OBUF[c][i], and the read offset after it (R182, R184). -/
theorem State.outputSample_eq {s : State} {c i : Nat} {x z : Bits64 × Memory} (h : s.outputSample c i x = some z) :
    ∃ y, z.2 = memWrite x.2 (obufAddr c i) y ∧
      ((c < s.active ∧ s.readSample c x.1 = some (y, z.1)) ∨ (s.active ≤ c ∧ y = 0x00000000#32 ∧ z.1 = x.1)) := by
  unfold State.outputSample at h
  split_ifs at h with hc
  · rcases hr : s.readSample c x.1 with _ | ⟨y, r⟩ <;> rw [hr] at h
    · cases h
    · injection h with h
      subst h
      exact ⟨y, rfl, .inl ⟨hc, rfl⟩⟩
  · injection h with h
    subst h
    exact ⟨_, rfl, .inr ⟨Nat.le_of_not_lt hc, rfl, rfl⟩⟩

theorem State.outputSamples_succ {s : State} {c n : Nat} {x z : Bits64 × Memory}
    (h : s.outputSamples c (n + 1) x = some z) :
    ∃ y, s.outputSamples c n x = some y ∧ s.outputSample c n y = some z := by
  unfold State.outputSamples at h
  split at h
  · cases h
  · exact ⟨_, by assumption, h⟩

theorem State.outputChannels_succ {s : State} {k : Nat} {x z : Bits64 × Memory}
    (h : s.outputChannels (k + 1) x = some z) :
    ∃ y, s.outputChannels k x = some y ∧ s.outputSamples k s.par.blk y = some z := by
  unfold State.outputChannels at h
  split at h
  · cases h
  · exact ⟨_, by assumption, h⟩

/-- The read offset after the first `n` samples of a channel: one advance for each sample of a populated
channel, none otherwise (R156, R184). -/
theorem State.outputSamples_roff {s : State} {c n : Nat} {x z : Bits64 × Memory}
    (h : s.outputSamples c n x = some z) :
    z.1 = (advance s.par s.pitch)^[if c < s.active then n else 0] x.1 := by
  induction n generalizing z with
  | zero => simp only [State.outputSamples, Option.some.injEq] at h; subst h; split_ifs <;> rfl
  | succ n ih =>
    obtain ⟨y, hy, hz⟩ := State.outputSamples_succ h
    have ih := ih hy
    obtain ⟨w, -, ⟨hc, hr⟩ | ⟨hc, -, hr⟩⟩ := State.outputSample_eq hz
    · obtain ⟨k0, -, hr, -⟩ := State.readSample_eq hr
      rw [if_pos hc] at ih ⊢
      rw [hr, ih, Function.iterate_succ_apply']
    · rw [if_neg (by omega)] at ih ⊢
      rw [hr, ih]

theorem State.outputChannels_roff {s : State} {k : Nat} {x z : Bits64 × Memory}
    (h : s.outputChannels k x = some z) :
    z.1 = (advance s.par s.pitch)^[min k s.active * s.par.blk] x.1 := by
  induction k generalizing z with
  | zero => simp only [State.outputChannels, Option.some.injEq] at h; subst h; simp
  | succ k ih =>
    obtain ⟨y, hy, hz⟩ := State.outputChannels_succ h
    rw [State.outputSamples_roff hz, ih hy, ← Function.iterate_add_apply]
    congr 1
    split_ifs with hk
    · rw [Nat.min_eq_left (by omega), Nat.min_eq_left (by omega)]; ring
    · rw [Nat.min_eq_right (by omega), Nat.min_eq_right (by omega)]; ring

/-- The read path keeps the staging windows' canonical form. -/
theorem State.wf_outputSamples {s : State} {c n : Nat} {x z : Bits64 × Memory}
    (h : s.outputSamples c n x = some z) (hx : x.2.wf none) : z.2.wf none := by
  induction n generalizing z with
  | zero => simp only [State.outputSamples, Option.some.injEq] at h; subst h; exact hx
  | succ n ih =>
    obtain ⟨y, hy, hz⟩ := State.outputSamples_succ h
    obtain ⟨w, hw, -⟩ := State.outputSample_eq hz
    rw [hw]
    exact Memory.wf_putWord (ih hy) _ _

theorem State.wf_outputChannels {s : State} {k : Nat} {x z : Bits64 × Memory}
    (h : s.outputChannels k x = some z) (hx : x.2.wf none) : z.2.wf none := by
  induction k generalizing z with
  | zero => simp only [State.outputChannels, Option.some.injEq] at h; subst h; exact hx
  | succ k ih =>
    obtain ⟨y, hy, hz⟩ := State.outputChannels_succ h
    exact State.wf_outputSamples hz (ih hy)

/-! ## Completion -/

/-- What the reads and FINAL_NORMALIZE can do: only R and the staging bytes change (R159). -/
theorem State.synthesize_eq {s t : State} {nout : Nat} (h : s.synthesize nout = some t) :
    ∃ r mem r', s.outputChannels nout (s.roff, s.mem) = some (r, mem) ∧ finalNormalize s.par r = some r'
      ∧ t = { s with roff := r', mem := mem } := by
  unfold State.synthesize at h
  split at h
  · cases h
  · rename_i r mem ho
    split at h
    · cases h
    · rename_i r' hr
      injection h with h
      exact ⟨r, mem, r', ho, hr, h.symm⟩

/-- Everything the completion of PROCESS can do (R180 to R182). -/
theorem State.completeProcess_cases (s : State) (nin nout : Nat) :
    (nin = 0 ∧ s.completeProcess nin nout = .next (s.noInput nout).finish) ∨
      (nin ≠ 0 ∧ isFinite32 s.blockPitch = false ∧ s.completeProcess nin nout = .refused .nonFinitePitch) ∨
      (nin ≠ 0 ∧ isFinite32 s.blockPitch = true ∧ (s.ingest nin).synthesize nout = none
        ∧ s.completeProcess nin nout = .refused .noReadPosition) ∨
      (nin ≠ 0 ∧ isFinite32 s.blockPitch = true ∧ ∃ t, (s.ingest nin).synthesize nout = some t
        ∧ s.completeProcess nin nout = .next t.finish) := by
  unfold State.completeProcess
  rw [State.ingest_pitch]
  by_cases hn : nin = 0
  · exact .inl ⟨hn, if_pos hn⟩
  · rw [if_neg hn]
    cases hf : isFinite32 s.blockPitch
    · exact .inr (.inl ⟨hn, rfl, if_neg (by simp)⟩)
    · rw [if_pos rfl]
      rcases hs : (s.ingest nin).synthesize nout with _ | t
      · exact .inr (.inr (.inl ⟨hn, rfl, rfl, rfl⟩))
      · exact .inr (.inr (.inr ⟨hn, rfl, t, rfl, rfl⟩))

end Sys2Proof.Machine
end

