-- ==== Sys2Proof/Laws/Float.lean ====
section
/-! SUPPORT. Laws of the floating-point primitives: what a packed pattern reads as, what value a rounded magnitude has, and
that a value the format holds is rounded to itself. -/

namespace Sys2Proof.Machine

/-! ## Packing and reading -/

theorem value64_pack64 (n : Bool) {mag : Nat} (h : mag < 2 ^ 63) :
    value64 (pack64 n mag) = valueOfMag binary64 n mag := by
  unfold value64 pack64
  have hs : (BitVec.ofNat 64 ((if n then 2 ^ 63 else 0) + mag)).getLsbD 63 = n := by
    rw [BitVec.getLsbD_ofNat]
    cases n
    · simp only [Bool.false_eq_true, if_false, Nat.zero_add, Nat.testBit_lt_two_pow h]
      rfl
    · simp only [if_true, Nat.testBit_two_pow_add_eq, Nat.testBit_lt_two_pow h]
      rfl
  rw [hs]
  congr 1
  rw [BitVec.toNat_ofNat]
  cases n <;> simp <;> omega

theorem value32_pack32 (n : Bool) {mag : Nat} (h : mag < 2 ^ 31) :
    value32 (pack32 n mag) = valueOfMag binary32 n mag := by
  unfold value32 pack32
  have hs : (BitVec.ofNat 32 ((if n then 2 ^ 31 else 0) + mag)).getLsbD 31 = n := by
    rw [BitVec.getLsbD_ofNat]
    cases n
    · simp only [Bool.false_eq_true, if_false, Nat.zero_add, Nat.testBit_lt_two_pow h]
      rfl
    · simp only [if_true, Nat.testBit_two_pow_add_eq, Nat.testBit_lt_two_pow h]
      rfl
  rw [hs]
  congr 1
  rw [BitVec.toNat_ofNat]
  cases n <;> simp <;> omega

/-- The exact rational (-1)^n * m * 2^e. -/
def dyadic (n : Bool) (m : Nat) (e : Int) : Rat := (if n then -(m : Rat) else (m : Rat)) * (2 : Rat) ^ e

@[simp] theorem FpValue.real_fin (n : Bool) (m : Nat) (e : Int) : (FpValue.fin n m e).real = some (dyadic n m e) := rfl
@[simp] theorem FpValue.real_nan : FpValue.nan.real = none := rfl
@[simp] theorem FpValue.real_inf (n : Bool) : (FpValue.inf n).real = none := rfl

/-- A dyadic written with a smaller exponent. -/
theorem dyadic_shift (n : Bool) (m k : Nat) (e : Int) : dyadic n (m * 2 ^ k) (e - k) = dyadic n m e := by
  unfold dyadic
  rw [zpow_sub₀ (by norm_num)]
  cases n <;> simp <;> field_simp

/-! ## The value of a magnitude pattern -/

/-- A finite magnitude `q * 2^(prec-1) + k`, with `k` a full significand or `q = 0`, has the value
`k * 2^(emin+q)`: this is how `roundMag` writes its result. -/
theorem real_valueOfMag (f : FpFormat) (hp : 2 ≤ f.prec) (n : Bool) (q k : Nat) (hk : k ≤ 2 ^ f.prec)
    (hq : q = 0 ∨ 2 ^ (f.prec - 1) ≤ k) (hlt : q * 2 ^ (f.prec - 1) + k < f.infMag) :
    (valueOfMag f n (q * 2 ^ (f.prec - 1) + k)).real = some (dyadic n k (f.emin + q)) := by
  have h2 : 2 ^ f.prec = 2 * 2 ^ (f.prec - 1) := by
    obtain ⟨j, hj⟩ : ∃ j, f.prec = j + 1 := ⟨f.prec - 1, by omega⟩
    rw [hj]; simp [pow_succ, mul_comm]
  have hb : 0 < 2 ^ (f.prec - 1) := Nat.two_pow_pos _
  unfold valueOfMag
  simp only
  rw [if_neg (by omega), if_neg (by omega)]
  generalize hB : 2 ^ (f.prec - 1) = B at *
  by_cases hk1 : k < B
  · obtain rfl : q = 0 := by omega
    have he : (0 * B + k) / B = 0 := by rw [Nat.zero_mul, Nat.zero_add]; exact Nat.div_eq_of_lt hk1
    have hm : (0 * B + k) % B = k := by rw [Nat.zero_mul, Nat.zero_add]; exact Nat.mod_eq_of_lt hk1
    rw [he, hm, if_pos rfl]
    simp
  · by_cases hk2 : k < 2 * B
    · have hs : q * B + k = (k - B) + B * (q + 1) := by
        have : B * (q + 1) = q * B + B := by ring
        omega
      have he : (q * B + k) / B = q + 1 := by
        rw [hs, Nat.add_mul_div_left _ _ hb, Nat.div_eq_of_lt (by omega)]; omega
      have hm : (q * B + k) % B = k - B := by
        rw [hs, Nat.add_mul_mod_self_left]; exact Nat.mod_eq_of_lt (by omega)
      rw [he, hm, if_neg (by omega)]
      have : B + (k - B) = k := by omega
      simp [this]
    · obtain rfl : k = 2 * B := by omega
      have hs : q * B + 2 * B = B * (q + 2) := by ring
      have he : (q * B + 2 * B) / B = q + 2 := by rw [hs, Nat.mul_div_cancel_left _ hb]
      have hm : (q * B + 2 * B) % B = 0 := by rw [hs, Nat.mul_mod_right]
      rw [he, hm, if_neg (by omega)]
      simp only [Nat.add_zero, FpValue.real_fin, Option.some.injEq]
      have h1 := dyadic_shift n B 1 (f.emin + ((q + 2 - 1 : Nat) : Int))
      rw [← h1, pow_one, Nat.mul_comm B 2]
      congr 1
      push_cast
      omega

/-! ## Rounding -/

theorem roundHalfEven_le (m s : Nat) : roundHalfEven m s ≤ m / 2 ^ s + 1 := by
  unfold roundHalfEven; simp only; split_ifs <;> omega

theorem le_roundHalfEven (m s : Nat) : m / 2 ^ s ≤ roundHalfEven m s := by
  unfold roundHalfEven; simp only; split_ifs <;> omega

/-- The rounded quotient is within half a unit of the exact one. -/
theorem roundHalfEven_near (m s : Nat) :
    2 * (roundHalfEven m s * 2 ^ s) ≤ 2 * m + 2 ^ s ∧ 2 * m ≤ 2 * (roundHalfEven m s * 2 ^ s) + 2 ^ s := by
  have hd := Nat.div_add_mod m (2 ^ s)
  have hm := Nat.mod_lt m (Nat.two_pow_pos s)
  unfold roundHalfEven
  simp only
  split_ifs with h
  · have : (m / 2 ^ s + 1) * 2 ^ s = 2 ^ s * (m / 2 ^ s) + 2 ^ s := by ring
    omega
  · have : m / 2 ^ s * 2 ^ s = 2 ^ s * (m / 2 ^ s) := by ring
    omega

/-- At a tie the rounded quotient is even. -/
theorem roundHalfEven_even (m s : Nat) (h : 2 * (m % 2 ^ s) = 2 ^ s) : roundHalfEven m s % 2 = 0 := by
  unfold roundHalfEven
  simp only
  split_ifs <;> omega

/-- What `roundMag` writes: the significand `k` at the exponent of its unit in the last place, exact where that
exponent is not above `e`, else rounded half to even; infinity where the pattern would exceed it. -/
theorem roundMag_spec (f : FpFormat) (hp : 2 ≤ f.prec) {m : Nat} (hm : m ≠ 0) (e : Int) :
    ∃ k : Nat,
      roundMag f m e = min ((ulpExp f m e - f.emin).toNat * 2 ^ (f.prec - 1) + k) f.infMag
        ∧ k ≤ 2 ^ f.prec ∧ (ulpExp f m e = f.emin ∨ 2 ^ (f.prec - 1) ≤ k)
        ∧ (ulpExp f m e ≤ e → k = m * 2 ^ (e - ulpExp f m e).toNat)
        ∧ (e < ulpExp f m e → k = roundHalfEven m (ulpExp f m e - e).toNat) := by
  have hl1 : 2 ^ Nat.log2 m ≤ m := Nat.log2_self_le hm
  have hl2 : m < 2 ^ (Nat.log2 m + 1) := Nat.lt_log2_self
  have hu1 : e + (Nat.log2 m + 1 : Nat) - f.prec ≤ ulpExp f m e := le_max_left _ _
  have hu2 : f.emin ≤ ulpExp f m e := le_max_right _ _
  have hu3 : ulpExp f m e = e + (Nat.log2 m + 1 : Nat) - f.prec ∨ ulpExp f m e = f.emin := by
    unfold ulpExp; omega
  unfold roundMag
  rw [if_neg hm]
  simp only
  generalize hq : ulpExp f m e = q at *
  by_cases hqe : q ≤ e
  · refine ⟨m * 2 ^ (e - q).toNat, by rw [if_pos hqe], ?_, ?_, fun _ => rfl, fun h => absurd h (by omega)⟩
    · calc m * 2 ^ (e - q).toNat ≤ 2 ^ (Nat.log2 m + 1) * 2 ^ (e - q).toNat := Nat.mul_le_mul_right _ hl2.le
        _ = 2 ^ (Nat.log2 m + 1 + (e - q).toNat) := (pow_add 2 _ _).symm
        _ ≤ 2 ^ f.prec := Nat.pow_le_pow_right (by norm_num) (by omega)
    · rcases hu3 with h | h
      · right
        calc 2 ^ (f.prec - 1) ≤ 2 ^ (Nat.log2 m + (e - q).toNat) := Nat.pow_le_pow_right (by norm_num) (by omega)
          _ = 2 ^ Nat.log2 m * 2 ^ (e - q).toNat := pow_add 2 _ _
          _ ≤ m * 2 ^ (e - q).toNat := Nat.mul_le_mul_right _ hl1
      · exact .inl h
  · refine ⟨roundHalfEven m (q - e).toNat, by rw [if_neg hqe], ?_, ?_, fun h => absurd h hqe, fun _ => rfl⟩
    · refine (roundHalfEven_le _ _).trans ?_
      have : m / 2 ^ (q - e).toNat < 2 ^ f.prec := by
        rw [Nat.div_lt_iff_lt_mul (Nat.two_pow_pos _), ← pow_add]
        exact hl2.trans_le (Nat.pow_le_pow_right (by norm_num) (by omega))
      omega
    · rcases hu3 with h | h
      · right
        refine le_trans ?_ (le_roundHalfEven _ _)
        rw [Nat.le_div_iff_mul_le (Nat.two_pow_pos _), ← pow_add]
        exact (Nat.pow_le_pow_right (by norm_num) (by omega)).trans hl1
      · exact .inl h

theorem roundMag_le (f : FpFormat) (m : Nat) (e : Int) : roundMag f m e ≤ f.infMag := by
  unfold roundMag
  split_ifs
  · exact Nat.zero_le _
  · exact min_le_right _ _

/-- A value the format holds is rounded to itself: a significand of at most `prec` bits, an exponent not below
`emin`, and a magnitude pattern below infinity. -/
theorem real_roundMag_exact (f : FpFormat) (hp : 2 ≤ f.prec) (n : Bool) {m : Nat} {e : Int} (hm : m < 2 ^ f.prec)
    (he : f.emin ≤ e) (hfin : roundMag f m e < f.infMag) :
    (valueOfMag f n (roundMag f m e)).real = some (dyadic n m e) := by
  by_cases h0 : m = 0
  · subst h0
    have hz : roundMag f 0 e = 0 * 2 ^ (f.prec - 1) + 0 := by simp [roundMag]
    rw [hz] at hfin ⊢
    rw [real_valueOfMag f hp n 0 0 (Nat.zero_le _) (.inl rfl) hfin]
    simp [dyadic]
  · obtain ⟨k, hr, hk, hq, hex, -⟩ := roundMag_spec f hp h0 e
    have hlog : Nat.log2 m + 1 ≤ f.prec := by
      have := (Nat.log2_lt h0).2 hm
      omega
    have hqe : ulpExp f m e ≤ e := by unfold ulpExp; omega
    have hqm : f.emin ≤ ulpExp f m e := le_max_right _ _
    have hr' : roundMag f m e = (ulpExp f m e - f.emin).toNat * 2 ^ (f.prec - 1) + k := by omega
    rw [hr'] at hfin ⊢
    rw [real_valueOfMag f hp n _ k hk (by omega) hfin, hex hqe]
    have h1 := dyadic_shift n m (e - ulpExp f m e).toNat e
    rw [← h1]
    congr 2
    omega

theorem binary64_prec : 2 ≤ binary64.prec := by decide
theorem binary32_prec : 2 ≤ binary32.prec := by decide

/-- A value binary64 holds is rounded to itself. -/
theorem real_round64_exact (n : Bool) {m : Nat} {e : Int} (hm : m < 2 ^ 53) (he : -1074 ≤ e)
    (hfin : roundMag binary64 m e < binary64.infMag) : real64 (round64 n m e) = some (dyadic n m e) := by
  unfold real64 round64
  have hle : roundMag binary64 m e ≤ 0x7FF0000000000000 := roundMag_le binary64 m e
  rw [value64_pack64 n (by omega)]
  exact real_roundMag_exact binary64 binary64_prec n hm he hfin

/-- A magnitude below 2^1023 is rounded to a finite binary64. -/
theorem roundMag_binary64_lt_inf {m : Nat} {e : Int} (h : e + (Nat.log2 m : Int) ≤ 1022) :
    roundMag binary64 m e < binary64.infMag := by
  by_cases h0 : m = 0
  · subst h0; simp [roundMag, binary64]
  · obtain ⟨k, hr, hk, -, -, -⟩ := roundMag_spec binary64 binary64_prec h0 e
    have hq : ulpExp binary64 m e ≤ 970 := by
      unfold ulpExp
      simp only [binary64]
      omega
    rw [hr]
    simp only [binary64] at hk hq ⊢
    have : (ulpExp { prec := 53, emin := -1074, infMag := 9218868437227405312 } m e - -1074).toNat ≤ 2044 := by omega
    have h2 : (ulpExp { prec := 53, emin := -1074, infMag := 9218868437227405312 } m e - -1074).toNat * 2 ^ (53 - 1)
        ≤ 2044 * 2 ^ (53 - 1) := Nat.mul_le_mul_right _ this
    omega

/-! ## Signed zeros and infinities -/

@[simp] theorem value64_inf64 (n : Bool) : value64 (inf64 n) = .inf n := by cases n <;> decide
@[simp] theorem value64_zero64 (n : Bool) : value64 (zero64 n) = .fin n 0 (-1074) := by cases n <;> decide
@[simp] theorem value32_inf32 (n : Bool) : value32 (inf32 n) = .inf n := by cases n <;> decide
@[simp] theorem value32_zero32 (n : Bool) : value32 (zero32 n) = .fin n 0 (-149) := by cases n <;> decide
@[simp] theorem isNan64_inf64 (n : Bool) : isNan64 (inf64 n) = false := by cases n <;> decide
@[simp] theorem pack64_inf (n : Bool) : pack64 n binary64.infMag = inf64 n := by cases n <;> decide
@[simp] theorem pack64_zero (n : Bool) : pack64 n 0 = zero64 n := by cases n <;> decide
@[simp] theorem pack32_inf (n : Bool) : pack32 n binary32.infMag = inf32 n := by cases n <;> decide
@[simp] theorem pack32_zero (n : Bool) : pack32 n 0 = zero32 n := by cases n <;> decide
@[simp] theorem neg64_inf64 (n : Bool) : neg64 (inf64 n) = inf64 (!n) := by cases n <;> decide

/-- Inverting the sign bit keeps a NaN a NaN. -/
theorem isNan64_neg64 (a : Bits64) : isNan64 (neg64 a) = isNan64 a := by
  unfold isNan64 neg64
  have h : (a ^^^ 0x8000000000000000#64).toNat % 2 ^ 63 = a.toNat % 2 ^ 63 := by
    rw [BitVec.toNat_xor, Nat.xor_mod_two_pow]
    simp
  rw [h]

end Sys2Proof.Machine
end

