-- ==== Sys2Proof/Laws/PerInstr.lean ====
section
/-! SUPPORT. Families of facts about the instructions as syntax, one lemma for each constructor of Instr. -/

namespace Sys2Proof.Laws.EncodeAdmitted

/-- The encoding of a well-formed instruction is a command word or a 32-bit aligned access (R63, R90). -/
def Statement (i : Instr) : Prop :=
  ∀ p : Params, WellFormed p i = true →
    (∃ w, encode i = .cmd w) ∨ (∃ a, encode i = .read 32 a ∧ aligned a = true)
      ∨ ∃ a v, encode i = .write 32 a v ∧ aligned a = true

theorem aligned_ibufAddr (c : BitVec 4) (i : BitVec 10) :
    aligned (BitVec.ofNat 18 (ibufAddr c.toNat i.toNat)) = true := by
  unfold aligned ibufAddr
  simp only [beq_iff_eq]
  apply BitVec.eq_of_toNat_eq
  simp [BitVec.extractLsb'_toNat]
  omega

theorem aligned_obufAddr (c : BitVec 4) (i : BitVec 10) :
    aligned (BitVec.ofNat 18 (obufAddr c.toNat i.toNat)) = true := by
  unfold aligned obufAddr
  simp only [beq_iff_eq]
  apply BitVec.eq_of_toNat_eq
  simp [BitVec.extractLsb'_toNat]
  omega

theorem aligned_of_reserved {p : Params} {a : Addr} (h : reservedAddr p a = true) : aligned a = true := by
  unfold reservedAddr at h
  simp only [Bool.and_eq_true] at h
  exact h.1.1

theorem nop : Statement .nop := fun _ _ => .inl ⟨_, rfl⟩
theorem init : Statement .init := fun _ _ => .inl ⟨_, rfl⟩
theorem process (nin nout : BitVec 5) : Statement (.process nin nout) := fun _ _ => .inl ⟨_, rfl⟩
theorem illegalCmd (w : Word) : Statement (.illegalCmd w) := fun _ _ => .inl ⟨_, rfl⟩
theorem rdCfgCap : Statement .rdCfgCap := fun _ _ => .inr (.inl ⟨_, rfl, rfl⟩)
theorem rdCfgBlk : Statement .rdCfgBlk := fun _ _ => .inr (.inl ⟨_, rfl, rfl⟩)
theorem rdCmd : Statement .rdCmd := fun _ _ => .inr (.inl ⟨_, rfl, rfl⟩)
theorem rdStatus : Statement .rdStatus := fun _ _ => .inr (.inl ⟨_, rfl, rfl⟩)
theorem rdPitchIn : Statement .rdPitchIn := fun _ _ => .inr (.inl ⟨_, rfl, rfl⟩)
theorem rdPitch : Statement .rdPitch := fun _ _ => .inr (.inl ⟨_, rfl, rfl⟩)
theorem rdWcur : Statement .rdWcur := fun _ _ => .inr (.inl ⟨_, rfl, rfl⟩)
theorem rdActive : Statement .rdActive := fun _ _ => .inr (.inl ⟨_, rfl, rfl⟩)
theorem rdRoffLo : Statement .rdRoffLo := fun _ _ => .inr (.inl ⟨_, rfl, rfl⟩)
theorem rdRoffHi : Statement .rdRoffHi := fun _ _ => .inr (.inl ⟨_, rfl, rfl⟩)
theorem wrRoCfgCap (v : Word) : Statement (.wrRoCfgCap v) := fun _ _ => .inr (.inr ⟨_, _, rfl, rfl⟩)
theorem wrRoCfgBlk (v : Word) : Statement (.wrRoCfgBlk v) := fun _ _ => .inr (.inr ⟨_, _, rfl, rfl⟩)
theorem wrRoPitch (v : Word) : Statement (.wrRoPitch v) := fun _ _ => .inr (.inr ⟨_, _, rfl, rfl⟩)
theorem wrRoWcur (v : Word) : Statement (.wrRoWcur v) := fun _ _ => .inr (.inr ⟨_, _, rfl, rfl⟩)
theorem wrRoActive (v : Word) : Statement (.wrRoActive v) := fun _ _ => .inr (.inr ⟨_, _, rfl, rfl⟩)
theorem wrRoRoffLo (v : Word) : Statement (.wrRoRoffLo v) := fun _ _ => .inr (.inr ⟨_, _, rfl, rfl⟩)
theorem wrRoRoffHi (v : Word) : Statement (.wrRoRoffHi v) := fun _ _ => .inr (.inr ⟨_, _, rfl, rfl⟩)
theorem wrCmd (w : Word) : Statement (.wrCmd w) := fun _ _ => .inr (.inr ⟨_, _, rfl, rfl⟩)
theorem wrStatus (v : Word) : Statement (.wrStatus v) := fun _ _ => .inr (.inr ⟨_, _, rfl, rfl⟩)
theorem wrPitchIn (v : Word) : Statement (.wrPitchIn v) := fun _ _ => .inr (.inr ⟨_, _, rfl, rfl⟩)
theorem rdIbuf (c : BitVec 4) (i : BitVec 10) : Statement (.rdIbuf c i) := fun _ _ => .inr (.inl ⟨_, rfl, aligned_ibufAddr c i⟩)
theorem wrIbuf (c : BitVec 4) (i : BitVec 10) (v : Word) : Statement (.wrIbuf c i v) := fun _ _ => .inr (.inr ⟨_, _, rfl, aligned_ibufAddr c i⟩)
theorem rdObuf (c : BitVec 4) (i : BitVec 10) : Statement (.rdObuf c i) := fun _ _ => .inr (.inl ⟨_, rfl, aligned_obufAddr c i⟩)
theorem wrObuf (c : BitVec 4) (i : BitVec 10) (v : Word) : Statement (.wrObuf c i v) := fun _ _ => .inr (.inr ⟨_, _, rfl, aligned_obufAddr c i⟩)
theorem rdRsvd (a : Addr) : Statement (.rdRsvd a) := fun _ h => .inr (.inl ⟨_, rfl, aligned_of_reserved h⟩)
theorem wrRsvd (a : Addr) (v : Word) : Statement (.wrRsvd a v) := fun _ h => .inr (.inr ⟨_, _, rfl, aligned_of_reserved h⟩)

end Sys2Proof.Laws.EncodeAdmitted
end

