-- ==== Sys2Proof/Tests/Slice0.lean ====
section
/-! SUPPORT. The model's own tests. Expected values come from spec/ (95_test_vectors.md and the examples of the rules), never
from the model. -/

namespace Sys2Proof.Tests

open Sys2Proof.Machine

/-- C = 8, N = 4, NCH_MAX = 2, the parameters of 95_test_vectors.md section 0. -/
def tiny : Params := { cap := 8, blk := 4, nch := 2 }

/-- After reset and the reset clear (95_test_vectors.md section 0). -/
def idle : State := { State.resetWith tiny with inflight := .none }

/-- Four words at consecutive word addresses. -/
def four (m : Memory) (a : Nat) (w0 w1 w2 w3 : Word) : Memory :=
  memWrite (memWrite (memWrite (memWrite m a w0) (a + 4) w1) (a + 8) w2) (a + 12) w3

/-- Eight slots of ring channel `c`. -/
def ring8 (m : Memory) (c : Nat) (w : List Word) : Memory :=
  (w.zipIdx).foldl (fun m x => ringWrite tiny m c x.2 x.1) m

/-- The state a step answers, if it answers one. -/
def nextOf (o : Host.Outcome State Fault Refusal) : Option State :=
  match o with
  | .next s => some s
  | _ => none

/-! ## Decoding: words written out from 30_encoding.md R92, R96, R99, R101 -/

/-- NOP, INIT and PROCESS words of 95_test_vectors.md section 2.1. -/
theorem test_decode_commands :
    decode tiny (.cmd 0x00000000#32) = .ok .nop ∧ decode tiny (.cmd 0x00000001#32) = .ok .init
      ∧ decode tiny (.cmd 0x00000002#32) = .ok (.process 0 0) ∧ decode tiny (.cmd 0x00000102#32) = .ok (.process 1 0)
      ∧ decode tiny (.cmd 0x00010002#32) = .ok (.process 0 1)
      ∧ decode tiny (.cmd 0x00020202#32) = .ok (.process 2 2) := by decide

/-- The illegal words of 95_test_vectors.md section 2.1. -/
theorem test_decode_illegal :
    [0x00000003#32, 0x0000000F#32, 0x00000010#32, 0x00000080#32, 0x00002002#32, 0x00004102#32, 0x00200002#32,
      0x80000002#32, 0xFFFFFFFF#32, 0x00000100#32, 0x00010000#32, 0x00010001#32, 0x00000302#32, 0x00030002#32,
      0x001F1F02#32].all (fun w => decide (decode tiny (.cmd w) = .ok (.illegalCmd w)) && !legalCmd tiny w) = true := by
  decide

/-- The register reads of R99. -/
theorem test_decode_register_reads :
    ([0x00000#18, 0x00004#18, 0x00008#18, 0x0000C#18, 0x00010#18, 0x00014#18, 0x00018#18, 0x0001C#18, 0x00020#18,
        0x00024#18].map fun a => decode tiny (.read 32 a))
      = [.ok .rdCfgCap, .ok .rdCfgBlk, .ok .rdCmd, .ok .rdStatus, .ok .rdPitchIn, .ok .rdPitch, .ok .rdWcur,
          .ok .rdActive, .ok .rdRoffLo, .ok .rdRoffHi] := by decide

/-- The register writes of R99. -/
theorem test_decode_register_writes :
    ([0x00000#18, 0x00004#18, 0x00008#18, 0x0000C#18, 0x00010#18, 0x00014#18, 0x00018#18, 0x0001C#18, 0x00020#18,
        0x00024#18].map fun a => decode tiny (.write 32 a 5#32))
      = [.ok (.wrRoCfgCap 5), .ok (.wrRoCfgBlk 5), .ok (.wrCmd 5), .ok (.wrStatus 5), .ok (.wrPitchIn 5),
          .ok (.wrRoPitch 5), .ok (.wrRoWcur 5), .ok (.wrRoActive 5), .ok (.wrRoRoffLo 5), .ok (.wrRoRoffHi 5)] := by
  decide

/-- Window and reserved addresses (R66; RA10, RA12, RA14, RA15). -/
theorem test_decode_windows :
    decode tiny (.write 32 0x1100C#18 0xBF000000#32) = .ok (.wrIbuf 1 3 0xBF000000#32)
      ∧ decode tiny (.read 32 0x1100C#18) = .ok (.rdIbuf 1 3) ∧ decode tiny (.read 32 0x21008#18) = .ok (.rdObuf 1 2)
      ∧ decode tiny (.write 32 0x20004#18 1#32) = .ok (.wrObuf 0 1 1#32)
      ∧ decode tiny (.read 32 0x00028#18) = .ok (.rdRsvd 0x00028#18)
      ∧ decode tiny (.read 32 0x10010#18) = .ok (.rdRsvd 0x10010#18)
      ∧ decode tiny (.read 32 0x12000#18) = .ok (.rdRsvd 0x12000#18)
      ∧ decode tiny (.write 32 0x30000#18 7#32) = .ok (.wrRsvd 0x30000#18 7#32) := by decide

/-- A misaligned or narrow access is rejected by name (RA17). -/
theorem test_decode_rejects :
    decode tiny (.read 32 0x00002#18) = .error (.misaligned 0x00002#18)
      ∧ decode tiny (.read 16 0x00000#18) = .error (.accessWidth 16)
      ∧ decode tiny (.write 8 0x00001#18 0#32) = .error (.accessWidth 8) := by decide

/-- The numbering of spec/opcode_table.json: keys of BUS rows and words of CMD rows. -/
theorem test_decode_table_words :
    decodeTableWord 24 0x00004 = some .rdCfgBlk ∧ decodeTableWord 24 0x40008 = some (.wrCmd 0)
      ∧ decodeTableWord 24 0x50000 = some (.wrIbuf 0 0 0) ∧ decodeTableWord 24 0x20000 = some (.rdObuf 0 0)
      ∧ decodeTableWord 32 0x00000001 = some .init ∧ decodeTableWord 32 0x00000002 = some (.process 0 0)
      ∧ decodeTableWord 24 0x80000 = none ∧ decodeTableWord 24 0x40028 = some (.wrRsvd 0x00028#18 0) := by decide

/-- The encoder gives the words of R96 and R101. -/
theorem test_encode :
    encode (.process 1 2) = .cmd 0x00020102#32 ∧ encode (.wrIbuf 1 3 0xBF000000#32) = .write 32 0x1100C#18 0xBF000000#32
      ∧ encode (.rdObuf 1 2) = .read 32 0x21008#18 := by decide

/-- The expansions of R101 in 95_test_vectors.md section 2.1. -/
theorem test_pseudo_expand :
    (Pseudo.process 2 1).expand = .write 32 0x00008#18 0x00010202#32
      ∧ (Pseudo.pitch 0x3F99999A#32).expand = .write 32 0x00010#18 0x3F99999A#32
      ∧ (Pseudo.rdout 1 2).expand = .read 32 0x21008#18 ∧ Pseudo.clrerr.expand = .write 32 0x0000C#18 6#32 := by decide

/-! ## WellFormed: an ill-formed term for each check -/

theorem test_wellformed_refuses :
    [Instr.process 3 0, .process 0 3, .illegalCmd 0x00000001#32, .rdIbuf 2 0, .rdIbuf 0 4, .wrIbuf 2 0 0, .rdObuf 0 4,
      .wrObuf 2 0 0, .rdRsvd 0x00024#18, .rdRsvd 0x00029#18, .wrRsvd 0x10000#18 0, .rdRsvd 0x21008#18].all
      (fun i => !WellFormed tiny i) = true := by decide

/-- Operands at the edge of each check. -/
theorem test_wellformed_accepts :
    [Instr.process 2 2, .illegalCmd 0x00000003#32, .rdIbuf 1 3, .wrObuf 1 3 0, .rdRsvd 0x00028#18, .rdRsvd 0x12000#18,
      .wrRsvd 0x3FFFC#18 0].all (WellFormed tiny) = true := by decide

/-! ## Commands (R110 to R114, R180) -/

theorem test_nop_idle : exec .nop { idle with pend := true } = .next { idle with pend := true } := rfl
theorem test_nop_busy : exec .nop (State.resetWith tiny) = .next { State.resetWith tiny with errBusy := true } := rfl
theorem test_init_idle : exec .init idle = .next { idle with inflight := .clear } := rfl
theorem test_process_idle : exec (.process 1 2) idle = .next { idle with inflight := .process 1 2 } := rfl
theorem test_process_too_many : exec (.process 3 0) idle = .next { idle with errCmd := true } := rfl
theorem test_illegal_idle : exec (.illegalCmd 0x00000003#32) idle = .next { idle with errCmd := true } := rfl
theorem test_wrCmd_process : exec (.wrCmd 0x00020102#32) idle = .next { idle with inflight := .process 1 2 } := rfl
theorem test_wrCmd_illegal_busy :
    exec (.wrCmd 0xFFFFFFFF#32) (State.resetWith tiny) = .next { State.resetWith tiny with errBusy := true } := rfl

/-! ## Register accesses (RA1 to RA9) -/

theorem test_rdCfgCap : exec .rdCfgCap State.reset = .next { State.reset with reads := [0x00004000#32] } := rfl
theorem test_rdCfgBlk : exec .rdCfgBlk State.reset = .next { State.reset with reads := [0x00020080#32] } := rfl
theorem test_rdCfgBlk_tiny : exec .rdCfgBlk idle = .next { idle with reads := [0x00020004#32] } := rfl
theorem test_rdCmd : exec .rdCmd idle = .next { idle with reads := [0#32] } := rfl
theorem test_rdPitchIn : exec .rdPitchIn { idle with pstage := 5 } = .next { idle with pstage := 5, reads := [0#32] } := rfl
theorem test_rdStatus_reset : exec .rdStatus State.reset = .next { State.reset with reads := [1#32] } := rfl
/-- RA4. -/
theorem test_rdStatus_flags :
    exec .rdStatus { State.resetWith tiny with errBusy := true, pend := true }
      = .next { State.resetWith tiny with errBusy := true, pend := true, reads := [0x0000000D#32] } := rfl
theorem test_rdPitch : exec .rdPitch idle = .next { idle with reads := [0x3F800000#32] } := rfl
theorem test_rdPitch_busy : exec .rdPitch (State.resetWith tiny)
    = .next { State.resetWith tiny with reads := [Config.busyRead 0], draws := 1 } := rfl
theorem test_rdWcur : exec .rdWcur { idle with wcur := 5 } = .next { idle with wcur := 5, reads := [5#32] } := rfl
theorem test_rdActive : exec .rdActive { idle with active := 2 } = .next { idle with active := 2, reads := [2#32] } := rfl
/-- RA8. -/
theorem test_rdRoffHi : exec .rdRoffHi { idle with roff := 0xBFE8000000000000#64 }
    = .next { idle with roff := 0xBFE8000000000000#64, reads := [0xBFE80000#32] } := rfl
theorem test_rdRoffLo : exec .rdRoffLo { idle with roff := 0xBFE8000012345678#64 }
    = .next { idle with roff := 0xBFE8000012345678#64, reads := [0x12345678#32] } := rfl
/-- RA5. -/
theorem test_wrStatus_one_flag : exec (.wrStatus 4#32) { idle with errCmd := true, errBusy := true }
    = .next { idle with errCmd := true, errBusy := false } := rfl
/-- RA6. -/
theorem test_wrStatus_ro_bits : exec (.wrStatus 9#32) { State.resetWith tiny with pend := true }
    = .next { State.resetWith tiny with pend := true } := rfl
theorem test_wrPitchIn : exec (.wrPitchIn 0x3FC00000#32) idle
    = .next { idle with pstage := 0x3FC00000#32, pend := true } := rfl
/-- RA7. -/
theorem test_wrRo : exec (.wrRoWcur 5#32) idle = .next idle ∧ exec (.wrRoCfgCap 5#32) idle = .next idle
    ∧ exec (.wrRoCfgBlk 5#32) idle = .next idle ∧ exec (.wrRoPitch 5#32) idle = .next idle
    ∧ exec (.wrRoActive 5#32) idle = .next idle ∧ exec (.wrRoRoffLo 5#32) idle = .next idle
    ∧ exec (.wrRoRoffHi 5#32) idle = .next idle := ⟨rfl, rfl, rfl, rfl, rfl, rfl, rfl⟩

/-! ## Windows and reserved addresses (RA10 to RA16) -/

theorem test_wrIbuf_then_read :
    (nextOf (exec (.wrIbuf 1 3 0xBF000000#32) idle)).map (fun s => s.ibuf 1 3) = some 0xBF000000#32 := by decide
theorem test_rdIbuf : (nextOf (exec (.rdIbuf 0 1) { idle with mem := four [] 0x10000 1 2 3 4 })).map (·.reads)
    = some [2#32] := by decide
theorem test_rdObuf : (nextOf (exec (.rdObuf 1 0) { idle with mem := four [] 0x21000 9 2 3 4 })).map (·.reads)
    = some [9#32] := by decide
theorem test_rdObuf_busy : (nextOf (exec (.rdObuf 0 0) (State.resetWith tiny))).map (·.reads)
    = some [Config.busyRead 0] := rfl
/-- RA11. -/
theorem test_wrIbuf_busy : exec (.wrIbuf 0 0 7#32) (State.resetWith tiny)
    = .next { State.resetWith tiny with errBusy := true } := rfl
/-- RA12, RA14, RA16. -/
theorem test_ignored_writes : exec (.wrObuf 0 1 7#32) (State.resetWith tiny) = .next (State.resetWith tiny)
    ∧ exec (.wrRsvd 0x10010#18 7#32) (State.resetWith tiny) = .next (State.resetWith tiny) := ⟨rfl, rfl⟩
theorem test_rdRsvd : exec (.rdRsvd 0x00028#18) idle = .next { idle with reads := [0#32] } := rfl

/-! ## Arithmetic (R14) and READ_SAMPLE (95_test_vectors.md section 2.5) -/

/-- FN1 to FN7: FINAL_NORMALIZE at C = 8. -/
theorem test_final_normalize :
    [0x4033400000000000#64, 0x401C000000000000#64, 0xBFE8000000000000#64, 0xC023000000000000#64, 0xC020000000000000#64,
        0x8000000000000000#64, 0x4020000000000000#64].map (finalNormalize tiny)
      = [some 0x400A000000000000#64, some 0x401C000000000000#64, some 0xBFE8000000000000#64, some 0xBFF8000000000000#64,
          some 0x8000000000000000#64, some 0x8000000000000000#64, some 0#64] := by decide +kernel

/-- A state for one READ_SAMPLE of channel 0. -/
def readState (w : Nat) (pitch : Word) (slots : List (Nat × Word)) : State :=
  { idle with
    wcur := w
    pitch := pitch
    active := 1
    ring := slots.foldl (fun m x => ringWrite tiny m 0 x.1 x.2) [] }

/-- RS1: W = 2, R = 0.5, P = 1.0, taps 1.0 and 2.0. -/
theorem test_read_sample_RS1 :
    (readState 2 0x3F800000#32 [(2, 0x3F800000#32), (3, 0x40000000#32)]).readSample 0 0x3FE0000000000000#64
      = some (0x3FC00000#32, 0x3FF8000000000000#64) := by decide +kernel
/-- RS2. -/
theorem test_read_sample_RS2 :
    (readState 2 0x3FA00000#32 [(2, 0xC0000000#32), (3, 0x40C00000#32)]).readSample 0 0x3FE8000000000000#64
      = some (0x40800000#32, 0x4000000000000000#64) := by decide +kernel
/-- RS3: a negative read position reads slots 7 and 0. -/
theorem test_read_sample_RS3 :
    (readState 0 0x3F800000#32 [(7, 0x40800000#32), (0, 0x41000000#32)]).readSample 0 0xBFE0000000000000#64
      = some (0x40C00000#32, 0x3FE0000000000000#64) := by decide +kernel
/-- RS5: R exactly C - 1 is kept. -/
theorem test_read_sample_RS5 :
    (readState 0 0x3FC00000#32 [(5, 0x3F800000#32), (6, 0x40000000#32)]).readSample 0 0x4016000000000000#64
      = some (0x3FC00000#32, 0x401C000000000000#64) := by decide +kernel
/-- RS7: the normalisation leaves a negative R. -/
theorem test_read_sample_RS7 :
    (readState 0 0x3F000000#32 [(6, 0x3F800000#32), (7, 0x40000000#32)]).readSample 0 0x401B000000000000#64
      = some (0x3FE00000#32, 0xBFE8000000000000#64) := by decide +kernel
/-- RS11: a finite tap and +infinity. -/
theorem test_read_sample_RS11 :
    (readState 3 0x3F800000#32 [(3, 0x3F800000#32), (4, 0x7F800000#32)]).readSample 0 0x3FE0000000000000#64
      = some (0x7F800000#32, 0x3FF8000000000000#64) := by decide +kernel
/-- RS12: two infinities give the free NaN. -/
theorem test_read_sample_RS12 :
    (readState 3 0x3F800000#32 [(3, 0x7F800000#32), (4, 0x7F800000#32)]).readSample 0 0x3FE0000000000000#64
      = some (nanResult 0x7F800000#32 0x7F800000#32 0x3FE0000000000000#64, 0x3FF8000000000000#64) := by rfl
/-- RS15 to RS17: the sign of a negative zero at an integer position. -/
theorem test_interpolate_negative_zero :
    interpolate 0x80000000#32 0x3F800000#32 0#64 = 0#32 ∧ interpolate 0x80000000#32 0xBF800000#32 0#64 = 0x80000000#32
      ∧ interpolate 0x80000000#32 0x80000000#32 0#64 = 0#32 := by decide +kernel
/-- RS18 to RS20: ties to even, subnormals, no overflow. -/
theorem test_interpolate_rounding :
    interpolate 0x3F800000#32 0x3F800001#32 0x3FE0000000000000#64 = 0x3F800000#32
      ∧ interpolate 0x00000001#32 0x00000003#32 0x3FE0000000000000#64 = 0x00000002#32
      ∧ interpolate 0x7F7FFFFF#32 0xFF7FFFFF#32 0x3FE0000000000000#64 = 0x00000000#32 := by decide +kernel
/-- RS21: R = -2^-60, W = 0: frac rounds to 1.0. -/
theorem test_read_sample_RS21 :
    (readState 0 0x3F800000#32 [(7, 0x40A00000#32), (0, 0x41100000#32)]).readSample 0 0xBC30000000000000#64
      = some (0x41100000#32, 0x3FF0000000000000#64) := by decide +kernel
/-- VM §8 property 5, second row: rounded twice. -/
theorem test_interpolate_quarter :
    interpolate 0x3DCCCCCD#32 0x3F333333#32 0x3FD0000000000000#64 = 0x3E800000#32 := by decide +kernel

/-! ## The Engine (95_test_vectors.md sections 2.3, 2.6) -/

/-- BP1: the first mono block after reset. -/
theorem test_process_BP1 :
    (nextOf (State.engineStep { idle with
        inflight := .process 1 1
        mem := four [] 0x10000 0x3F800000#32 0x40000000#32 0x40400000#32 0x40800000#32 })).map
      (fun s => (s.active, s.wcur, s.roff, (List.range 4).map (s.obuf 0), (List.range 8).map (s.slot 0)))
    = some (1, 4, 0x4010000000000000#64, [0#32, 0#32, 0#32, 0#32],
        [0x3F800000#32, 0x40000000#32, 0x40400000#32, 0x40800000#32, 0#32, 0#32, 0#32, 0#32]) := by decide +kernel

/-- BP7: P = 2.0 reads positions 4, 6, 0, 2. -/
theorem test_process_BP7 :
    (nextOf (State.engineStep { idle with
        inflight := .process 1 1
        active := 1
        pitch := 0x40000000#32
        mem := four [] 0x10000 0x3F800000#32 0x40000000#32 0x40400000#32 0x40800000#32 })).map
      (fun s => (s.wcur, s.roff, (List.range 4).map (s.obuf 0)))
    = some (4, 0#64, [0#32, 0#32, 0x3F800000#32, 0x40400000#32]) := by decide +kernel

/-- WP3, at C = 8, N = 3: a mono block in a stereo engine wraps and silences channel 1. -/
theorem test_write_block_WP3 :
    (fun s : State => (s.wcur, (List.range 8).map (s.slot 0), (List.range 8).map (s.slot 1)))
      (State.writeBlock { idle with
        par := { cap := 8, blk := 3, nch := 2 }
        wcur := 6
        active := 2
        ring := ring8 (ring8 [] 0 [1, 2, 3, 4, 5, 6, 7, 8]) 1 [1, 2, 3, 4, 5, 6, 7, 8]
        mem := four [] 0x10000 0x3F800000#32 0x40000000#32 0x40400000#32 0 } 1)
    = (1, [0x40400000#32, 2, 3, 4, 5, 6, 0x3F800000#32, 0x40000000#32], [0#32, 2, 3, 4, 5, 6, 0#32, 0#32]) := by
  decide +kernel

/-- PS6: a NaN pitch is refused. -/
theorem test_process_nan_pitch :
    State.engineStep { idle with inflight := .process 1 1, pend := true, pstage := 0x7FC00000#32 }
      = .refused .nonFinitePitch := by rfl

/-- P3, lines 39 to 41: a no-input block discards the staged pitch. -/
theorem test_no_input_discards_pitch :
    (nextOf (State.engineStep { idle with inflight := .process 0 2, pend := true, pstage := 0x3F000000#32 })).map
      (fun s => (s.pitch, s.pend, s.obuf 1 3)) = some (0x3F800000#32, false, 0#32) := by decide +kernel

/-- The reset clear completes to the idle engine state (R262). -/
theorem test_reset_clear : State.engineStep State.reset = .next { State.reset with inflight := .none } := rfl

/-! ## The step -/

/-- V-RESET: STATUS reads 1 as the first access after reset. -/
theorem test_step_first_access :
    step (State.reset.withFetchWord 24 0x0000C) = .next { State.reset with reads := [0x00000001#32] } := rfl

/-- A host access while reset is asserted is refused (R260). -/
theorem test_step_access_during_reset :
    step { idle with rst := true, events := [.host (.read 32 0#18)] } = .refused .accessDuringReset := rfl

/-! ## Witnesses: for each statement with hypotheses, a state and operands that meet them together -/

/-- The idle state with a command in flight and a schedule meets the invariant. -/
theorem inv_tiny (f : InFlight) (ev : List Event)
    (hf : ∀ nin nout, f = .process nin nout → nin.toNat ≤ 2 ∧ nout.toNat ≤ 2) :
    Inv { idle with inflight := f, events := ev } where
  legal := show tiny.Legal by decide
  wcur_lt := show 0 < 8 by decide
  active_le := show 0 ≤ 2 by decide
  ring_wf := show Memory.wf _ [] by decide
  ring_populated := fun _ h => absurd h List.not_mem_nil
  mem_wf := show Memory.wf _ [] by decide
  mem_window := fun _ h => absurd h List.not_mem_nil
  operands := hf
  pitch_finite := show isFinite32 0x3F800000#32 = true by decide
  roff_bounded := ⟨0, show real64 0#64 = some 0 by decide +kernel,
    show |(0 : Rat)| < ((8 : Nat) : Rat) by decide +kernel⟩

theorem inv_idle (ev : List Event) : Inv { idle with inflight := .none, events := ev } :=
  inv_tiny .none ev (by intro _ _ h; cases h)

/-- A mono block in flight with two output channels: channel 0 is read, channel 1 has no buffer. -/
def block : State :=
  { idle with
    inflight := .process 1 2
    mem := four [] 0x10000 0x3F800000#32 0x40000000#32 0x40400000#32 0x40800000#32 }

/-- The completion of `block`. -/
def blockDone : State := (nextOf block.engineStep).getD block

theorem witness_DecodeOfEncode : tiny.Legal ∧ WellFormed tiny (.rdIbuf 1 3) = true
    ∧ WellFormed tiny (.process 2 2) = true ∧ WellFormed tiny (.illegalCmd 0xFFFFFFFF#32) = true := by decide
theorem witness_EncodeOfDecode : decode tiny (.read 32 0x1100C#18) = .ok (.rdIbuf 1 3) := by decide
theorem witness_OnlyAlignedWordAccessesAreAdmitted :
    (∃ s : State, s.rst = false ∧ s.events = .host (.read 16 0#18) :: [])
      ∧ (16 ≠ 32 ∧ (0x00002#18 : Addr).extractLsb' 0 2 ≠ 0#2 ∧ (0x3FFFC#18 : Addr).extractLsb' 0 2 = 0#2) :=
  ⟨⟨{ idle with events := [.host (.read 16 0#18)] }, rfl, rfl⟩, by decide⟩
theorem witness_StepRunsDecodedInstruction :
    ∃ s : State, s.rst = false ∧ s.events = .host (.cmd 1#32) :: [] ∧ decode s.par (.cmd 1#32) = .ok .init :=
  ⟨{ idle with events := [.host (.cmd 1#32)] }, rfl, rfl, by decide⟩
theorem witness_EngineTurnCompletesInFlight :
    block.rst = false ∧ { block with events := [.engine] }.events = .engine :: [] ∧ block.events = []
      ∧ idle.inflight = .none ∧ (State.resetWith tiny).inflight = .clear ∧ block.inflight = .process 1 2 := by decide
theorem witness_IdleBlockKeepsItsState : idle.Finished := by decide
theorem witness_ResetAbandonsAndRestores :
    { block with rst := true, events := [.resetRelease] }.rst = true
      ∧ { block with rst := true, events := [.resetRelease] }.events = .resetRelease :: []
      ∧ { block with rst := true, events := [.engine] }.events = .engine :: []
      ∧ { block with rst := true, events := [.host (.cmd 1#32)] }.events = .host (.cmd 1#32) :: []
      ∧ { block with events := [.resetAssert] }.events = .resetAssert :: []
      ∧ { block with rst := true }.events = []
      ∧ { block with events := [.resetRelease] }.rst = false := by decide
theorem witness_InvariantHoldsAtReset : tiny.Legal
    ∧ Params.Legal { cap := 2 ^ 24, blk := 1024, nch := 16 } ∧ Params.Legal { cap := 2, blk := 1, nch := 1 } := by decide
theorem witness_StepKeepsInvariant :
    ∃ s t : State, Inv s ∧ s.inflight = .clear ∧ step s = .next t :=
  ⟨_, _, inv_tiny .clear [.engine] (by intro _ _ h; cases h), rfl, rfl⟩
theorem witness_UnpopulatedChannelsHoldZero : ∃ s : State, Inv s ∧ s.active ≤ 0 ∧ 7 < s.par.cap :=
  ⟨_, inv_idle [], by decide, by decide⟩
theorem witness_OnlyCommandsAndResetChangeEngineState :
    (∃ t, exec .init idle = .next t)
      ∧ ∃ t, step { idle with wcur := 1, inflight := .clear } = .next t
        ∧ ¬ SameEngineState { idle with wcur := 1, inflight := .clear } t :=
  ⟨⟨_, rfl⟩, _, rfl, by decide⟩
theorem witness_ConfigReadsGiveParameters : idle.par.Legal ∧ State.reset.par = Params.standard := by decide
theorem witness_EngineRegistersReadWhileIdle : ∃ s : State, s.inflight = .none ∧ Inv s := ⟨_, rfl, inv_idle []⟩
theorem witness_BusyReadsReturnFreeValue :
    block.inflight ≠ .none ∧ (1 : BitVec 4).toNat < block.par.nch ∧ (3 : BitVec 10).toNat < block.par.blk := by decide
theorem witness_IbufReadReturnsStoredWord :
    (1 : BitVec 4).toNat < idle.par.nch ∧ (3 : BitVec 10).toNat < idle.par.blk := by decide
theorem witness_ObufReadReturnsStoredWordWhileIdle :
    idle.inflight = .none ∧ (1 : BitVec 4).toNat < idle.par.nch ∧ (3 : BitVec 10).toNat < idle.par.blk := by decide
theorem witness_ReadsHaveNoSideEffects :
    Instr.rdStatus ∈ [Instr.rdCfgCap, .rdStatus] ∧ idle.inflight = .none ∧ block.inflight ≠ .none
      ∧ Instr.rdStatus ∉ [Instr.rdPitch, .rdWcur, .rdActive, .rdRoffLo, .rdRoffHi]
      ∧ (∀ c j, Instr.rdStatus = .rdObuf c j → ¬ (c.toNat < block.par.nch ∧ j.toNat < block.par.blk)) :=
  ⟨by decide, by decide, by decide, by decide, fun _ _ h => by cases h⟩
theorem witness_ReservedAddressesReadZeroAndIgnoreWrites :
    block.rst = false ∧ reservedAddr block.par 0x00028#18 = true ∧ reservedAddr block.par 0x10010#18 = true
      ∧ reservedAddr block.par 0x3FFFC#18 = true := by decide
theorem witness_PitchWriteStagesTheWord : idle.inflight = .none ∧ block.inflight ≠ .none := by decide
theorem witness_LastPitchWriteWins :
    idle.inflight = .none
      ∧ (nextOf ({ idle with pstage := 0x3FC00000#32, pend := true }.completeProcess 1 1)).isSome = true := by
  decide +kernel
theorem witness_IbufWriteStoresTheWord :
    idle.inflight = .none ∧ (1 : BitVec 4).toNat < idle.par.nch ∧ (3 : BitVec 10).toNat < idle.par.blk
      ∧ block.inflight ≠ .none
      ∧ ¬ ((2 : BitVec 4).toNat < idle.par.nch ∧ (3 : BitVec 10).toNat < idle.par.blk)
      ∧ ¬ ((1 : BitVec 4).toNat < idle.par.nch ∧ (4 : BitVec 10).toNat < idle.par.blk) := by decide
theorem witness_CmdWriteDispatch :
    block.inflight ≠ .none ∧ idle.inflight = .none ∧ legalCmd idle.par 0x00030102#32 = false
      ∧ (legalCmd idle.par 0#32 = true ∧ (0#32 : Word).extractLsb' 0 4 = 0x0#4)
      ∧ (legalCmd idle.par 1#32 = true ∧ (1#32 : Word).extractLsb' 0 4 = 0x1#4)
      ∧ (legalCmd idle.par 0x00020202#32 = true ∧ (0x00020202#32 : Word).extractLsb' 0 4 = 0x2#4) := by decide
theorem witness_CommandsSubmittedWhileIdle :
    idle.inflight = .none ∧ (2 : BitVec 5).toNat ≤ idle.par.nch ∧ idle.par.nch < (3 : BitVec 5).toNat := by decide
theorem witness_BusyWritesAreDiscarded :
    block.inflight ≠ .none ∧ Instr.nop ∈ [Instr.nop, .init]
      ∧ ∃ t, exec (.wrIbuf 1 3 0) block = .next t ∧ block.errBusy = false ∧ t.errBusy = true :=
  ⟨by decide, by decide, _, rfl, rfl, rfl⟩
theorem witness_ErrCmdOnlyFromIllegalWordWhileIdle :
    ∃ t, exec (.wrCmd 0x00000003#32) idle = .next t ∧ idle.errCmd = false ∧ t.errCmd = true := ⟨_, rfl, rfl, rfl⟩
theorem witness_CommandInputsFrozenWhileBusy : block.inflight ≠ .none ∧ ∃ t, exec (.wrPitchIn 5) block = .next t :=
  ⟨by decide, _, rfl⟩
theorem witness_ErrorFlagsDoNotAffectExecution :
    (∃ t, Instr.init ≠ .rdStatus ∧ exec .init idle = .next t) ∧ (∃ t, State.reset.engineStep = .next t)
      ∧ ∃ r, { block with pitch := 0x7F800000#32 }.engineStep = .refused r :=
  ⟨⟨_, by decide, rfl⟩, ⟨_, rfl⟩, _, rfl⟩
theorem witness_UnpendedStageIsUnobservable :
    SameButUnusedStage block { block with pstage := 5 } ∧ SameButUnusedStage idle { idle with pstage := 5 }
      ∧ (∃ t, step idle = .next t)
      ∧ ∃ r, step { block with pitch := 0x7F800000#32 } = .refused r :=
  ⟨by decide, by decide, ⟨_, rfl⟩, _, rfl⟩
theorem witness_ClearRecreatesEngineState : (State.resetWith tiny).inflight = .clear := rfl
theorem witness_InitRunsToCompletion :
    ∃ s : State, s.inflight = .none ∧ s.rst = false ∧ s.events = .host (.cmd 1#32) :: .engine :: [] :=
  ⟨{ idle with events := [.host (.cmd 1#32), .engine] }, rfl, rfl, rfl⟩
theorem witness_NoInputBlockIsSilence : ∃ s : State, s.par.Legal ∧ s.inflight = .process 0 2 :=
  ⟨{ idle with inflight := .process 0 2 }, by decide, rfl⟩

/-- The hypotheses of the statements about a block with input: InputBlockEndState, InputBlockLeavesOtherSlots,
ProcessWritesOnlyItsOutputWords, UnpopulatedOutputsAreSilent (channel 1) and OutputSamplesAreInterpolated
(channel 0). -/
theorem witness_InputBlock :
    block.par.Legal ∧ block.inflight = .process 1 2 ∧ (1 : BitVec 5).toNat ≠ 0 ∧ block.engineStep = .next blockDone
      ∧ max block.active (1 : BitVec 5).toNat ≤ 1 ∧ 1 < (2 : BitVec 5).toNat ∧ 3 < block.par.blk
      ∧ 0 < max block.active (1 : BitVec 5).toNat
      ∧ (∀ i, i < block.par.blk → 7 ≠ (block.wcur + i) % block.par.cap)
      ∧ ∀ c i, c < (2 : BitVec 5).toNat → i < block.par.blk → 0x10000 < obufAddr c i ∨ obufAddr c i + 4 ≤ 0x10000 := by
  refine ⟨by decide, rfl, by decide, ?_, by decide, by decide, by decide, by decide, by decide,
    fun c i _ _ => .inl (by unfold obufAddr; omega)⟩
  have h : (nextOf block.engineStep).isSome = true := by decide +kernel
  unfold blockDone
  rcases he : block.engineStep with t | f | r <;> rw [he] at h <;> first | rfl | exact absurd h Bool.false_ne_true

theorem witness_NonFinitePitchIsRefused :
    ∃ s : State, s.inflight = .process 1 1 ∧ isFinite32 s.blockPitch = false ∧ (1 : BitVec 5).toNat ≠ 0 :=
  ⟨{ idle with inflight := .process 1 1, pend := true, pstage := 0x7F800000#32 }, rfl, by decide, by decide⟩
theorem witness_NonFinitePitchNoInput :
    ∃ s : State, s.inflight = .process 0 1 ∧ isFinite32 s.blockPitch = false ∧ (0 : BitVec 5).toNat = 0 :=
  ⟨{ idle with inflight := .process 0 1, pend := true, pstage := 0xFFC00000#32 }, rfl, by decide, by decide⟩
theorem witness_CompletionIsNeverBlocked :
    ∃ s : State, Inv s ∧ s.inflight = .process 2 2 ∧ isFinite32 s.blockPitch = true :=
  ⟨_, inv_tiny (.process 2 2) [] (by intro _ _ h; cases h; decide), rfl, by decide⟩
theorem witness_ProcessRunsToCompletion :
    ∃ s : State, Inv s ∧ s.inflight = .none ∧ s.rst = false ∧ (2 : BitVec 5).toNat ≤ s.par.nch
      ∧ isFinite32 s.blockPitch = true ∧ s.events = .host (.cmd (processWord 2 2)) :: .engine :: [] :=
  ⟨_, inv_idle [.host (.cmd (processWord 2 2)), .engine], rfl, rfl, by decide, by decide, rfl⟩
theorem witness_BlockDependsOnItsInputsAlone :
    block.par.Legal ∧ block.inflight = .process 1 2 ∧ block.engineStep = .next blockDone
      ∧ (∀ c i, c < (1 : BitVec 5).toNat → i < block.par.blk →
        { block with mem := four block.mem 0x20000 9 9 9 9, epoch := 7 }.ibuf c i = block.ibuf c i) := by
  refine ⟨by decide, rfl, witness_InputBlock.2.2.2.1, ?_⟩
  intro c i hc hi
  have hc : c = 0 := by simpa using hc
  have hi : i < 4 := hi
  subst hc
  interval_cases i <;> decide +kernel
theorem witness_real_values :
    real64 0x3FE0000000000000#64 = some (1 / 2) ∧ real64 0xBFE8000000000000#64 = some (-3 / 4)
      ∧ real64 0#64 = some 0 ∧ real64 0x4020000000000000#64 = some 8 ∧ real32 0x3FC00000#32 = some (3 / 2)
      ∧ real32 0x80000000#32 = some 0 ∧ real32 0xBF800000#32 = some (-1) := by decide +kernel
theorem witness_ConversionsToBinary64AreExact : |(2 ^ 53 - 1 : Int)| < 2 ^ 53 ∧ real32 0x3FC00000#32 = some (3 / 2)
    ∧ isNan32 0xFFC00001#32 = true := by decide +kernel
theorem witness_Binary64ArithmeticRoundsToNearestEven :
    real64 0x3FE0000000000000#64 = some (1 / 2) ∧ real64 0xBFE8000000000000#64 = some (-3 / 4)
      ∧ |(1 / 2 : Rat) + (-3 / 4)| < 2 ^ 1024 - 2 ^ 970
      ∧ real64 0x7FE0000000000000#64 = some (2 ^ 1023) ∧ real64 0xFFE0000000000000#64 = some (-2 ^ 1023)
      ∧ (2 ^ 1024 - 2 ^ 970 : Rat) ≤ 2 ^ 1023 + 2 ^ 1023
      ∧ (-2 ^ 1023 - 2 ^ 1023 : Rat) ≤ -(2 ^ 1024 - 2 ^ 970)
      ∧ real64 0x8000000000000000#64 = some 0 ∧ (0 : Rat) + 0 = 0 ∧ (0 : Rat) - 0 = 0 ∧ (0 : Rat) * (-3 / 4) = 0
      ∧ (-3 / 4 : Rat) ≠ 0 ∧ isNan64 0xFFF8000000000000#64 = true := by decide +kernel
theorem witness_ConversionToBinary32RoundsToNearestEven :
    real64 0x3FE0000000000000#64 = some (1 / 2) ∧ |(1 / 2 : Rat)| < 2 ^ 128 - 2 ^ 103
      ∧ real64 0x4800000000000000#64 = some (2 ^ 129) ∧ (2 ^ 128 - 2 ^ 103 : Rat) ≤ 2 ^ 129
      ∧ real64 0xC7EFFFFFF0000000#64 = some (-(2 ^ 128 - 2 ^ 103))
      ∧ real64 0x8000000000000000#64 = some 0 ∧ isNan64 0x7FF8000000000000#64 = true := by decide +kernel
theorem witness_FloorAndComparisonAreExact :
    real64 0xBFE8000000000000#64 = some (-3 / 4) ∧ real64 0x3FE0000000000000#64 = some (1 / 2)
      ∧ isNan64 0x7FF8000000000000#64 = true := by decide +kernel
theorem witness_RemainderIsExact :
    real64 0xC023000000000000#64 = some (-19 / 2) ∧ real64 0x4020000000000000#64 = some 8 ∧ (0 : Rat) < 8 := by
  decide +kernel
theorem witness_Binary32RoundTrip : isNan32 0x7F800000#32 = false ∧ isNan32 0x80000001#32 = false := by decide
theorem witness_IntegerPositionCopiesTheSlot :
    isFinite32 0x3DCCCCCD#32 = true ∧ 0x3DCCCCCD#32 ≠ 0x80000000#32 ∧ isFinite32 0x80000000#32 = true
      ∧ real32 0xBF800000#32 = some (-1) ∧ real32 0x80000000#32 = some 0 := by decide +kernel
theorem witness_NanOutputs :
    real64 0x3FE0000000000000#64 = some (1 / 2) ∧ isNan32 0x7FC00000#32 = true
      ∧ value32 0x7F800000#32 = .inf false ∧ real64 0#64 = some 0
      ∧ value64 (sub64 (f64OfF32 0x7F800000#32) (f64OfF32 0x3F800000#32)) = .inf false
      ∧ value64 (mul64 0x3FE0000000000000#64 (sub64 (f64OfF32 0x3F800000#32) (f64OfF32 0x7F800000#32))) = .inf true := by
  decide +kernel
theorem witness_TapDifferenceNeverOverflows :
    isFinite32 0x7F7FFFFF#32 = true ∧ isFinite32 0xFF7FFFFF#32 = true ∧ real64 0x3FE0000000000000#64 = some (1 / 2)
      ∧ real64 0#64 = some 0 := by decide +kernel
theorem offset_in_range : OffsetInRange tiny 0xBFE8000000000000#64 :=
  ⟨-12582912, by decide +kernel, by decide, by decide⟩
theorem witness_InRangeAdvanceIsExactAndBounded :
    tiny.Legal ∧ OffsetInRange tiny 0xBFE8000000000000#64 ∧ PitchInRange 0x3F000000#32 ∧ PitchInRange 0x40000000#32 :=
  ⟨by decide, offset_in_range, ⟨1 / 2, by decide +kernel, by decide +kernel, by decide +kernel⟩,
    ⟨2, by decide +kernel, by decide +kernel, by decide +kernel⟩⟩
theorem witness_InRangeReadPositionIsExact :
    tiny.Legal ∧ 7 < tiny.cap ∧ OffsetInRange tiny 0xBFE8000000000000#64
      ∧ real64 0xBFE8000000000000#64 = some (-3 / 4)
      ∧ OffsetInRange tiny 0x3FF0000000000000#64 ∧ real64 0x3FF0000000000000#64 = some 1
      ∧ (tiny.cap : Rat) ≤ (7 : Nat) + 1 ∧ ¬ (tiny.cap : Rat) ≤ (7 : Nat) + (-3 / 4) :=
  ⟨by decide, by decide, offset_in_range, by decide +kernel, ⟨16777216, by decide +kernel, by decide, by decide⟩,
    by decide +kernel, by decide +kernel, by decide +kernel⟩
theorem witness_FinalNormalizeBoundsTheOffset :
    tiny.Legal ∧ real64 0xC023000000000000#64 = some (-19 / 2) ∧ real64 0x3FE0000000000000#64 = some (1 / 2)
      ∧ |(1 / 2 : Rat)| < tiny.cap := by decide +kernel
theorem witness_InRangePitchKeepsOffsetBounded :
    ∃ s : State, s.par.Legal ∧ s.wcur < s.par.cap ∧ s.inflight = .process 1 2 ∧ (1 : BitVec 5).toNat ≠ 0
      ∧ OffsetInRange s.par s.roff ∧ PitchInRange s.blockPitch :=
  ⟨{ block with roff := 0xBFE8000000000000#64 }, by decide, by decide, rfl, by decide, offset_in_range,
    1, by decide +kernel, by decide +kernel, by decide +kernel⟩

end Sys2Proof.Tests
end

section
/-! SUPPORT. Signed dyadic rationals and integers nearest to a rational: the exact side of the rounding of R14. -/

namespace Sys2Proof.Machine

/-! ## Dyadic rationals -/

@[simp] theorem dyadic_zero (n : Bool) (e : Int) : dyadic n 0 e = 0 := by simp [dyadic]

theorem dyadic_false (m : Nat) (e : Int) : dyadic false m e = m * (2 : Rat) ^ e := by simp [dyadic]

theorem dyadic_not (n : Bool) (m : Nat) (e : Int) : dyadic (!n) m e = -dyadic n m e := by
  cases n <;> simp [dyadic]

theorem dyadic_eq_zero_iff {n : Bool} {m : Nat} {e : Int} : dyadic n m e = 0 ↔ m = 0 := by
  cases n <;> simp [dyadic, zpow_ne_zero]

theorem abs_dyadic (n : Bool) (m : Nat) (e : Int) : |dyadic n m e| = m * (2 : Rat) ^ e := by
  have h : (0 : Rat) ≤ m * (2 : Rat) ^ e := by positivity
  cases n
  · rw [dyadic_false, abs_of_nonneg h]
  · rw [← Bool.not_false, dyadic_not, dyadic_false, abs_neg, abs_of_nonneg h]

theorem dyadic_nonneg (m : Nat) (e : Int) : 0 ≤ dyadic false m e := by
  rw [dyadic_false]; positivity

/-- The sign of a nonzero dyadic is its sign flag. -/
theorem dyadic_neg_iff {n : Bool} {m : Nat} {e : Int} : dyadic n m e < 0 ↔ n = true ∧ m ≠ 0 := by
  have h := dyadic_nonneg m e
  have h0 := @dyadic_eq_zero_iff false m e
  cases n
  · simp [h]
  · rw [← Bool.not_false, dyadic_not, neg_lt_zero, lt_iff_le_and_ne, ne_comm, ne_eq, h0]
    simp [h]

theorem dyadic_pos_iff {n : Bool} {m : Nat} {e : Int} : 0 < dyadic n m e ↔ n = false ∧ m ≠ 0 := by
  rw [← neg_lt_zero, ← dyadic_not, dyadic_neg_iff]
  simp

theorem dyadic_mul (n n' : Bool) (m m' : Nat) (e e' : Int) :
    dyadic n m e * dyadic n' m' e' = dyadic (n != n') (m * m') (e + e') := by
  unfold dyadic
  rw [zpow_add₀ two_ne_zero]
  cases n <;> cases n' <;> simp <;> ring

theorem dyadic_eq_signed (n : Bool) (m : Nat) (e : Int) : dyadic n m e = (signed n m : Int) * (2 : Rat) ^ e := by
  cases n <;> simp [dyadic, signed]

/-- A dyadic as a multiple of a smaller power of two. -/
theorem dyadic_eq_scaled (n : Bool) (m : Nat) {q e : Int} (h : q ≤ e) :
    dyadic n m e = (scaled q n m e : Int) * (2 : Rat) ^ q := by
  unfold scaled
  rw [← dyadic_eq_signed, ← dyadic_shift n m (e - q).toNat e]
  congr 1
  omega

/-- An integer multiple of a power of two, as a sign and a magnitude; the sign of zero is free. -/
theorem dyadic_natAbs {n : Bool} {k : Int} (q : Int) (hneg : k < 0 → n = true) (hpos : 0 < k → n = false) :
    dyadic n k.natAbs q = k * (2 : Rat) ^ q := by
  have h : signed n k.natAbs = k := by
    unfold signed
    rcases lt_trichotomy k 0 with hk | rfl | hk
    · rw [hneg hk, if_pos rfl]; omega
    · simp
    · rw [hpos hk, if_neg Bool.false_ne_true]; omega
  rw [dyadic_eq_signed, h]

/-! ## Rounding to the nearest integer -/

/-- `k` is an integer nearest to `X`, the even one at a tie. -/
def NearestEven (k : Nat) (X : Rat) : Prop :=
  ∀ j : Int, |(k : Rat) - X| ≤ |(j : Rat) - X| ∧ (|(k : Rat) - X| = |(j : Rat) - X| → j ≠ k → k % 2 = 0)

theorem nearestEven_of_abs_sub_le_half {k : Nat} {X : Rat} (h : |(k : Rat) - X| ≤ 1 / 2)
    (htie : |(k : Rat) - X| = 1 / 2 → k % 2 = 0) : NearestEven k X := by
  intro j
  by_cases hj : j = k
  · subst hj; simp
  have h1 : (1 : Rat) ≤ |(j : Rat) - k| := by
    have : (1 : Int) ≤ |j - k| := Int.one_le_abs (sub_ne_zero.2 hj)
    exact_mod_cast this
  have h2 : |(j : Rat) - k| ≤ |(j : Rat) - X| + |(k : Rat) - X| := by
    rw [abs_sub_comm (k : Rat) X]; exact abs_sub_le _ _ _
  exact ⟨by linarith, fun heq _ => htie (by linarith)⟩

theorem nearestEven_natCast (k : Nat) : NearestEven k (k : Rat) :=
  nearestEven_of_abs_sub_le_half (by simp) (by simp)

/-- Exactly half a unit from `m / 2^s` the rounded quotient is even. -/
theorem roundHalfEven_even_of_half {m s : Nat}
    (h : 2 * (roundHalfEven m s * 2 ^ s) = 2 * m + 2 ^ s ∨ 2 * m = 2 * (roundHalfEven m s * 2 ^ s) + 2 ^ s) :
    roundHalfEven m s % 2 = 0 := by
  apply roundHalfEven_even
  have hdiv := Nat.div_add_mod' m (2 ^ s)
  have hmod := Nat.mod_lt m (Nat.two_pow_pos s)
  have hk : roundHalfEven m s = m / 2 ^ s ∨ roundHalfEven m s = m / 2 ^ s + 1 := by
    have h1 := le_roundHalfEven m s
    have h2 := roundHalfEven_le m s
    omega
  rcases hk with hk | hk <;> rw [hk] at h
  · omega
  · rw [Nat.add_mul] at h
    omega

theorem roundHalfEven_nearestEven (m s : Nat) : NearestEven (roundHalfEven m s) ((m : Rat) / 2 ^ s) := by
  have hD : (0 : Rat) < 2 ^ s := by positivity
  obtain ⟨hlo, hhi⟩ := roundHalfEven_near m s
  have hlo' : 2 * ((roundHalfEven m s : Rat) * 2 ^ s) ≤ 2 * m + 2 ^ s := by exact_mod_cast hlo
  have hhi' : 2 * (m : Rat) ≤ 2 * ((roundHalfEven m s : Rat) * 2 ^ s) + 2 ^ s := by exact_mod_cast hhi
  have hsub : (roundHalfEven m s : Rat) - m / 2 ^ s = (roundHalfEven m s * 2 ^ s - m) / 2 ^ s := by
    rw [sub_div, mul_div_cancel_right₀ _ hD.ne']
  apply nearestEven_of_abs_sub_le_half
  · rw [hsub, abs_div, abs_of_pos hD, div_le_iff₀ hD, abs_le]
    constructor <;> linarith
  · intro htie
    rw [hsub, abs_div, abs_of_pos hD, div_eq_iff hD.ne', abs_eq (by positivity)] at htie
    apply roundHalfEven_even_of_half
    rcases htie with h | h
    · left
      have : 2 * ((roundHalfEven m s : Rat) * 2 ^ s) = 2 * m + 2 ^ s := by linarith
      exact_mod_cast this
    · right
      have : 2 * (m : Rat) = 2 * ((roundHalfEven m s : Rat) * 2 ^ s) + 2 ^ s := by linarith
      exact_mod_cast this

/-- A nearest integer is also nearest among the points that are integers or lie below an integer under `X`. -/
theorem NearestEven.abs_sub_le {k : Nat} {X U : Rat} (h : NearestEven k X)
    (hU : (∃ j : Int, U = j) ∨ ∃ b : Nat, U < b ∧ b ≤ X) :
    |(k : Rat) - X| ≤ |U - X| ∧ (|(k : Rat) - X| = |U - X| → U ≠ k → k % 2 = 0) := by
  rcases hU with ⟨j, rfl⟩ | ⟨b, hUb, hbX⟩
  · obtain ⟨hle, htie⟩ := h j
    exact ⟨hle, fun heq hne => htie heq (by rintro rfl; exact hne (by simp))⟩
  · have hb : |(k : Rat) - X| ≤ |(b : Rat) - X| := by simpa using (h b).1
    rw [abs_of_nonpos (by linarith : (b : Rat) - X ≤ 0)] at hb
    rw [abs_of_nonpos (by linarith : U - X ≤ 0)]
    exact ⟨by linarith, fun heq => absurd heq (by intro heq; linarith)⟩

/-- Rounding stays below the even bound `b` exactly when the value is more than half a unit below it. -/
theorem NearestEven.lt_iff {k b : Nat} {X : Rat} (h : NearestEven k X) (hkb : k ≤ b) (hb : b % 2 = 0) :
    k < b ↔ X < b - 1 / 2 := by
  constructor
  · intro hk
    have hk' : (k : Rat) ≤ b - 1 := by
      have : (k : Rat) + 1 ≤ b := by exact_mod_cast hk
      linarith
    obtain ⟨hle, htie⟩ := h b
    by_contra hX
    rw [abs_of_nonpos (by linarith : (k : Rat) - X ≤ 0)] at hle htie
    simp only [Int.cast_natCast] at hle htie
    rcases abs_cases ((b : Rat) - X) with ⟨ha, -⟩ | ⟨ha, -⟩ <;> rw [ha] at hle htie
    · have hodd := htie (by linarith) (by exact_mod_cast hk.ne')
      have : (k : Rat) = b - 1 := by linarith
      have : k + 1 = b := by
        have : (k : Rat) + 1 = b := by linarith
        exact_mod_cast this
      omega
    · linarith
  · intro hX
    rcases hkb.lt_or_eq with hlt | rfl
    · exact hlt
    · exfalso
      have hle := (h ((k : Int) - 1)).1
      push_cast at hle
      rw [abs_of_pos (by linarith)] at hle
      rcases abs_cases ((k : Rat) - 1 - X) with ⟨ha, -⟩ | ⟨ha, -⟩ <;> linarith

end Sys2Proof.Machine
end

section
/-! SUPPORT. `roundMag` gives a nearest value of the format, the even one at a tie, and infinity from the overflow
threshold on (R14). Stated for any interchange format, so that binary32 and binary64 share one proof. -/

namespace Sys2Proof.Machine

/-! ## Interchange formats and the values they hold -/

/-- The number of binades above the subnormal one: `emin + topOffset` is the largest unit exponent. -/
def FpFormat.topOffset (f : FpFormat) : Nat := f.infMag / 2 ^ (f.prec - 1) - 2

/-- The least magnitude that rounds to infinity: half a unit above the largest finite value (R14). -/
def FpFormat.overflow (f : FpFormat) : Rat := (2 ^ f.prec - 1 / 2) * (2 : Rat) ^ (f.emin + f.topOffset)

/-- The shape the two formats of R13 share: the pattern of infinity has a zero fraction and leaves the top bit of the
`w + 1` bits to the sign. -/
structure FpFormat.Interchange (f : FpFormat) (w : Nat) : Prop where
  two_le_prec : 2 ≤ f.prec
  infMag_eq : f.infMag = (f.topOffset + 2) * 2 ^ (f.prec - 1)
  infMag_lt : f.infMag < 2 ^ w

theorem binary32_interchange : binary32.Interchange 31 := ⟨by decide, by decide, by decide⟩
theorem binary64_interchange : binary64.Interchange 63 := ⟨by decide, by decide, by decide⟩

theorem FpFormat.Interchange.two_pow_prec {f : FpFormat} {w : Nat} (hf : f.Interchange w) :
    2 ^ f.prec = 2 * 2 ^ (f.prec - 1) := by
  have h := hf.two_le_prec
  rw [← pow_succ']
  congr 1
  omega

theorem FpFormat.Interchange.two_dvd_hidden {f : FpFormat} {w : Nat} (hf : f.Interchange w) :
    2 ∣ 2 ^ (f.prec - 1) :=
  dvd_pow_self 2 (by have := hf.two_le_prec; omega)

theorem FpFormat.overflow_pos (f : FpFormat) : 0 < f.overflow := by
  unfold FpFormat.overflow
  have : (1 : Rat) ≤ 2 ^ f.prec := one_le_pow₀ (by norm_num)
  have : (0 : Rat) < 2 ^ f.prec - 1 / 2 := by linarith
  positivity

/-- `m * 2^e` is the one reading of the finite magnitude pattern `mag`: the significand has at most `prec` bits, and
exactly `prec` above the smallest exponent. -/
structure FpFormat.Reads (f : FpFormat) (mag m : Nat) (e : Int) : Prop where
  lt_infMag : mag < f.infMag
  mag_eq : mag = (e - f.emin).toNat * 2 ^ (f.prec - 1) + m
  lt_two_pow : m < 2 ^ f.prec
  emin_le : f.emin ≤ e
  normal : e = f.emin ∨ 2 ^ (f.prec - 1) ≤ m

theorem valueOfMag_eq_nan_iff (f : FpFormat) (n : Bool) (mag : Nat) :
    valueOfMag f n mag = .nan ↔ f.infMag < mag := by
  unfold valueOfMag
  simp only
  split_ifs <;> simp_all

theorem valueOfMag_eq_inf_iff (f : FpFormat) (n n' : Bool) (mag : Nat) :
    valueOfMag f n mag = .inf n' ↔ n = n' ∧ mag = f.infMag := by
  unfold valueOfMag
  simp only
  split_ifs with h1 h2 <;> simp_all
  omega

theorem valueOfMag_eq_fin {f : FpFormat} {w : Nat} (hf : f.Interchange w) {n n' : Bool} {mag m : Nat} {e : Int}
    (h : valueOfMag f n mag = .fin n' m e) : n' = n ∧ f.Reads mag m e := by
  have hB := Nat.two_pow_pos (f.prec - 1)
  have hmod := Nat.mod_lt mag hB
  have hdiv := Nat.div_add_mod' mag (2 ^ (f.prec - 1))
  have hp := hf.two_pow_prec
  unfold valueOfMag at h
  simp only at h
  split_ifs at h with h1 h2 h3 <;> cases h
  · rw [h3] at hdiv
    exact ⟨rfl, ⟨by omega, by simp; omega, by omega, le_rfl, .inl rfl⟩⟩
  · refine ⟨rfl, ⟨by omega, ?_, by omega, by omega, .inr (by omega)⟩⟩
    obtain ⟨x, hx⟩ : ∃ x, mag / 2 ^ (f.prec - 1) = x + 1 := Nat.exists_eq_succ_of_ne_zero h3
    rw [hx, Nat.add_mul] at hdiv
    rw [hx]
    have : (f.emin + ((x + 1 - 1 : Nat) : Int) - f.emin).toNat = x := by omega
    rw [this]
    omega

theorem exists_fin_of_lt_infMag (f : FpFormat) (n : Bool) {mag : Nat} (h : mag < f.infMag) :
    ∃ m e, valueOfMag f n mag = .fin n m e := by
  unfold valueOfMag
  simp only
  rw [if_neg (by omega), if_neg (by omega)]
  split_ifs <;> exact ⟨_, _, rfl⟩

/-- The unit exponent of a finite magnitude is at most that of the largest binade. -/
theorem FpFormat.Reads.le_top {f : FpFormat} {w : Nat} (hf : f.Interchange w) {mag m : Nat} {e : Int}
    (h : f.Reads mag m e) : e ≤ f.emin + f.topOffset := by
  have hB := Nat.two_pow_pos (f.prec - 1)
  rcases h.normal with he | hm
  · omega
  · have hlt := h.lt_infMag
    rw [h.mag_eq, hf.infMag_eq] at hlt
    have hlt' : ((e - f.emin).toNat + 1) * 2 ^ (f.prec - 1) < (f.topOffset + 2) * 2 ^ (f.prec - 1) := by
      rw [Nat.add_mul, Nat.one_mul]; omega
    have := Nat.lt_of_mul_lt_mul_right hlt'
    omega

/-- A larger exponent means a larger value: two readings of one value have ordered exponents both ways. -/
theorem FpFormat.Reads.exponent_le {f : FpFormat} {w : Nat} (hf : f.Interchange w) {mag mag' m m' : Nat} {e e' : Int}
    (h : f.Reads mag m e) (h' : f.Reads mag' m' e') (heq : (m : Rat) * (2 : Rat) ^ e = m' * (2 : Rat) ^ e') :
    e' ≤ e := by
  by_contra hlt
  have hm' : 2 ^ (f.prec - 1) ≤ m' := h'.normal.resolve_left (by have := h.emin_le; omega)
  have hnat : m = m' * 2 ^ (e' - e).toNat := by
    have h2 : (2 : Rat) ^ e' = 2 ^ (e' - e).toNat * (2 : Rat) ^ e := by
      rw [← zpow_natCast, ← zpow_add₀ two_ne_zero]
      congr 1
      omega
    rw [h2, ← mul_assoc] at heq
    exact_mod_cast mul_right_cancel₀ (zpow_ne_zero e two_ne_zero) heq
  have h2 : 2 ^ 1 ≤ 2 ^ (e' - e).toNat := Nat.pow_le_pow_right (by norm_num) (by omega)
  have h3 : 2 ^ (f.prec - 1) * 2 ^ 1 ≤ m' * 2 ^ (e' - e).toNat := Nat.mul_le_mul hm' h2
  have h4 := h.lt_two_pow
  have h5 := hf.two_pow_prec
  omega

/-- A finite value has one magnitude pattern. -/
theorem FpFormat.Reads.unique {f : FpFormat} {w : Nat} (hf : f.Interchange w) {mag mag' m m' : Nat} {e e' : Int}
    (h : f.Reads mag m e) (h' : f.Reads mag' m' e') (heq : (m : Rat) * (2 : Rat) ^ e = m' * (2 : Rat) ^ e') :
    mag = mag' := by
  obtain rfl : e = e' := le_antisymm (h'.exponent_le hf h heq.symm) (h.exponent_le hf h' heq)
  have hm : m = m' := by exact_mod_cast mul_right_cancel₀ (zpow_ne_zero e two_ne_zero) heq
  rw [h.mag_eq, h'.mag_eq, hm]

/-! ## `roundMag` rounds to nearest, ties to even -/

/-- The significand `k` that `roundMag` writes for `m * 2^e`: in units of the last place it is the nearest
integer to the exact value, which has no more than `prec` bits and, above the smallest exponent, no fewer. -/
structure FpFormat.RoundsWith (f : FpFormat) (m : Nat) (e : Int) (k : Nat) : Prop where
  mag_eq : roundMag f m e = min ((ulpExp f m e - f.emin).toNat * 2 ^ (f.prec - 1) + k) f.infMag
  le_two_pow : k ≤ 2 ^ f.prec
  normal : ulpExp f m e = f.emin ∨ 2 ^ (f.prec - 1) ≤ k
  exact_normal : ulpExp f m e = f.emin ∨ (2 : Rat) ^ (f.prec - 1) ≤ m * (2 : Rat) ^ (e - ulpExp f m e)
  exact_lt : m * (2 : Rat) ^ (e - ulpExp f m e) < 2 ^ f.prec
  nearest : NearestEven k (m * (2 : Rat) ^ (e - ulpExp f m e))

theorem exists_roundsWith {f : FpFormat} {w : Nat} (hf : f.Interchange w) {m : Nat} (hm : m ≠ 0) (e : Int) :
    ∃ k, f.RoundsWith m e k := by
  obtain ⟨k, hr, hk, hq, hex, hround⟩ := roundMag_spec f hf.two_le_prec hm e
  have hp := hf.two_le_prec
  have hlo : (2 : Rat) ^ Nat.log2 m ≤ m := by exact_mod_cast Nat.log2_self_le hm
  have hhi : (m : Rat) < 2 ^ (Nat.log2 m + 1) := by exact_mod_cast Nat.lt_log2_self
  have hpow (i : Nat) (j : Int) : (2 : Rat) ^ i * (2 : Rat) ^ j = (2 : Rat) ^ ((i : Int) + j) := by
    rw [zpow_add₀ two_ne_zero, zpow_natCast]
  refine ⟨k, hr, hk, hq, ?_, ?_, ?_⟩
  · by_cases h : ulpExp f m e = f.emin
    · exact .inl h
    · have hu : ulpExp f m e = e + (Nat.log2 m + 1 : Nat) - f.prec := by unfold ulpExp at h ⊢; omega
      right
      calc (2 : Rat) ^ (f.prec - 1) = 2 ^ Nat.log2 m * (2 : Rat) ^ (e - ulpExp f m e) := by
            rw [hpow, ← zpow_natCast]; congr 1; omega
        _ ≤ _ := by gcongr
  · have hu : e + (Nat.log2 m + 1 : Nat) - f.prec ≤ ulpExp f m e := le_max_left _ _
    calc (m : Rat) * (2 : Rat) ^ (e - ulpExp f m e)
        < 2 ^ (Nat.log2 m + 1) * (2 : Rat) ^ (e - ulpExp f m e) := by gcongr
      _ ≤ 2 ^ f.prec := by
        rw [hpow, ← zpow_natCast]
        exact zpow_le_zpow_right₀ (by norm_num) (by omega)
  · rcases le_or_gt (ulpExp f m e) e with h | h
    · have hX : (m : Rat) * (2 : Rat) ^ (e - ulpExp f m e) = (k : Nat) := by
        obtain ⟨i, hi⟩ := Int.eq_ofNat_of_zero_le (sub_nonneg.2 h)
        rw [hex h, hi, zpow_natCast]
        simp
      rw [hX]
      exact nearestEven_natCast k
    · have hX : (m : Rat) * (2 : Rat) ^ (e - ulpExp f m e) = m / 2 ^ (ulpExp f m e - e).toNat := by
        rw [div_eq_mul_inv, ← zpow_natCast, ← zpow_neg]
        congr 2
        omega
      rw [hX, hround h]
      exact roundHalfEven_nearestEven _ _

/-- The exact value, in units of the last place of the rounded one. -/
theorem mul_zpow_ulpExp (f : FpFormat) (m : Nat) (e : Int) :
    (m : Rat) * (2 : Rat) ^ (e - ulpExp f m e) * (2 : Rat) ^ ulpExp f m e = m * (2 : Rat) ^ e := by
  rw [mul_assoc, ← zpow_add₀ two_ne_zero, sub_add_cancel]

theorem emin_le_ulpExp (f : FpFormat) (m : Nat) (e : Int) : f.emin ≤ ulpExp f m e := le_max_right _ _

/-- The rounded magnitude is finite exactly when the value is below the overflow threshold. -/
theorem FpFormat.RoundsWith.lt_infMag_iff {f : FpFormat} {w : Nat} (hf : f.Interchange w) {m k : Nat} {e : Int}
    (h : f.RoundsWith m e k) : roundMag f m e < f.infMag ↔ (m : Rat) * (2 : Rat) ^ e < f.overflow := by
  obtain ⟨hmag, hk, hnormal, hlow, hhigh, hnear⟩ := h
  have hval := mul_zpow_ulpExp f m e
  have hemin := emin_le_ulpExp f m e
  have h2 := hf.two_pow_prec
  have h2' : (2 : Rat) ^ f.prec = 2 * 2 ^ (f.prec - 1) := by exact_mod_cast h2
  have hB : (1 : Rat) ≤ 2 ^ (f.prec - 1) := one_le_pow₀ (by norm_num)
  have hpat : roundMag f m e < f.infMag
      ↔ (ulpExp f m e - f.emin).toNat * 2 ^ (f.prec - 1) + k < (f.topOffset + 2) * 2 ^ (f.prec - 1) := by
    rw [← hf.infMag_eq]; omega
  rw [hpat, ← hval]
  unfold FpFormat.overflow
  generalize (m : Rat) * (2 : Rat) ^ (e - ulpExp f m e) = X at *
  generalize ulpExp f m e = q at *
  rcases lt_trichotomy q (f.emin + f.topOffset) with hq | rfl | hq
  · have hpow : 2 * (2 : Rat) ^ q ≤ (2 : Rat) ^ (f.emin + f.topOffset) := by
      rw [← zpow_one_add₀ two_ne_zero]
      exact zpow_le_zpow_right₀ (by norm_num) (by omega)
    refine iff_of_true ?_ ?_
    · have := Nat.mul_le_mul_right (2 ^ (f.prec - 1)) (by omega : (q - f.emin).toNat + 1 ≤ f.topOffset)
      rw [Nat.add_mul] at this ⊢
      have := Nat.two_pow_pos (f.prec - 1)
      omega
    · have hpos : (0 : Rat) < 2 ^ q := by positivity
      calc X * 2 ^ q < 2 ^ f.prec * 2 ^ q := by gcongr
        _ = 2 ^ (f.prec - 1) * (2 * 2 ^ q) := by rw [h2']; ring
        _ ≤ 2 ^ (f.prec - 1) * (2 : Rat) ^ (f.emin + f.topOffset) := by gcongr
        _ ≤ _ := by gcongr; linarith
  · have hQ : (f.emin + f.topOffset - f.emin).toNat = f.topOffset := by omega
    rw [hQ, Nat.add_mul, Nat.add_lt_add_iff_left, ← h2, mul_lt_mul_iff_left₀ (by positivity),
      hnear.lt_iff hk (by omega)]
    push_cast
    rfl
  · have hpow : 2 * (2 : Rat) ^ (f.emin + f.topOffset) ≤ (2 : Rat) ^ q := by
      rw [← zpow_one_add₀ two_ne_zero]
      exact zpow_le_zpow_right₀ (by norm_num) (by omega)
    refine iff_of_false (not_lt.2 ?_) (not_lt.2 ?_)
    · have hkB := hnormal.resolve_left (by omega)
      have := Nat.mul_le_mul_right (2 ^ (f.prec - 1)) (by omega : f.topOffset + 1 ≤ (q - f.emin).toNat)
      rw [Nat.add_mul] at this ⊢
      omega
    · have hX := hlow.resolve_left (by omega)
      have hX0 : 0 ≤ X := by linarith
      calc (2 ^ f.prec - 1 / 2) * (2 : Rat) ^ (f.emin + f.topOffset)
          ≤ 2 ^ f.prec * (2 : Rat) ^ (f.emin + f.topOffset) := by gcongr; linarith
        _ = 2 ^ (f.prec - 1) * (2 * (2 : Rat) ^ (f.emin + f.topOffset)) := by rw [h2']; ring
        _ ≤ X * 2 ^ q := by gcongr

theorem roundMag_zero (f : FpFormat) (e : Int) : roundMag f 0 e = 0 := by simp [roundMag]

theorem roundMag_lt_infMag_iff {f : FpFormat} {w : Nat} (hf : f.Interchange w) (m : Nat) (e : Int) :
    roundMag f m e < f.infMag ↔ (m : Rat) * (2 : Rat) ^ e < f.overflow := by
  by_cases hm : m = 0
  · subst hm
    have hpos : 0 < f.infMag := by rw [hf.infMag_eq]; positivity
    simpa [roundMag_zero, hpos] using f.overflow_pos
  · obtain ⟨k, hk⟩ := exists_roundsWith hf hm e
    exact hk.lt_infMag_iff hf

/-- A value the format holds is below the overflow threshold. -/
theorem mul_zpow_lt_overflow (f : FpFormat) {m : Nat} {e : Int} (hm : m < 2 ^ f.prec)
    (he : e ≤ f.emin + f.topOffset) : (m : Rat) * (2 : Rat) ^ e < f.overflow := by
  have hm' : (m : Rat) + 1 ≤ 2 ^ f.prec := by exact_mod_cast hm
  calc (m : Rat) * (2 : Rat) ^ e ≤ m * (2 : Rat) ^ (f.emin + f.topOffset) := by gcongr; norm_num
    _ < f.overflow := by unfold FpFormat.overflow; gcongr; linarith

/-- A value the format holds, in units of the last place of the rounded value, is an integer, or lies below the smallest
full significand and so below an integer under the exact value. -/
theorem FpFormat.RoundsWith.int_or_below {f : FpFormat} {w : Nat} (hf : f.Interchange w) {m k : Nat} {e : Int}
    (h : f.RoundsWith m e k) (n : Bool) {m' : Nat} {e' : Int} (hm' : m' < 2 ^ f.prec) (he' : f.emin ≤ e') :
    (∃ j : Int, dyadic n m' (e' - ulpExp f m e) = j)
      ∨ ∃ b : Nat, dyadic n m' (e' - ulpExp f m e) < b ∧ b ≤ (m : Rat) * (2 : Rat) ^ (e - ulpExp f m e) := by
  rcases le_or_gt (ulpExp f m e) e' with hq | hq
  · left
    exact ⟨_, by rw [dyadic_eq_scaled n m' (sub_nonneg.2 hq), zpow_zero, mul_one]⟩
  · right
    have hX := h.exact_normal.resolve_left (by omega)
    refine ⟨2 ^ (f.prec - 1), ?_, by exact_mod_cast hX⟩
    have h2' : (2 : Rat) ^ f.prec = 2 ^ (f.prec - 1) * 2 := by exact_mod_cast hf.two_pow_prec.trans (mul_comm _ _)
    have hm2 : (m' : Rat) < 2 ^ f.prec := by exact_mod_cast hm'
    have hpow : (2 : Rat) ^ (e' - ulpExp f m e) ≤ 2⁻¹ := by
      rw [← zpow_neg_one]
      exact zpow_le_zpow_right₀ (by norm_num) (by omega)
    calc dyadic n m' (e' - ulpExp f m e) ≤ m' * (2 : Rat) ^ (e' - ulpExp f m e) := by
          rw [← abs_dyadic n]; exact le_abs_self _
      _ ≤ m' * 2⁻¹ := by gcongr
      _ < 2 ^ f.prec * 2⁻¹ := by gcongr
      _ = _ := by rw [h2']; push_cast; ring

theorem dyadic_mul_zpow (n : Bool) (m : Nat) (e q : Int) : dyadic n m e * (2 : Rat) ^ q = dyadic n m (e + q) := by
  unfold dyadic
  rw [mul_assoc, ← zpow_add₀ two_ne_zero]

/-- `v` is a value nearest to `x` among those the format holds, and its pattern `mag` is even at a tie. -/
def FpFormat.Nearest (f : FpFormat) (mag : Nat) (v x : Rat) : Prop :=
  ∀ (n : Bool) (m : Nat) (e : Int), m < 2 ^ f.prec → f.emin ≤ e →
    |v - x| ≤ |dyadic n m e - x| ∧ (|v - x| = |dyadic n m e - x| → dyadic n m e ≠ v → mag % 2 = 0)

/-- The nearest value of the negated number is the negated nearest value. -/
theorem FpFormat.Nearest.neg {f : FpFormat} {mag : Nat} {v x : Rat} (h : f.Nearest mag v x) :
    f.Nearest mag (-v) (-x) := by
  intro n m e hm he
  have hsub (u : Rat) : |(-u) - (-x)| = |u - x| := by rw [neg_sub_neg, abs_sub_comm]
  have hn := h (!n) m e hm he
  rw [← neg_neg (dyadic n m e), ← dyadic_not, hsub, hsub, ne_eq, neg_inj]
  exact hn

/-- A finite rounded magnitude reads as a nearest value, the even one at a tie. -/
theorem FpFormat.RoundsWith.nearest_value {f : FpFormat} {w : Nat} (hf : f.Interchange w) {m k : Nat} {e : Int}
    (h : f.RoundsWith m e k) (hfin : roundMag f m e < f.infMag) :
    f.Nearest (roundMag f m e) (dyadic false k (ulpExp f m e)) (dyadic false m e) := by
  intro n m' e' hm' he'
  have hpos : (0 : Rat) < 2 ^ ulpExp f m e := by positivity
  have hmag : roundMag f m e = (ulpExp f m e - f.emin).toNat * 2 ^ (f.prec - 1) + k := by
    have := h.mag_eq; omega
  have heven : roundMag f m e % 2 = k % 2 := by
    rw [hmag, Nat.add_mod, Nat.mod_eq_zero_of_dvd (hf.two_dvd_hidden.mul_left _), Nat.zero_add, Nat.mod_mod]
  obtain ⟨hle, htie⟩ := h.nearest.abs_sub_le (h.int_or_below hf n hm' he')
  have hu : dyadic n m' e' = dyadic n m' (e' - ulpExp f m e) * 2 ^ ulpExp f m e := by
    rw [dyadic_mul_zpow, sub_add_cancel]
  rw [dyadic_false, dyadic_false, ← mul_zpow_ulpExp f m e, hu, ← sub_mul, ← sub_mul, abs_mul, abs_mul,
    abs_of_pos hpos, mul_le_mul_iff_left₀ hpos, mul_left_inj' hpos.ne', ne_eq, mul_left_inj' hpos.ne', heven]
  exact ⟨hle, htie⟩

/-- The value a finite rounded magnitude reads as, with the nearest-even property. -/
theorem exists_nearest_roundMag {f : FpFormat} {w : Nat} (hf : f.Interchange w) (n : Bool) (m : Nat) (e : Int)
    (hfin : roundMag f m e < f.infMag) :
    ∃ v, (valueOfMag f n (roundMag f m e)).real = some v ∧ f.Nearest (roundMag f m e) v (dyadic n m e) := by
  by_cases hm : m = 0
  · subst hm
    rw [roundMag_zero] at hfin ⊢
    refine ⟨0, ?_, fun n' m' e' _ _ => by simp⟩
    have h := real_valueOfMag f hf.two_le_prec n 0 0 (Nat.zero_le _) (.inl rfl) (by simpa using hfin)
    simpa using h
  · obtain ⟨k, hk⟩ := exists_roundsWith hf hm e
    have hmag : roundMag f m e = (ulpExp f m e - f.emin).toNat * 2 ^ (f.prec - 1) + k := by
      have := hk.mag_eq; omega
    have hnear := hk.nearest_value hf hfin
    have hnormal := hk.normal
    have hemin := emin_le_ulpExp f m e
    refine ⟨dyadic n k (ulpExp f m e), ?_, ?_⟩
    · have hval := real_valueOfMag f hf.two_le_prec n _ k hk.le_two_pow (by omega) (hmag ▸ hfin)
      rw [hmag, hval]
      congr 2
      omega
    · cases n
      · exact hnear
      · rw [← Bool.not_false, dyadic_not, dyadic_not]
        exact hnear.neg

end Sys2Proof.Machine
end

section
/-! SUPPORT. Patterns as a sign and a magnitude, for either width, and the rounding of R14 of patterns. -/

namespace Sys2Proof.Machine

/-! ## Sign-and-magnitude patterns of either width -/

/-- The pattern of `w + 1` bits with sign `n` and magnitude `mag`. -/
def packBits (w : Nat) (n : Bool) (mag : Nat) : BitVec (w + 1) :=
  BitVec.ofNat (w + 1) ((if n then 2 ^ w else 0) + mag)

/-- What a pattern of `w + 1` bits stands for in the format `f`. -/
def valueBits (f : FpFormat) {w : Nat} (y : BitVec (w + 1)) : FpValue :=
  valueOfMag f (y.getLsbD w) (y.toNat % 2 ^ w)

theorem pack64_eq (n : Bool) (mag : Nat) : pack64 n mag = packBits 63 n mag := rfl
theorem pack32_eq (n : Bool) (mag : Nat) : pack32 n mag = packBits 31 n mag := rfl
theorem value64_eq (x : Bits64) : value64 x = valueBits (w := 63) binary64 x := rfl
theorem value32_eq (x : Word) : value32 x = valueBits (w := 31) binary32 x := rfl

theorem toNat_packBits {w : Nat} (n : Bool) {mag : Nat} (h : mag < 2 ^ w) :
    (packBits w n mag).toNat = (if n then 2 ^ w else 0) + mag := by
  unfold packBits
  rw [BitVec.toNat_ofNat, Nat.mod_eq_of_lt]
  rw [pow_succ]
  split_ifs <;> omega

theorem mag_packBits {w : Nat} (n : Bool) {mag : Nat} (h : mag < 2 ^ w) :
    (packBits w n mag).toNat % 2 ^ w = mag := by
  rw [toNat_packBits n h]
  cases n <;> simp [Nat.mod_eq_of_lt h]

theorem sign_packBits {w : Nat} (n : Bool) {mag : Nat} (h : mag < 2 ^ w) : (packBits w n mag).getLsbD w = n := by
  rw [← BitVec.testBit_toNat, toNat_packBits n h]
  cases n <;> simp [Nat.testBit_two_pow_add_eq, Nat.testBit_lt_two_pow h]

theorem valueBits_packBits (f : FpFormat) {w : Nat} (n : Bool) {mag : Nat} (h : mag < 2 ^ w) :
    valueBits f (packBits w n mag) = valueOfMag f n mag := by
  unfold valueBits
  rw [sign_packBits n h, mag_packBits n h]

/-- Every pattern is its sign and its magnitude. -/
theorem packBits_self {w : Nat} (y : BitVec (w + 1)) : packBits w (y.getLsbD w) (y.toNat % 2 ^ w) = y := by
  apply BitVec.eq_of_toNat_eq
  rw [toNat_packBits _ (Nat.mod_lt _ (Nat.two_pow_pos w)), ← BitVec.testBit_toNat, Nat.testBit_eq_decide_div_mod_eq]
  have hlt := y.isLt
  have hdiv := Nat.div_add_mod' y.toNat (2 ^ w)
  have hq : y.toNat / 2 ^ w < 2 := Nat.div_lt_of_lt_mul (by rwa [pow_succ] at hlt)
  rw [Nat.mod_eq_of_lt hq]
  interval_cases y.toNat / 2 ^ w <;> simp <;> omega

/-- The low bit of a pattern is the parity of its magnitude. -/
theorem getLsbD_zero_packBits {w : Nat} (hw : w ≠ 0) (n : Bool) {mag : Nat} (h : mag < 2 ^ w) (heven : mag % 2 = 0) :
    (packBits w n mag).getLsbD 0 = false := by
  have h2 : 2 ∣ 2 ^ w := dvd_pow_self 2 hw
  rw [← BitVec.testBit_toNat, toNat_packBits n h, Nat.testBit_zero, decide_eq_false_iff_not]
  split_ifs <;> omega

theorem exists_fin_of_real_eq_some {f : FpFormat} {w : Nat} (hf : f.Interchange w) {y : BitVec (w + 1)} {x : Rat}
    (h : (valueBits f y).real = some x) :
    ∃ m e, valueBits f y = .fin (y.getLsbD w) m e ∧ f.Reads (y.toNat % 2 ^ w) m e
      ∧ x = dyadic (y.getLsbD w) m e := by
  cases hv : valueBits f y with
  | nan => simp [hv] at h
  | inf n => simp [hv] at h
  | fin n m e =>
    obtain ⟨rfl, hr⟩ := valueOfMag_eq_fin hf hv
    rw [hv, FpValue.real_fin, Option.some.injEq] at h
    exact ⟨m, e, rfl, hr, h.symm⟩

/-- A pattern that is no NaN is an infinity or has a value. -/
theorem eq_inf_or_real_of_not_nan (f : FpFormat) {w : Nat} {y : BitVec (w + 1)} (h : ¬ f.infMag < y.toNat % 2 ^ w) :
    (∃ n, y = packBits w n f.infMag) ∨ ∃ x, (valueBits f y).real = some x := by
  rcases (not_lt.1 h).lt_or_eq with hlt | heq
  · right
    obtain ⟨m, e, hv⟩ := exists_fin_of_lt_infMag f (y.getLsbD w) hlt
    exact ⟨_, by unfold valueBits; rw [hv, FpValue.real_fin]⟩
  · left
    exact ⟨y.getLsbD w, by rw [← heq, packBits_self]⟩

/-- Two patterns of one nonzero value are the same pattern. -/
theorem eq_of_real_eq {f : FpFormat} {w : Nat} (hf : f.Interchange w) {y z : BitVec (w + 1)} {x : Rat} (hx : x ≠ 0)
    (hy : (valueBits f y).real = some x) (hz : (valueBits f z).real = some x) : y = z := by
  obtain ⟨m, e, -, hr, hxy⟩ := exists_fin_of_real_eq_some hf hy
  obtain ⟨m', e', -, hr', hxz⟩ := exists_fin_of_real_eq_some hf hz
  have hmag : y.toNat % 2 ^ w = z.toNat % 2 ^ w := by
    refine hr.unique hf hr' ?_
    rw [← abs_dyadic (y.getLsbD w), ← abs_dyadic (z.getLsbD w), ← hxy, ← hxz]
  have hsign : y.getLsbD w = z.getLsbD w := by
    rcases lt_or_gt_of_ne hx with h | h
    · exact (dyadic_neg_iff.1 (hxy ▸ h)).1.trans (dyadic_neg_iff.1 (hxz ▸ h)).1.symm
    · exact (dyadic_pos_iff.1 (hxy ▸ h)).1.trans (dyadic_pos_iff.1 (hxz ▸ h)).1.symm
  rw [← packBits_self y, ← packBits_self z, hmag, hsign]

/-- A pattern of the value zero is a zero with the pattern's sign. -/
theorem eq_zero_of_real_eq_zero {f : FpFormat} {w : Nat} (hf : f.Interchange w) {y : BitVec (w + 1)}
    (hy : (valueBits f y).real = some 0) : y = packBits w (y.getLsbD w) 0 := by
  obtain ⟨m, e, -, hr, hx⟩ := exists_fin_of_real_eq_some hf hy
  obtain rfl : m = 0 := dyadic_eq_zero_iff.1 hx.symm
  have hmag : y.toNat % 2 ^ w = 0 := by
    have hpos := Nat.two_pow_pos (f.prec - 1)
    rw [hr.mag_eq, hr.normal.resolve_right (by omega)]
    simp
  rw [← hmag, packBits_self]

/-- The pattern `y` is the rational `x` rounded to nearest, ties to even, in the format `f`: `RoundsTo64` and
`RoundsTo32` for either format. -/
def RoundsIn (f : FpFormat) {w : Nat} (y : BitVec (w + 1)) (x : Rat) : Prop :=
  (|x| < f.overflow → ∃ v, (valueBits f y).real = some v) ∧
    (f.overflow ≤ x → y = packBits w false f.infMag) ∧
    (x ≤ -f.overflow → y = packBits w true f.infMag) ∧
    (x < 0 → y.getLsbD w = true) ∧ (0 < x → y.getLsbD w = false) ∧
    ∀ v, (valueBits f y).real = some v → ∀ (z : BitVec (w + 1)) u, (valueBits f z).real = some u →
      |v - x| ≤ |u - x| ∧ (|v - x| = |u - x| → u ≠ v → y.getLsbD 0 = false)

theorem overflow_binary64 : binary64.overflow = 2 ^ 1024 - 2 ^ 970 := by decide +kernel
theorem overflow_binary32 : binary32.overflow = 2 ^ 128 - 2 ^ 103 := by decide +kernel

theorem roundsTo64_iff (y : Bits64) (x : Rat) : RoundsTo64 y x ↔ RoundsIn (w := 63) binary64 y x := by
  unfold RoundsTo64 RoundsIn
  rw [overflow_binary64, ← pack64_eq, ← pack64_eq, pack64_inf, pack64_inf]
  rfl

theorem roundsTo32_iff (y : Word) (x : Rat) : RoundsTo32 y x ↔ RoundsIn (w := 31) binary32 y x := by
  unfold RoundsTo32 RoundsIn
  rw [overflow_binary32, ← pack32_eq, ← pack32_eq, pack32_inf, pack32_inf]
  rfl

/-- The packed `roundMag` of `m * 2^e` with sign `n` is the rounded value of (-1)^n * m * 2^e. -/
theorem roundsIn_packBits_roundMag {f : FpFormat} {w : Nat} (hf : f.Interchange w) (n : Bool) (m : Nat) (e : Int) :
    RoundsIn f (packBits w n (roundMag f m e)) (dyadic n m e) := by
  have hle := roundMag_le f m e
  have hlt : roundMag f m e < 2 ^ w := hle.trans_lt hf.infMag_lt
  have hw : w ≠ 0 := by
    rintro rfl
    have h := hf.infMag_lt
    have hB := Nat.two_pow_pos (f.prec - 1)
    rw [hf.infMag_eq] at h
    nlinarith
  have hover := f.overflow_pos
  have hfin := roundMag_lt_infMag_iff hf m e
  rw [← abs_dyadic n] at hfin
  have hinf (h : f.overflow ≤ |dyadic n m e|) : roundMag f m e = f.infMag := by
    have := mt hfin.1 (not_lt.2 h); omega
  unfold RoundsIn
  rw [valueBits_packBits f n hlt, sign_packBits n hlt]
  refine ⟨fun h => ?_, fun h => ?_, fun h => ?_, fun h => (dyadic_neg_iff.1 h).1,
    fun h => (dyadic_pos_iff.1 h).1, ?_⟩
  · obtain ⟨v, hv, -⟩ := exists_nearest_roundMag hf n m e (hfin.2 h)
    exact ⟨v, hv⟩
  · rw [hinf (h.trans (le_abs_self _)), (dyadic_pos_iff.1 (hover.trans_le h)).1]
  · rw [hinf (le_trans (by linarith) (neg_le_abs _)), (dyadic_neg_iff.1 (h.trans_lt (by linarith))).1]
  · intro v hv z u hu
    have hlt_inf : roundMag f m e < f.infMag := by
      refine hle.lt_of_ne fun h => ?_
      rw [(valueOfMag_eq_inf_iff f n n _).2 ⟨rfl, h⟩] at hv
      simp at hv
    obtain ⟨v', hv', hnear⟩ := exists_nearest_roundMag hf n m e hlt_inf
    obtain rfl : v' = v := by rw [hv'] at hv; exact Option.some.inj hv
    obtain ⟨m', e', -, hr, rfl⟩ := exists_fin_of_real_eq_some hf hu
    obtain ⟨hmin, htie⟩ := hnear _ m' e' hr.lt_two_pow hr.emin_le
    exact ⟨hmin, fun heq hne => getLsbD_zero_packBits hw n hlt (htie heq hne)⟩

/-- A value the format holds is its own rounding. -/
theorem RoundsIn.eq_of_held {f : FpFormat} {w : Nat} {y z : BitVec (w + 1)} {x : Rat} (h : RoundsIn f y x)
    (hx : |x| < f.overflow) (hz : (valueBits f z).real = some x) : (valueBits f y).real = some x := by
  obtain ⟨hfin, -, -, -, -, hnear⟩ := h
  obtain ⟨v, hv⟩ := hfin hx
  have hvx : |v - x| ≤ |x - x| := (hnear v hv z x hz).1
  rw [sub_self, abs_zero, abs_nonpos_iff, sub_eq_zero] at hvx
  rw [hv, hvx]

end Sys2Proof.Machine
end

section
/-! The primitives of R14 against their exact values, and the statements of 00_scope.md. -/

namespace Sys2Proof.Machine

/-! ## Reading and rounding binary64 and binary32 patterns -/

theorem value64_eq_nan_iff (a : Bits64) : value64 a = .nan ↔ isNan64 a = true := by
  unfold value64 isNan64
  rw [valueOfMag_eq_nan_iff, decide_eq_true_iff]
  rfl

theorem value32_eq_nan_iff (w : Word) : value32 w = .nan ↔ isNan32 w = true := by
  unfold value32 isNan32
  rw [valueOfMag_eq_nan_iff, decide_eq_true_iff]
  rfl

@[simp] theorem isNan64_nan64 : isNan64 nan64 = true := by decide

theorem exists_fin_of_real64 {a : Bits64} {x : Rat} (h : real64 a = some x) :
    ∃ m e, value64 a = .fin (a.getLsbD 63) m e ∧ binary64.Reads (a.toNat % 2 ^ 63) m e
      ∧ x = dyadic (a.getLsbD 63) m e := by
  rw [real64, value64_eq] at h
  rw [value64_eq]
  exact exists_fin_of_real_eq_some binary64_interchange h

theorem exists_fin_of_real32 {w : Word} {x : Rat} (h : real32 w = some x) :
    ∃ m e, value32 w = .fin (w.getLsbD 31) m e ∧ binary32.Reads (w.toNat % 2 ^ 31) m e
      ∧ x = dyadic (w.getLsbD 31) m e := by
  rw [real32, value32_eq] at h
  rw [value32_eq]
  exact exists_fin_of_real_eq_some binary32_interchange h

theorem roundsTo64_round64 (n : Bool) (m : Nat) (e : Int) : RoundsTo64 (round64 n m e) (dyadic n m e) :=
  (roundsTo64_iff _ _).2 (roundsIn_packBits_roundMag binary64_interchange n m e)

theorem roundsTo32_pack32 (n : Bool) (m : Nat) (e : Int) :
    RoundsTo32 (pack32 n (roundMag binary32 m e)) (dyadic n m e) :=
  (roundsTo32_iff _ _).2 (roundsIn_packBits_roundMag binary32_interchange n m e)

theorem sign_round64 (n : Bool) (m : Nat) (e : Int) : (round64 n m e).getLsbD 63 = n :=
  sign_packBits n ((roundMag_le binary64 m e).trans_lt binary64_interchange.infMag_lt)

theorem round64_zero (n : Bool) (e : Int) : round64 n 0 e = zero64 n := by
  rw [round64, roundMag_zero, pack64_zero]

/-- Every significand and exponent in the ranges of binary64 are held by it. -/
theorem real_round64_of_held (n : Bool) {m : Nat} {e : Int} (hm : m < 2 ^ 53) (hlo : -1074 ≤ e) (hhi : e ≤ 971) :
    real64 (round64 n m e) = some (dyadic n m e) :=
  real_round64_exact n hm hlo
    ((roundMag_lt_infMag_iff binary64_interchange m e).2 (mul_zpow_lt_overflow binary64 hm hhi))

/-! ## Conversions to binary64 -/

theorem real64_f64OfInt {k : Int} (h : |k| < 2 ^ 53) : real64 (f64OfInt k) = some (k : Rat) := by
  unfold f64OfInt
  rw [real_round64_of_held _ (by rw [Int.abs_eq_natAbs] at h; exact_mod_cast h) (by norm_num) (by norm_num),
    dyadic_natAbs 0 (by simp) (by simp; omega)]
  simp

theorem real64_f64OfF32 {w : Word} {x : Rat} (h : real32 w = some x) :
    real64 (f64OfF32 w) = some x ∧ (f64OfF32 w).getLsbD 63 = w.getLsbD 31 := by
  obtain ⟨m, e, hv, hr, rfl⟩ := exists_fin_of_real32 h
  have hm : m < 2 ^ 24 := hr.lt_two_pow
  have hlo : -149 ≤ e := hr.emin_le
  have hhi : e ≤ 104 := hr.le_top binary32_interchange
  unfold f64OfF32
  rw [hv]
  exact ⟨real_round64_of_held _ (by omega) (by omega) (by omega), sign_round64 _ _ _⟩

theorem f64OfF32_inf32 (n : Bool) : f64OfF32 (inf32 n) = inf64 n := by
  rw [f64OfF32, value32_inf32]
  exact pack64_inf n

theorem isNan64_f64OfF32 {w : Word} (h : isNan32 w = true) : isNan64 (f64OfF32 w) = true := by
  rw [f64OfF32, (value32_eq_nan_iff w).2 h]
  exact isNan64_nan64

/-! ## Sum, difference and product -/

theorem sign_neg64 (b : Bits64) : (neg64 b).getLsbD 63 = !b.getLsbD 63 := by simp [neg64]

theorem real_valueOfMag_not (f : FpFormat) (n : Bool) (mag : Nat) :
    (valueOfMag f (!n) mag).real = (valueOfMag f n mag).real.map Neg.neg := by
  unfold valueOfMag
  simp only
  split_ifs <;> simp [dyadic_not]

theorem real64_neg64 {b : Bits64} {y : Rat} (h : real64 b = some y) : real64 (neg64 b) = some (-y) := by
  have hmag : (neg64 b).toNat % 2 ^ 63 = b.toNat % 2 ^ 63 := by
    unfold neg64
    rw [BitVec.toNat_xor, Nat.xor_mod_two_pow]
    simp
  unfold real64 value64 at h ⊢
  rw [sign_neg64, hmag, real_valueOfMag_not, h, Option.map_some]

/-- The finite sum is the exact one, rounded once. -/
theorem add64_finite {a b : Bits64} {x y : Rat} (hx : real64 a = some x) (hy : real64 b = some y) :
    RoundsTo64 (add64 a b) (x + y) ∧ (x + y = 0 → add64 a b = zero64 (a.getLsbD 63 && b.getLsbD 63)) := by
  obtain ⟨m, e, hva, -, rfl⟩ := exists_fin_of_real64 hx
  obtain ⟨m', e', hvb, -, rfl⟩ := exists_fin_of_real64 hy
  unfold add64
  rw [hva, hvb]
  simp only
  rw [dyadic_eq_scaled _ m (min_le_left e e'), dyadic_eq_scaled _ m' (min_le_right e e'), ← add_mul, ← Int.cast_add]
  generalize min e e' = q
  generalize scaled q _ m e + scaled q _ m' e' = k
  constructor
  · rw [← dyadic_natAbs (n := decide (k < 0) || (decide (k = 0) && a.getLsbD 63 && b.getLsbD 63)) q
      (fun h => by simp [h]) (fun h => by simp [h.ne', h.le])]
    exact roundsTo64_round64 _ _ _
  · intro h
    obtain rfl : k = 0 := by simpa [zpow_ne_zero] using h
    simpa using round64_zero _ q

theorem sub64_finite {a b : Bits64} {x y : Rat} (hx : real64 a = some x) (hy : real64 b = some y) :
    RoundsTo64 (sub64 a b) (x - y) ∧ (x - y = 0 → sub64 a b = zero64 (a.getLsbD 63 && !b.getLsbD 63)) := by
  rw [sub_eq_add_neg, ← sign_neg64]
  exact add64_finite hx (real64_neg64 hy)

theorem mul64_finite {a b : Bits64} {x y : Rat} (hx : real64 a = some x) (hy : real64 b = some y) :
    RoundsTo64 (mul64 a b) (x * y) ∧ (x * y = 0 → mul64 a b = zero64 (a.getLsbD 63 != b.getLsbD 63)) := by
  obtain ⟨m, e, hva, -, rfl⟩ := exists_fin_of_real64 hx
  obtain ⟨m', e', hvb, -, rfl⟩ := exists_fin_of_real64 hy
  unfold mul64
  rw [hva, hvb, dyadic_mul]
  refine ⟨roundsTo64_round64 _ _ _, fun h => ?_⟩
  simp only
  rw [dyadic_eq_zero_iff.1 h, round64_zero]

theorem add64_nan {a b : Bits64} (h : isNan64 a = true ∨ isNan64 b = true) : isNan64 (add64 a b) = true := by
  unfold add64
  rcases h with h | h <;> rw [(value64_eq_nan_iff _).2 h]
  · exact isNan64_nan64
  · cases value64 a <;> exact isNan64_nan64

theorem sub64_nan {a b : Bits64} (h : isNan64 a = true ∨ isNan64 b = true) : isNan64 (sub64 a b) = true :=
  add64_nan (by rwa [isNan64_neg64])

theorem mul64_nan {a b : Bits64} (h : isNan64 a = true ∨ isNan64 b = true) : isNan64 (mul64 a b) = true := by
  unfold mul64
  rcases h with h | h <;> rw [(value64_eq_nan_iff _).2 h]
  · exact isNan64_nan64
  · cases value64 a <;> exact isNan64_nan64

theorem add64_inf_finite (n : Bool) {b : Bits64} {y : Rat} (h : real64 b = some y) :
    add64 (inf64 n) b = inf64 n ∧ add64 b (inf64 n) = inf64 n := by
  obtain ⟨m, e, hv, -, -⟩ := exists_fin_of_real64 h
  simp [add64, hv]

theorem mul64_inf_finite (n : Bool) {b : Bits64} {y : Rat} (h : real64 b = some y) :
    (y ≠ 0 → mul64 (inf64 n) b = inf64 (n != b.getLsbD 63) ∧ mul64 b (inf64 n) = inf64 (n != b.getLsbD 63))
      ∧ (y = 0 → isNan64 (mul64 (inf64 n) b) = true ∧ isNan64 (mul64 b (inf64 n)) = true) := by
  obtain ⟨m, e, hv, -, rfl⟩ := exists_fin_of_real64 h
  rw [ne_eq, dyadic_eq_zero_iff]
  constructor <;> intro hm <;> simp [mul64, hv, hm, Bool.xor_comm]

theorem add64_inf_inf (n m : Bool) : add64 (inf64 n) (inf64 m) = if n = m then inf64 n else nan64 := by
  simp [add64]

theorem mul64_inf_inf (n m : Bool) : mul64 (inf64 n) (inf64 m) = inf64 (n != m) := by
  simp [mul64]

theorem sub64_inf_inf (n m : Bool) : sub64 (inf64 n) (inf64 m) = if n = !m then inf64 n else nan64 := by
  rw [sub64, neg64_inf64, add64_inf_inf]

/-! ## Conversion to binary32 -/

theorem cvt32_finite (nan : Word) {a : Bits64} {x : Rat} (h : real64 a = some x) :
    RoundsTo32 (cvt32 nan a) x ∧ (x = 0 → cvt32 nan a = zero32 (a.getLsbD 63)) := by
  obtain ⟨m, e, hv, -, rfl⟩ := exists_fin_of_real64 h
  unfold cvt32
  rw [hv]
  refine ⟨roundsTo32_pack32 _ _ _, fun hx => ?_⟩
  simp only
  rw [dyadic_eq_zero_iff.1 hx, roundMag_zero, pack32_zero]

theorem cvt32_inf64 (nan : Word) (n : Bool) : cvt32 nan (inf64 n) = inf32 n := by
  simp [cvt32]

theorem cvt32_nan (nan : Word) {a : Bits64} (h : isNan64 a = true) : cvt32 nan a = nan := by
  rw [cvt32, (value64_eq_nan_iff a).2 h]

/-- A binary32 value is its own rounding to binary32. -/
theorem real32_cvt32_f64OfF32 (nan : Word) {w : Word} {x : Rat} (h : real32 w = some x) :
    real32 (cvt32 nan (f64OfF32 w)) = some x := by
  obtain ⟨m, e, -, hr, hx⟩ := exists_fin_of_real32 h
  have hover : |x| < binary32.overflow := by
    rw [hx, abs_dyadic]
    exact mul_zpow_lt_overflow binary32 hr.lt_two_pow (hr.le_top binary32_interchange)
  have hround := (cvt32_finite nan (real64_f64OfF32 h).1).1
  exact ((roundsTo32_iff _ _).1 hround).eq_of_held hover h

theorem cvt32_f64OfF32_of_real32 (nan : Word) {w : Word} {x : Rat} (h : real32 w = some x) :
    cvt32 nan (f64OfF32 w) = w := by
  by_cases hx : x = 0
  · subst hx
    obtain ⟨hval, hsign⟩ := real64_f64OfF32 h
    rw [(cvt32_finite nan hval).2 rfl, hsign, ← pack32_zero]
    exact (eq_zero_of_real_eq_zero binary32_interchange h).symm
  · exact eq_of_real_eq binary32_interchange hx (real32_cvt32_f64OfF32 nan h) h

/-! ## Floor and comparison -/

theorem floor64_finite {a : Bits64} {x : Rat} (h : real64 a = some x) : floor64 a = some ⌊x⌋ := by
  obtain ⟨m, e, hv, -, rfl⟩ := exists_fin_of_real64 h
  unfold floor64
  rw [hv, dyadic_eq_signed]
  simp only
  split_ifs with he
  · obtain ⟨i, rfl⟩ := Int.eq_ofNat_of_zero_le he
    have hs (n : Bool) : signed n (m * 2 ^ i) = signed n m * 2 ^ i := by
      cases n <;> simp [signed]
    have hcast (k : Int) : (k : Rat) * 2 ^ (i : Int) = ((k * 2 ^ i : Int) : Rat) := by push_cast; rfl
    rw [hcast, Int.floor_intCast, ← hs]
    rfl
  · obtain ⟨i, hi⟩ := Int.eq_ofNat_of_zero_le (show 0 ≤ -e by omega)
    have hpow : (2 : Rat) ^ e = ((2 ^ i : Nat) : Rat)⁻¹ := by
      rw [← neg_neg e, hi, zpow_neg]
      simp
    rw [hpow, ← div_eq_mul_inv, Rat.floor_intCast_div_natCast, hi]
    rfl

theorem gt64_finite {a b : Bits64} {x y : Rat} (hx : real64 a = some x) (hy : real64 b = some y) :
    gt64 a b = true ↔ y < x := by
  obtain ⟨m, e, hva, -, rfl⟩ := exists_fin_of_real64 hx
  obtain ⟨m', e', hvb, -, rfl⟩ := exists_fin_of_real64 hy
  unfold gt64
  rw [hva, hvb, dyadic_eq_scaled _ m (min_le_left e e'), dyadic_eq_scaled _ m' (min_le_right e e'),
    mul_lt_mul_iff_left₀ (by positivity), Int.cast_lt]
  exact decide_eq_true_iff

theorem gt64_inf_finite (n : Bool) {b : Bits64} {y : Rat} (h : real64 b = some y) :
    gt64 (inf64 n) b = !n ∧ gt64 b (inf64 n) = n := by
  obtain ⟨m, e, hv, -, -⟩ := exists_fin_of_real64 h
  simp [gt64, hv]

theorem gt64_inf_inf (n m : Bool) : gt64 (inf64 n) (inf64 m) = (!n && m) := by
  simp [gt64]

theorem gt64_nan {a b : Bits64} (h : isNan64 a = true ∨ isNan64 b = true) : gt64 a b = false := by
  unfold gt64
  rcases h with h | h <;> rw [(value64_eq_nan_iff _).2 h]
  cases value64 a <;> rfl

/-! ## Remainder -/

theorem truncRat_neg (q : Rat) : truncRat (-q) = -truncRat q := by
  unfold truncRat
  rcases lt_trichotomy q 0 with h | rfl | h
  · rw [if_pos (by linarith), if_neg (by linarith), Int.floor_neg]
  · simp
  · rw [if_neg (by linarith), if_pos h.le, Int.ceil_neg]

theorem truncRat_natCast_div (m n : Nat) : truncRat ((m : Rat) / n) = (m / n : Nat) := by
  rw [truncRat, if_pos (by positivity)]
  simpa using Rat.floor_intCast_div_natCast (m : Int) n

/-- The truncated remainder of dyadics of one exponent is the remainder of their significands. -/
theorem dyadic_sub_mul_truncRat (n : Bool) (m : Nat) (m' : Nat) (q : Int) :
    dyadic n m q - dyadic false m' q * truncRat (dyadic n m q / dyadic false m' q) = dyadic n (m % m') q := by
  have hpow : (2 : Rat) ^ q ≠ 0 := zpow_ne_zero q two_ne_zero
  have hdiv : (m : Rat) = m' * (m / m' : Nat) + (m % m' : Nat) := by exact_mod_cast (Nat.div_add_mod m m').symm
  have hpos : dyadic false m q - dyadic false m' q * truncRat (dyadic false m q / dyadic false m' q)
      = dyadic false (m % m') q := by
    rw [dyadic_false, dyadic_false, dyadic_false, mul_div_mul_right _ _ hpow, truncRat_natCast_div, Int.cast_natCast]
    linear_combination (2 : Rat) ^ q * hdiv
  cases n
  · exact hpos
  · rw [← Bool.not_false, dyadic_not, dyadic_not, neg_div, truncRat_neg, ← hpos]
    push_cast
    ring

/-- The remainder at the smaller exponent fits in the significand of the operand that has that exponent. -/
theorem mod_aligned_lt (m : Nat) {m' : Nat} (hm' : m' ≠ 0) (e e' : Int) :
    m * 2 ^ (e - min e e').toNat % (m' * 2 ^ (e' - min e e').toNat) < max (m + 1) m' := by
  rcases min_choice e e' with h | h
  · have hle := Nat.mod_le (m * 2 ^ (e - min e e').toNat) (m' * 2 ^ (e' - min e e').toNat)
    have h1 : m * 2 ^ (e - min e e').toNat = m := by simp [h]
    omega
  · have hlt := Nat.mod_lt (m * 2 ^ (e - min e e').toNat) (by positivity : 0 < m' * 2 ^ (e' - min e e').toNat)
    have h1 : m' * 2 ^ (e' - min e e').toNat = m' := by simp [h]
    omega

/-- The remainder is a value binary64 holds, so rounding leaves it exact. -/
theorem fmod64_finite {a b : Bits64} {x y : Rat} (hx : real64 a = some x) (hy : real64 b = some y) (hpos : 0 < y) :
    real64 (fmod64 a b) = some (x - y * truncRat (x / y)) ∧ |x - y * truncRat (x / y)| < y
      ∧ (fmod64 a b).getLsbD 63 = a.getLsbD 63 := by
  obtain ⟨m, e, hva, hra, rfl⟩ := exists_fin_of_real64 hx
  obtain ⟨m', e', hvb, hrb, rfl⟩ := exists_fin_of_real64 hy
  obtain ⟨hsign, hm'⟩ := dyadic_pos_iff.1 hpos
  rw [hsign] at hvb ⊢
  have hx' := dyadic_shift (a.getLsbD 63) m (e - min e e').toNat e
  have hy' := dyadic_shift false m' (e' - min e e').toNat e'
  rw [show e - ((e - min e e').toNat : Int) = min e e' by omega] at hx'
  rw [show e' - ((e' - min e e').toNat : Int) = min e e' by omega] at hy'
  unfold fmod64
  rw [hva, hvb, ← hx', ← hy', dyadic_sub_mul_truncRat]
  simp only
  rw [if_neg hm']
  refine ⟨real_round64_of_held _ ?_ ?_ ?_, ?_, sign_round64 _ _ _⟩
  · have := mod_aligned_lt m hm' e e'
    have : m < 2 ^ 53 := hra.lt_two_pow
    have : m' < 2 ^ 53 := hrb.lt_two_pow
    omega
  · exact le_min hra.emin_le hrb.emin_le
  · exact (min_le_left e e').trans (hra.le_top binary64_interchange)
  · rw [abs_dyadic, dyadic_false]
    gcongr
    exact Nat.mod_lt _ (by positivity)


end Sys2Proof.Machine

/-! ## The statements -/

open Sys2Proof Sys2Proof.Machine

/-- Settles O48: integers below 2^53 and all binary32 values are held by binary64. -/
theorem conversionsToBinary64AreExact : Obligations.ConversionsToBinary64AreExact :=
  ⟨fun _ => real64_f64OfInt, round64_zero false 0, fun _ _ => real64_f64OfF32, f64OfF32_inf32,
    fun _ => isNan64_f64OfF32⟩

/-- Settles O49: the finite operations round their exact result once, and the cases of infinities and NaNs are those of
the operations' definitions. -/
theorem binary64ArithmeticRoundsToNearestEven : Obligations.Binary64ArithmeticRoundsToNearestEven := by
  refine ⟨fun a b x y hx hy => ?_, fun a b h => ⟨add64_nan h, sub64_nan h, mul64_nan h⟩, fun n b y hy => ?_,
    fun n m => ⟨mul64_inf_inf n m, fun h => ?_, fun h => ?_⟩⟩
  · obtain ⟨hadd, hadd0⟩ := add64_finite hx hy
    obtain ⟨hsub, hsub0⟩ := sub64_finite hx hy
    obtain ⟨hmul, hmul0⟩ := mul64_finite hx hy
    exact ⟨hadd, hsub, hmul, hadd0, hsub0, hmul0⟩
  · obtain ⟨hadd, hadd'⟩ := add64_inf_finite n hy
    have hsub := (add64_inf_finite n (real64_neg64 hy)).1
    have hsub' := (add64_inf_finite (!n) hy).2
    rw [← neg64_inf64] at hsub'
    exact ⟨hadd, hadd', hsub, hsub'.trans (neg64_inf64 n), mul64_inf_finite n hy⟩
  · subst h
    rw [add64_inf_inf, sub64_inf_inf]
    simp
  · obtain rfl : n = !m := by cases n <;> cases m <;> simp_all
    rw [add64_inf_inf, sub64_inf_inf]
    simp

/-- Settles O50: `roundMag` rounds to nearest-even in binary32 too. -/
theorem conversionToBinary32RoundsToNearestEven : Obligations.ConversionToBinary32RoundsToNearestEven :=
  fun nan => ⟨fun _ _ => cvt32_finite nan, cvt32_inf64 nan, fun _ => cvt32_nan nan⟩

/-- Settles O51: both work on the exact value, as an integer over a power of two. -/
theorem floorAndComparisonAreExact : Obligations.FloorAndComparisonAreExact :=
  ⟨fun _ _ => floor64_finite, fun _ _ _ _ => gt64_finite, fun n _ _ => gt64_inf_finite n, gt64_inf_inf,
    fun _ _ => gt64_nan⟩

/-- Settles O52: the remainder at the smaller exponent is exact and binary64 holds it. -/
theorem remainderIsExact : Obligations.RemainderIsExact := fun _ _ _ _ => fmod64_finite

/-- Settles O53: an infinity by computation, a value because it is its own rounding. -/
theorem binary32RoundTrip : Obligations.Binary32RoundTrip := by
  intro nan w hw
  rcases eq_inf_or_real_of_not_nan binary32 (w := 31) (of_decide_eq_false hw) with ⟨n, rfl⟩ | ⟨x, hx⟩
  · rw [← pack32_eq, pack32_inf, f64OfF32_inf32, cvt32_inf64]
  · exact cvt32_f64OfF32_of_real32 nan hx

end

section
/-! SUPPORT. What one step can do, said once: the effects a host access can have, and the agent that moves. The proofs about
every instruction and every step go through these. -/

namespace Sys2Proof.Machine

/-! ## Host accesses -/

/-- The effects a host access can have on a state, with what is known where the effect occurs. -/
inductive HostEffect (s : State) : State → Prop where
  | ignored : HostEffect s s
  | read (v : Word) (d : Nat) : HostEffect s { s with reads := v :: s.reads, draws := d }
  | errBusy : s.inflight ≠ .none → HostEffect s s.setErrBusy
  | errCmd : s.inflight = .none → HostEffect s s.setErrCmd
  | clearErrors (v : Word) : HostEffect s (s.clearErrors v)
  | accept (f : InFlight) : s.inflight = .none →
      (∀ nin nout, f = .process nin nout → nin.toNat ≤ s.par.nch ∧ nout.toNat ≤ s.par.nch) →
      HostEffect s (s.accept f)
  | stagePitch (v : Word) : s.inflight = .none → HostEffect s (s.stagePitch v)
  | writeIbuf (c : BitVec 4) (i : BitVec 10) (v : Word) : s.inflight = .none → inWindow s.par c i = true →
      HostEffect s (s.writeIbuf c.toNat i.toNat v)

namespace HostEffect

variable {s : State}

theorem returnWord (v : Word) : HostEffect s (s.returnWord v) := .read v s.draws

theorem returnIfIdle (v : Word) : HostEffect s (s.returnIfIdle v) := by
  obtain ⟨w, d, h⟩ := s.returnIfIdle_eq v
  rw [h]
  exact .read w d

theorem whenIdle {f : State → State} (h : s.inflight = .none → HostEffect s (f s)) :
    HostEffect s (s.whenIdle f) := by
  obtain ⟨hi, he⟩ | ⟨hb, he⟩ := s.whenIdle_cases f <;> rw [he]
  · exact h hi
  · exact .errBusy hb

theorem acceptClear (h : s.inflight = .none) : HostEffect s (s.accept .clear) :=
  .accept _ h fun _ _ he => nomatch he

theorem acceptProcess {nin nout : BitVec 5} (h : s.inflight = .none)
    (hop : nin.toNat ≤ s.par.nch ∧ nout.toNat ≤ s.par.nch) : HostEffect s (s.accept (.process nin nout)) :=
  .accept _ h fun _ _ he => by cases he; exact hop

/-- The dispatch of a command word while idle (R110). -/
theorem acceptWord {w : Word} (h : s.inflight = .none) (hw : legalCmd s.par w = true) :
    HostEffect s (s.acceptWord w) := by
  obtain ⟨-, he⟩ | ⟨hop, he⟩ | ⟨-, -, he⟩ := s.acceptWord_cases w <;> rw [he]
  · exact acceptClear h
  · exact acceptProcess h (legalCmd_process hw hop)
  · exact .ignored

end HostEffect

/-- Every instruction answers a next state, and its effect is one of those of a host access. -/
theorem exec_effect (i : Instr) (s : State) : ∃ t, exec i s = .next t ∧ HostEffect s t := by
  cases i with
  | nop => exact ⟨_, rfl, .whenIdle fun _ => .ignored⟩
  | init => exact ⟨_, rfl, .whenIdle .acceptClear⟩
  | process nin nout =>
    refine ⟨_, rfl, .whenIdle fun hi => ?_⟩
    split_ifs with hop
    · exact .acceptProcess hi hop
    · exact .errCmd hi
  | illegalCmd w => exact ⟨_, rfl, .whenIdle .errCmd⟩
  | wrCmd w =>
    refine ⟨_, rfl, .whenIdle fun hi => ?_⟩
    split_ifs with hw
    · exact .acceptWord hi hw
    · exact .errCmd hi
  | rdCfgCap | rdCfgBlk | rdCmd | rdStatus | rdPitchIn => exact ⟨_, rfl, .returnWord _⟩
  | rdPitch | rdWcur | rdActive | rdRoffLo | rdRoffHi => exact ⟨_, rfl, .returnIfIdle _⟩
  | wrRoCfgCap v | wrRoCfgBlk v | wrRoPitch v | wrRoWcur v | wrRoActive v | wrRoRoffLo v | wrRoRoffHi v =>
    exact ⟨_, rfl, .ignored⟩
  | wrStatus v => exact ⟨_, rfl, .clearErrors v⟩
  | wrPitchIn v => exact ⟨_, rfl, .whenIdle (.stagePitch v)⟩
  | rdIbuf c j => exact ⟨_, rfl, .returnWord _⟩
  | wrIbuf c j v =>
    refine ⟨_, rfl, ?_⟩
    split_ifs with hw
    · exact .whenIdle fun hi => .writeIbuf c j v hi hw
    · exact .ignored
  | rdObuf c j =>
    refine ⟨_, rfl, ?_⟩
    split_ifs
    · exact .returnIfIdle _
    · exact .returnWord _
  | wrObuf c j v | wrRsvd a v => exact ⟨_, rfl, .ignored⟩
  | rdRsvd a => exact ⟨_, rfl, .returnWord _⟩

theorem HostEffect.of_exec {i : Instr} {s t : State} (h : exec i s = .next t) : HostEffect s t := by
  obtain ⟨u, hu, he⟩ := exec_effect i s
  cases hu.symm.trans h
  exact he

/-- No host access changes RING, W, R, P or A (R49). -/
theorem HostEffect.sameEngineState {s t : State} (h : HostEffect s t) : SameEngineState s t := by
  cases h <;> exact ⟨rfl, rfl, rfl, rfl, rfl⟩

/-! ## The agent that moves -/

/-- `s` with another schedule and level of the reset input. -/
def State.reschedule (s : State) (rest : List Event) (r : Bool) : State := { s with events := rest, rst := r }

theorem step_of_engine {s u : State} (h : s.nextTurn = .engine u) : step s = u.engineStep := by rw [step, h]

theorem step_of_wait {s u : State} (h : s.nextTurn = .wait u) : step s = .next u := by rw [step, h]

theorem HostEffect.of_step {s t u : State} {op : HostOp} (hn : s.nextTurn = .host op u) (h : step s = .next t) :
    HostEffect u t := by
  obtain ⟨op', u', i, hn', -, -, he⟩ | ⟨u', hn', -⟩ | hn' := step_next_cases h <;> cases hn.symm.trans hn'
  exact .of_exec he

/-- Everything one step can do: a host access, the Engine's completion, a move of the schedule or the reset input
alone, or the release of reset. -/
theorem step_effect {s t : State} (h : step s = .next t) : ∃ rest r,
    HostEffect (s.reschedule rest r) t ∨
      (s.nextTurn = .engine (s.reschedule rest r) ∧ (s.reschedule rest r).engineStep = .next t) ∨
      t = s.reschedule rest r ∨
      (s.rst = true ∧ s.events = .resetRelease :: rest ∧ t = (s.reschedule rest r).releaseReset) := by
  have wait {u} (hn : s.nextTurn = .wait u) : t = u := by
    cases (step_of_wait hn).symm.trans h
    rfl
  obtain ⟨-, -, hn⟩ | ⟨-, -, hn⟩ | ⟨op, rest, -, hn⟩ | ⟨rest, -, -, hn⟩ | ⟨rest, -, -, hn⟩ | ⟨rest, -, hn⟩ |
    ⟨rest, hev, hr, hn⟩ | ⟨rest, -, -, hn⟩ := s.nextTurn_cases
  · exact ⟨s.events, s.rst, .inr (.inr (.inl (wait hn)))⟩
  · exact ⟨s.events, s.rst, .inr (.inl ⟨hn, (step_of_engine hn).symm.trans h⟩)⟩
  · exact ⟨rest, s.rst, .inl (.of_step hn h)⟩
  · exact ⟨rest, s.rst, .inr (.inr (.inl (wait hn)))⟩
  · exact ⟨rest, s.rst, .inr (.inl ⟨hn, (step_of_engine hn).symm.trans h⟩)⟩
  · exact ⟨rest, true, .inr (.inr (.inl (wait hn)))⟩
  · exact ⟨rest, s.rst, .inr (.inr (.inr ⟨hr, hev, wait hn⟩))⟩
  · exact ⟨rest, s.rst, .inr (.inr (.inl (wait hn)))⟩

/-- With nothing in flight the Engine has no step (R245, R270). -/
theorem State.engineStep_of_idle {s : State} (h : s.inflight = .none) : s.engineStep = .next s := by
  unfold State.engineStep; rw [h]

theorem State.engineStep_of_clear {s : State} (h : s.inflight = .clear) :
    s.engineStep = .next s.completeClear := by
  unfold State.engineStep; rw [h]

theorem State.engineStep_of_process {s : State} {nin nout : BitVec 5} (h : s.inflight = .process nin nout) :
    s.engineStep = s.completeProcess nin.toNat nout.toNat := by
  unfold State.engineStep; rw [h]

end Sys2Proof.Machine
end

section
/-! SUPPORT. The staging words a PROCESS stores: both its paths only store OBUF words of the channels below nout. -/

namespace Sys2Proof.Machine

/-- `mem'` is `mem` after words were stored at OBUF[c][i] with c < k and i < n, any number of them in any order. -/
inductive ObufStores (k n : Nat) (mem : Memory) : Memory → Prop where
  | refl : ObufStores k n mem mem
  | store {m : Memory} {c i : Nat} (y : Word) : ObufStores k n mem m → c < k → i < n →
      ObufStores k n mem (memWrite m (obufAddr c i) y)

namespace ObufStores

variable {k n : Nat} {mem mem' : Memory}

/-- A byte outside the OBUF words of channels below `k` keeps its value (R40, R185). -/
theorem memByte_eq (h : ObufStores k n mem mem') {a : Nat}
    (ha : ∀ c i, c < k → i < n → a < obufAddr c i ∨ obufAddr c i + 4 ≤ a) (e : Nat) :
    memByte e mem' a = memByte e mem a := by
  induction h with
  | refl => rfl
  | store y _ hc hi ih =>
    have := ha _ _ hc hi
    rw [memByte_memWrite, if_neg (by omega), ih]

theorem wf (h : ObufStores k n mem mem') (hm : mem.wf none) : mem'.wf none := by
  induction h with
  | refl => exact hm
  | store y _ _ _ ih => exact Memory.wf_putWord ih _ _

/-- The bytes listed after the stores are those of OBUF words of channels below `k` and those listed before. -/
theorem listed (h : ObufStores k n mem mem') {x : Host.Cell} (hx : x ∈ mem') :
    (∃ c i, c < k ∧ i < n ∧ obufAddr c i ≤ x.1 ∧ x.1 < obufAddr c i + 4) ∨ x ∈ mem := by
  induction h with
  | refl => exact .inr hx
  | @store m c i y _ hc hi ih =>
    obtain ⟨hlo, hhi⟩ | hx := Memory.mem_putWord hx
    · exact .inl ⟨c, i, hc, hi, hlo, hhi⟩
    · exact ih hx

end ObufStores

variable {k N : Nat} {mem : Memory}

theorem obufStores_silenceSamples {c : Nat} (hc : c < k) {m : Memory} (hm : ObufStores k N mem m) {n : Nat}
    (hn : n ≤ N) : ObufStores k N mem (silenceSamples c n m) := by
  induction n with
  | zero => exact hm
  | succ i ih => exact .store _ (ih (by omega)) hc (by omega)

theorem obufStores_silenceChannels (p : Params) (mem : Memory) {j : Nat} (hj : j ≤ k) :
    ObufStores k p.blk mem (silenceChannels p j mem) := by
  induction j with
  | zero => exact .refl
  | succ c ih => exact obufStores_silenceSamples (by omega) (ih (by omega)) le_rfl

theorem obufStores_outputSamples {s : State} {c n : Nat} {x z : Bits64 × Memory} (hc : c < k) (hn : n ≤ N)
    (hx : ObufStores k N mem x.2) (h : s.outputSamples c n x = some z) : ObufStores k N mem z.2 := by
  induction n generalizing z with
  | zero => cases h; exact hx
  | succ i ih =>
    obtain ⟨y, hy, hz⟩ := State.outputSamples_succ h
    obtain ⟨w, hw, -⟩ := State.outputSample_eq hz
    rw [hw]
    exact .store w (ih (by omega) hy) hc (by omega)

theorem obufStores_outputChannels {s : State} {j : Nat} {x z : Bits64 × Memory} (hj : j ≤ k)
    (h : s.outputChannels j x = some z) : ObufStores k s.par.blk x.2 z.2 := by
  induction j generalizing z with
  | zero => cases h; exact .refl
  | succ c ih =>
    obtain ⟨y, hy, hz⟩ := State.outputChannels_succ h
    exact obufStores_outputSamples (by omega) le_rfl (ih (by omega) hy) hz

@[simp] theorem State.ingest_epoch (s : State) (nin : Nat) : (s.ingest nin).epoch = s.epoch := by rw [s.ingest_eq]

/-- What the completion of PROCESS does to the staging windows, in both its paths (R181 to R185). -/
theorem State.obufStores_completeProcess {s t : State} {nin nout : Nat} (h : s.completeProcess nin nout = .next t) :
    ObufStores nout s.par.blk s.mem t.mem ∧ t.epoch = s.epoch := by
  obtain ⟨-, he⟩ | ⟨-, -, he⟩ | ⟨-, -, -, he⟩ | ⟨-, -, u, hu, he⟩ := s.completeProcess_cases nin nout <;>
    cases he.symm.trans h
  · exact ⟨obufStores_silenceChannels s.par s.mem le_rfl, rfl⟩
  · obtain ⟨r, mem, r', ho, -, rfl⟩ := State.synthesize_eq hu
    have hs := obufStores_outputChannels le_rfl ho
    rw [State.ingest_par, State.ingest_mem] at hs
    exact ⟨hs, s.ingest_epoch nin⟩

end Sys2Proof.Machine
end

section
/-! SUPPORT. The invariant of reachable states: it holds at reset, and each operation of a step keeps it. -/

namespace Sys2Proof.Machine

/-! ## RING -/

theorem Memory.find_eq_none {m : Memory} {a : Nat} (h : ∀ x ∈ m, x.1 ≠ a) : m.find a = none := by
  induction m with
  | nil => rfl
  | cons x m ih =>
    rw [Memory.find, if_neg (h x List.mem_cons_self), ih fun y hy => h y (List.mem_cons_of_mem x hy)]

/-- A slot at or above every byte listed holds +0.0. -/
theorem ringRead_of_not_listed {p : Params} {ring : Memory} {c j : Nat} (h : ∀ x ∈ ring, x.1 < ringAddr p c j) :
    ringRead p ring c j = 0x00000000#32 := by
  have hz (k : Nat) : ringByte ring (ringAddr p c j + k) = 0 := by
    rw [ringByte, Memory.find_eq_none fun x hx => by have := h x hx; omega]
    rfl
  calc ringRead p ring c j
      _ = wordAt (fun _ => 0) (ringAddr p c j) := wordAt_eq_of fun k _ => hz k
      _ = 0x00000000#32 := by rw [wordAt]; decide

/-! ## The windows -/

theorem inWindow_iff {p : Params} {c : BitVec 4} {i : BitVec 10} :
    inWindow p c i = true ↔ c.toNat < p.nch ∧ i.toNat < p.blk := by
  simp [inWindow]

theorem windowByte_of_ibuf {p : Params} (hp : p.Legal) {c i a : Nat} (hc : c < p.nch) (hi : i < p.blk)
    (hlo : ibufAddr c i ≤ a) (hhi : a < ibufAddr c i + 4) : windowByte p a := by
  obtain ⟨-, -, -, hblk, -, hnch⟩ := hp
  unfold ibufAddr at hlo hhi
  refine ⟨?_, ?_, ?_, ?_⟩ <;> omega

theorem windowByte_of_obuf {p : Params} (hp : p.Legal) {c i a : Nat} (hc : c < p.nch) (hi : i < p.blk)
    (hlo : obufAddr c i ≤ a) (hhi : a < obufAddr c i + 4) : windowByte p a := by
  obtain ⟨-, -, -, hblk, -, hnch⟩ := hp
  unfold obufAddr at hlo hhi
  refine ⟨?_, ?_, ?_, ?_⟩ <;> omega

/-! ## The read offset -/

theorem exists_real64_of_isFinite64 {x : Bits64} (h : isFinite64 x = true) : ∃ v, real64 x = some v := by
  obtain ⟨m, e, hv⟩ := exists_fin_of_lt_infMag binary64 (x.getLsbD 63) (of_decide_eq_true h)
  exact ⟨_, by rw [real64, value64, hv, FpValue.real_fin]⟩

/-- FINAL_NORMALIZE leaves a read offset of magnitude below C (R158, R166). -/
theorem finalNormalize_bounded {p : Params} (hp : p.Legal) {r r' : Bits64} (h : finalNormalize p r = some r') :
    ∃ v, real64 r' = some v ∧ |v| < p.cap := by
  obtain ⟨hcap, hcap', -⟩ := hp
  unfold finalNormalize at h
  split_ifs at h with hf
  cases h
  obtain ⟨x, hx⟩ := exists_real64_of_isFinite64 hf
  have hC : real64 (f64OfInt p.cap) = some ((p.cap : Int) : Rat) := real64_f64OfInt (by rw [Nat.abs_cast]; omega)
  obtain ⟨hv, hlt, -⟩ := fmod64_finite hx hC (by norm_cast; omega)
  exact ⟨_, hv, by simpa using hlt⟩

/-! ## The invariant -/

/-- What the invariant asks of RING, W, R, P and A right after the clear (R113, R261). -/
theorem Inv.of_cleared {s : State} (hp : s.par.Legal) (hring : s.ring = []) (hw : s.wcur = 0)
    (hr : s.roff = 0x0000000000000000#64) (hpitch : s.pitch = 0x3F800000#32) (ha : s.active = 0)
    (hmem : s.mem.wf none) (hwin : ∀ x ∈ s.mem, windowByte s.par x.1)
    (hop : ∀ nin nout, s.inflight ≠ .process nin nout) : Inv s where
  legal := hp
  wcur_lt := by have := hp.1; omega
  active_le := by omega
  ring_wf := hring ▸ ⟨.nil, nofun⟩
  ring_populated := by simp [hring]
  mem_wf := hmem
  mem_window := hwin
  operands := fun nin nout h => absurd h (hop nin nout)
  pitch_finite := by rw [hpitch]; decide
  roff_bounded := by
    have := hp.1
    have hz : s.roff = zero64 false := hr
    exact ⟨0, by rw [hz, real64, value64_zero64, FpValue.real_fin, dyadic_zero], by rw [abs_zero]; norm_cast; omega⟩

/-- The invariant holds right after reset, whatever the model's own fields are (R261). -/
theorem Inv.releaseReset {s : State} (hp : s.par.Legal) : Inv s.releaseReset :=
  .of_cleared hp rfl rfl rfl rfl rfl ⟨.nil, nofun⟩ nofun nofun

theorem inv_resetWith {p : Params} (hp : p.Legal) : Inv (State.resetWith p) :=
  .of_cleared hp rfl rfl rfl rfl rfl ⟨.nil, nofun⟩ nofun nofun

namespace Inv

variable {s t : State}

theorem reschedule (h : Inv s) (rest : List Event) (r : Bool) : Inv (s.reschedule rest r) := { h with }

theorem completeClear (h : Inv s) : Inv s.completeClear :=
  .of_cleared h.legal rfl rfl rfl rfl rfl h.mem_wf h.mem_window nofun

theorem finish (h : Inv s) : Inv s.finish := { h with operands := nofun }

theorem writeIbuf (h : Inv s) {c i : Nat} (hc : c < s.par.nch) (hi : i < s.par.blk) (v : Word) :
    Inv (s.writeIbuf c i v) :=
  { h with
    mem_wf := Memory.wf_putWord h.mem_wf _ _
    mem_window := fun x (hx : x ∈ memWrite s.mem (ibufAddr c i) v) => by
      obtain ⟨hlo, hhi⟩ | hx := Memory.mem_putWord hx
      · exact windowByte_of_ibuf h.legal hc hi hlo hhi
      · exact h.mem_window x hx }

/-- A host access keeps the invariant: only INFLIGHT, with legal operands, and IBUF change (R49, R95, R210). -/
theorem hostEffect (h : Inv s) (he : HostEffect s t) : Inv t := by
  cases he with
  | ignored => exact h
  | read | errBusy | errCmd | clearErrors | stagePitch => exact { h with }
  | accept f _ hop => exact { h with operands := hop }
  | writeIbuf c i v _ hw =>
    obtain ⟨hc, hi⟩ := inWindow_iff.1 hw
    exact h.writeIbuf hc hi v

/-- Stores to OBUF words that exist keep what the invariant says of the staging windows. -/
theorem obufStores (h : Inv s) {nout : Nat} (hn : nout ≤ s.par.nch) {mem : Memory}
    (hs : ObufStores nout s.par.blk s.mem mem) : Inv { s with mem := mem } :=
  { h with
    mem_wf := hs.wf h.mem_wf
    mem_window := fun x hx => by
      obtain ⟨c, i, hc, hi, hlo, hhi⟩ | hx := hs.listed hx
      · exact windowByte_of_obuf h.legal (by omega) hi hlo hhi
      · exact h.mem_window x hx }

theorem noInput (h : Inv s) {nout : Nat} (hn : nout ≤ s.par.nch) : Inv (s.noInput nout) :=
  h.obufStores hn (obufStores_silenceChannels s.par s.mem le_rfl)

/-- ENSURE_CHANNELS, WRITE_BLOCK and SAMPLE_PARAMETER keep the invariant where the block's pitch is finite: A rises
only to nin, and the slots written are those of populated channels (R120, R130, R141, R145). -/
theorem ingest (h : Inv s) {nin : Nat} (hn : nin ≤ s.par.nch) (hf : isFinite32 s.blockPitch = true) :
    Inv (s.ingest nin) := by
  have hcap : 0 < s.par.cap := by have := h.legal.1; omega
  rw [s.ingest_eq]
  exact
    { h with
      wcur_lt := writeSlot_lt hcap _ _
      active_le := max_le h.active_le hn
      ring_wf := State.wf_writeChannels _ _ _ h.ring_wf
      ring_populated := fun x (hx : x ∈ State.writeChannels _ nin (max s.active nin) s.ring) => by
        obtain hx | hx := State.mem_writeChannels { s with active := max s.active nin } _ _ hcap hx
        · exact hx
        · calc x.1 < 4 * (s.active * s.par.cap) := h.ring_populated x hx
            _ ≤ 4 * (max s.active nin * s.par.cap) := by gcongr; exact le_max_left _ _
      pitch_finite := hf }

/-- The reads and FINAL_NORMALIZE keep the invariant (R158, R159, R182). -/
theorem synthesize (h : Inv s) {nout : Nat} (hn : nout ≤ s.par.nch) (ht : s.synthesize nout = some t) : Inv t := by
  obtain ⟨r, mem, r', ho, hr, rfl⟩ := State.synthesize_eq ht
  exact { h.obufStores hn (obufStores_outputChannels le_rfl ho) with
    roff_bounded := finalNormalize_bounded h.legal hr }

theorem completeProcess (h : Inv s) {nin nout : Nat} (hin : nin ≤ s.par.nch) (hout : nout ≤ s.par.nch)
    (ht : s.completeProcess nin nout = .next t) : Inv t := by
  obtain ⟨-, he⟩ | ⟨-, -, he⟩ | ⟨-, -, -, he⟩ | ⟨-, hf, u, hu, he⟩ := s.completeProcess_cases nin nout <;>
    cases he.symm.trans ht
  · exact (h.noInput hout).finish
  · exact ((h.ingest hin hf).synthesize (by rwa [State.ingest_par]) hu).finish

theorem engineStep (h : Inv s) (ht : s.engineStep = .next t) : Inv t := by
  cases hi : s.inflight with
  | none => cases (State.engineStep_of_idle hi).symm.trans ht; exact h
  | clear => cases (State.engineStep_of_clear hi).symm.trans ht; exact h.completeClear
  | process nin nout =>
    obtain ⟨hin, hout⟩ := h.operands nin nout hi
    exact h.completeProcess hin hout ((State.engineStep_of_process hi).symm.trans ht)

theorem step (h : Inv s) (ht : step s = .next t) : Inv t := by
  obtain ⟨rest, r, he | ⟨-, he⟩ | rfl | ⟨-, -, rfl⟩⟩ := step_effect ht
  · exact (h.reschedule rest r).hostEffect he
  · exact (h.reschedule rest r).engineStep he
  · exact h.reschedule rest r
  · exact .releaseReset h.legal

end Inv

end Sys2Proof.Machine
end

section
/-! SUPPORT. PSTAGE is unobservable while PEND = 0 (R36, R143): every operation takes two states that differ only in an unused
PSTAGE to two such states. -/

namespace Sys2Proof.Machine

/-- `s` with another word in PSTAGE. -/
def State.restage (s : State) (w : Word) : State := { s with pstage := w }

@[simp] theorem State.restage_par (s : State) (w : Word) : (s.restage w).par = s.par := rfl
@[simp] theorem State.restage_roff (s : State) (w : Word) : (s.restage w).roff = s.roff := rfl
@[simp] theorem State.restage_pitch (s : State) (w : Word) : (s.restage w).pitch = s.pitch := rfl
@[simp] theorem State.restage_pend (s : State) (w : Word) : (s.restage w).pend = s.pend := rfl
@[simp] theorem State.restage_mem (s : State) (w : Word) : (s.restage w).mem = s.mem := rfl
@[simp] theorem State.restage_rst (s : State) (w : Word) : (s.restage w).rst = s.rst := rfl
@[simp] theorem State.restage_events (s : State) (w : Word) : (s.restage w).events = s.events := rfl

theorem sameButUnusedStage_iff {s s' : State} :
    SameButUnusedStage s s' ↔ s' = s ∨ s.pend = false ∧ ∃ w, s' = s.restage w := by
  constructor
  · rintro ⟨he, hp⟩
    cases hs : s.pend with
    | false => exact .inr ⟨rfl, _, he⟩
    | true => exact .inl (by rw [he, hp hs])
  · rintro (rfl | ⟨hs, w, rfl⟩)
    · exact ⟨rfl, fun _ => rfl⟩
    · exact ⟨rfl, fun h => absurd (hs.symm.trans h) (by decide)⟩

namespace SameButUnusedStage

variable {s s' : State}

theorem refl (s : State) : SameButUnusedStage s s := sameButUnusedStage_iff.2 (.inl rfl)

theorem restage (h : s.pend = false) (w : Word) : SameButUnusedStage s (s.restage w) :=
  sameButUnusedStage_iff.2 (.inr ⟨h, w, rfl⟩)

/-- An update that keeps PEND and commutes with writing PSTAGE keeps the relation. -/
theorem map {f : State → State} (hp : ∀ s, (f s).pend = s.pend) (hf : ∀ s w, f (s.restage w) = (f s).restage w)
    (h : SameButUnusedStage s s') : SameButUnusedStage (f s) (f s') := by
  obtain rfl | ⟨hs, w, rfl⟩ := sameButUnusedStage_iff.1 h
  · exact refl _
  · rw [hf]
    exact restage ((hp s).trans hs) w

theorem reschedule (h : SameButUnusedStage s s') (rest : List Event) (r : Bool) :
    SameButUnusedStage (s.reschedule rest r) (s'.reschedule rest r) :=
  h.map (f := fun s => s.reschedule rest r) (fun _ => rfl) fun _ _ => rfl

/-! ## Host accesses -/

theorem returnWord (h : SameButUnusedStage s s') (v : Word) : SameButUnusedStage (s.returnWord v) (s'.returnWord v) :=
  h.map (f := fun s => s.returnWord v) (fun _ => rfl) fun _ _ => rfl

theorem setErrCmd (h : SameButUnusedStage s s') : SameButUnusedStage s.setErrCmd s'.setErrCmd :=
  h.map (fun _ => rfl) fun _ _ => rfl

theorem accept (h : SameButUnusedStage s s') (f : InFlight) : SameButUnusedStage (s.accept f) (s'.accept f) :=
  h.map (f := fun s => s.accept f) (fun _ => rfl) fun _ _ => rfl

theorem clearErrors (h : SameButUnusedStage s s') (v : Word) :
    SameButUnusedStage (s.clearErrors v) (s'.clearErrors v) :=
  h.map (f := fun s => s.clearErrors v) (fun _ => rfl) fun _ _ => rfl

theorem writeIbuf (h : SameButUnusedStage s s') (c i : Nat) (v : Word) :
    SameButUnusedStage (s.writeIbuf c i v) (s'.writeIbuf c i v) :=
  h.map (f := fun s => s.writeIbuf c i v) (fun _ => rfl) fun _ _ => rfl

/-- A staged word overwrites the difference (R140, R142). -/
theorem stagePitch (h : SameButUnusedStage s s') (v : Word) :
    SameButUnusedStage (s.stagePitch v) (s'.stagePitch v) := by
  obtain rfl | ⟨-, w, rfl⟩ := sameButUnusedStage_iff.1 h <;> exact refl _

theorem ite {p : Prop} [Decidable p] {u u' : State} (h : SameButUnusedStage s s') (hu : SameButUnusedStage u u') :
    SameButUnusedStage (if p then s else u) (if p then s' else u') := by
  split_ifs
  · exact h
  · exact hu

theorem busy_eq (h : SameButUnusedStage s s') : s'.busy = s.busy := by rw [h.1]; rfl

theorem fetch_eq (h : SameButUnusedStage s s') (op : HostOp) : s'.fetch op = s.fetch op := by rw [h.1]; rfl

theorem whenIdle (h : SameButUnusedStage s s') {f : State → State} (hf : SameButUnusedStage (f s) (f s')) :
    SameButUnusedStage (s.whenIdle f) (s'.whenIdle f) := by
  unfold State.whenIdle
  rw [h.busy_eq]
  exact .ite (h.map (fun _ => rfl) fun _ _ => rfl) hf

theorem returnIfIdle (h : SameButUnusedStage s s') (v : Word) :
    SameButUnusedStage (s.returnIfIdle v) (s'.returnIfIdle v) := by
  unfold State.returnIfIdle
  rw [h.busy_eq]
  exact .ite (h.map (fun _ => rfl) fun _ _ => rfl) (h.returnWord v)

theorem acceptWord (h : SameButUnusedStage s s') (w : Word) :
    SameButUnusedStage (s.acceptWord w) (s'.acceptWord w) :=
  .ite (h.accept _) (.ite (h.accept _) h)

end SameButUnusedStage

/-- Two outcomes that only differ in an unused PSTAGE of the next state. -/
def SameOutcomes (o o' : Host.Outcome State Fault Refusal) : Prop :=
  (∀ t, o = .next t → ∃ t', o' = .next t' ∧ SameButUnusedStage t t') ∧ ∀ r, o = .refused r → o' = .refused r

theorem SameOutcomes.next {t t' : State} (h : SameButUnusedStage t t') : SameOutcomes (.next t) (.next t') :=
  ⟨fun _ he => by cases he; exact ⟨t', rfl, h⟩, nofun⟩

theorem SameOutcomes.refl (o : Host.Outcome State Fault Refusal) : SameOutcomes o o :=
  ⟨fun t he => ⟨t, he, .refl t⟩, fun _ he => he⟩

/-- No instruction reads an unused PSTAGE, and only a staged word overwrites it (R36, R140). -/
theorem sameOutcomes_exec (i : Instr) {s s' : State} (h : SameButUnusedStage s s') :
    SameOutcomes (exec i s) (exec i s') := by
  obtain rfl | ⟨hs, w, rfl⟩ := sameButUnusedStage_iff.1 h
  · exact .refl _
  cases i with
  | nop => exact .next (h.whenIdle h)
  | init => exact .next (h.whenIdle (h.accept .clear))
  | process nin nout => exact .next (h.whenIdle (.ite (h.accept _) h.setErrCmd))
  | illegalCmd v => exact .next (h.whenIdle h.setErrCmd)
  | wrCmd v => exact .next (h.whenIdle (.ite (h.acceptWord v) h.setErrCmd))
  | rdCfgCap | rdCfgBlk | rdCmd | rdStatus | rdPitchIn => exact .next (h.returnWord _)
  | rdPitch | rdWcur | rdActive | rdRoffLo | rdRoffHi => exact .next (h.returnIfIdle _)
  | wrRoCfgCap v | wrRoCfgBlk v | wrRoPitch v | wrRoWcur v | wrRoActive v | wrRoRoffLo v | wrRoRoffHi v =>
    exact .next h
  | wrStatus v => exact .next (h.clearErrors v)
  | wrPitchIn v => exact .next (h.whenIdle (h.stagePitch v))
  | rdIbuf c j => exact .next (h.returnWord _)
  | wrIbuf c j v => exact .next (.ite (h.whenIdle (h.writeIbuf _ _ v)) h)
  | rdObuf c j => exact .next (.ite (h.returnIfIdle _) (h.returnWord _))
  | wrObuf c j v | wrRsvd a v => exact .next h
  | rdRsvd a => exact .next (h.returnWord _)

/-! ## The Engine -/

theorem State.writeSamples_restage (s : State) (w : Word) (nin c n : Nat) (ring : Memory) :
    (s.restage w).writeSamples nin c n ring = s.writeSamples nin c n ring := by
  induction n with
  | zero => rfl
  | succ i ih =>
    rw [State.writeSamples, ih]
    rfl

theorem State.writeChannels_restage (s : State) (w : Word) (nin k : Nat) (ring : Memory) :
    (s.restage w).writeChannels nin k ring = s.writeChannels nin k ring := by
  induction k with
  | zero => rfl
  | succ c ih =>
    rw [State.writeChannels, ih, State.writeSamples_restage]
    rfl

theorem State.ensureChannels_restage (s : State) (w : Word) (nin : Nat) :
    (s.restage w).ensureChannels nin = (s.ensureChannels nin).restage w := by
  rw [State.ensureChannels_eq, State.ensureChannels_eq]
  rfl

theorem State.writeBlock_restage (s : State) (w : Word) (nin : Nat) :
    (s.restage w).writeBlock nin = (s.writeBlock nin).restage w := by
  rw [State.writeBlock, State.writeChannels_restage]
  rfl

/-- With nothing pending SAMPLE_PARAMETER does not read PSTAGE (R141). -/
theorem State.sampleParameter_restage {s : State} (hs : s.pend = false) (w : Word) :
    (s.restage w).sampleParameter = s.sampleParameter.restage w := by
  simp [State.sampleParameter, hs]

theorem State.ingest_restage {s : State} (hs : s.pend = false) (w : Word) (nin : Nat) :
    (s.restage w).ingest nin = (s.ingest nin).restage w := by
  have hpend : ((s.ensureChannels nin).writeBlock nin).pend = false := by
    rw [State.writeBlock_pend, State.ensureChannels_eq]
    exact hs
  rw [State.ingest, State.ensureChannels_restage, State.writeBlock_restage, State.sampleParameter_restage hpend,
    State.ingest]

theorem State.outputSamples_restage (s : State) (w : Word) (c n : Nat) (x : Bits64 × Memory) :
    (s.restage w).outputSamples c n x = s.outputSamples c n x := by
  induction n with
  | zero => rfl
  | succ i ih =>
    rw [State.outputSamples, ih]
    rfl

theorem State.outputChannels_restage (s : State) (w : Word) (k : Nat) (x : Bits64 × Memory) :
    (s.restage w).outputChannels k x = s.outputChannels k x := by
  induction k with
  | zero => rfl
  | succ c ih =>
    simp only [State.outputChannels, ih, State.outputSamples_restage]
    rfl

theorem State.synthesize_restage (s : State) (w : Word) (nout : Nat) :
    (s.restage w).synthesize nout = (s.synthesize nout).map (State.restage · w) := by
  simp only [State.synthesize, State.outputChannels_restage, State.restage_roff, State.restage_mem, State.restage_par]
  rcases s.outputChannels nout (s.roff, s.mem) with _ | ⟨r, mem⟩
  · rfl
  · dsimp only
    cases finalNormalize s.par r <;> rfl

/-- The completion of a PROCESS clears PEND and reads PSTAGE only where it is pending (R141, R186). -/
theorem sameOutcomes_completeProcess {s : State} (hs : s.pend = false) (w : Word) (nin nout : Nat) :
    SameOutcomes (s.completeProcess nin nout) ((s.restage w).completeProcess nin nout) := by
  unfold State.completeProcess
  rw [State.ingest_restage hs, State.synthesize_restage, State.restage_pitch]
  split_ifs
  · exact .next (.restage rfl w)
  · cases (s.ingest nin).synthesize nout with
    | none => exact .refl _
    | some t => exact .next (.restage (s := t.finish) rfl w)
  · exact .refl _

theorem sameOutcomes_engineStep {s s' : State} (h : SameButUnusedStage s s') :
    SameOutcomes s.engineStep s'.engineStep := by
  obtain rfl | ⟨hs, w, rfl⟩ := sameButUnusedStage_iff.1 h
  · exact .refl _
  cases hi : s.inflight with
  | none =>
    rw [State.engineStep_of_idle hi, State.engineStep_of_idle (s := s.restage w) hi]
    exact .next h
  | clear =>
    rw [State.engineStep_of_clear hi, State.engineStep_of_clear (s := s.restage w) hi]
    exact .next (.restage (s := s.completeClear) rfl w)
  | process nin nout =>
    rw [State.engineStep_of_process hi, State.engineStep_of_process (s := s.restage w) hi]
    exact sameOutcomes_completeProcess hs w nin.toNat nout.toNat

/-! ## The step -/

/-- Two moves of the same agent from states that only differ in an unused PSTAGE. -/
inductive SameTurn : Turn → Turn → Prop where
  | host (op : HostOp) {s s' : State} : SameButUnusedStage s s' → SameTurn (.host op s) (.host op s')
  | engine {s s' : State} : SameButUnusedStage s s' → SameTurn (.engine s) (.engine s')
  | wait {s s' : State} : SameButUnusedStage s s' → SameTurn (.wait s) (.wait s')

theorem SameTurn.refl (a : Turn) : SameTurn a a := by
  cases a with
  | host op s => exact .host op (.refl s)
  | engine s => exact .engine (.refl s)
  | wait s => exact .wait (.refl s)

theorem SameTurn.ite {p : Prop} [Decidable p] {a a' b b' : Turn} (ha : SameTurn a a') (hb : SameTurn b b') :
    SameTurn (if p then a else b) (if p then a' else b') := by
  split_ifs
  · exact ha
  · exact hb

/-- The schedule and the reset input do not depend on PSTAGE, and a release of reset overwrites it (R236, R260). -/
theorem sameTurn_nextTurn {s s' : State} (h : SameButUnusedStage s s') : SameTurn s.nextTurn s'.nextTurn := by
  obtain rfl | ⟨hs, w, rfl⟩ := sameButUnusedStage_iff.1 h
  · exact .refl _
  simp only [State.nextTurn, State.restage_events, State.restage_rst]
  rcases s.events with _ | ⟨e, rest⟩
  · exact .ite (.wait h) (.engine h)
  cases e with
  | host op => exact .host op (h.reschedule rest s.rst)
  | engine => exact .ite (.wait (h.reschedule rest s.rst)) (.engine (h.reschedule rest s.rst))
  | resetAssert => exact .wait (h.reschedule rest true)
  | resetRelease => exact .ite (.wait (.refl _)) (.wait (h.reschedule rest s.rst))

/-- A step of two states that only differ in an unused PSTAGE is refused alike or leads to two such states (R36). -/
theorem sameOutcomes_step {s s' : State} (h : SameButUnusedStage s s') : SameOutcomes (step s) (step s') := by
  have hturn := sameTurn_nextTurn h
  unfold step
  generalize s.nextTurn = a, s'.nextTurn = b at hturn
  cases hturn with
  | host op hu =>
    dsimp only
    rw [hu.fetch_eq op]
    cases State.fetch _ op with
    | ok i => exact sameOutcomes_exec i hu
    | error r => exact .refl _
  | engine hu => exact sameOutcomes_engineStep hu
  | wait hu => exact .next hu

end Sys2Proof.Machine
end

section
/-! SUPPORT. The fields of the configuration words (R45, R200). -/

namespace Sys2Proof.Machine

theorem toNat_cfgCapWord {p : Params} (hp : p.Legal) : (cfgCapWord p).toNat = p.cap := by
  obtain ⟨-, hcap, -⟩ := hp
  rw [cfgCapWord, BitVec.toNat_ofNat]
  omega

/-- The bits of CFG_BLK: N in [10:0], zeros in [15:11], NCH_MAX from bit 16 (R45). -/
theorem getLsbD_cfgBlkWord (p : Params) {i : Nat} (hi : i < 32) :
    (cfgBlkWord p).getLsbD i
      = if i < 11 then (BitVec.ofNat 11 p.blk).getLsbD i
        else if i < 16 then false else (BitVec.ofNat 5 p.nch).getLsbD (i - 16) := by
  rw [cfgBlkWord, BitVec.zeroExtend, BitVec.getLsbD_setWidth, BitVec.getLsbD_append, BitVec.getLsbD_append,
    BitVec.getLsbD_zero, decide_eq_true hi, Bool.true_and]
  split_ifs
  · rfl
  · rfl
  · omega
  · omega
  · rw [Nat.sub_sub]

theorem cfgBlkWord_blk (p : Params) : (cfgBlkWord p).extractLsb' 0 11 = BitVec.ofNat 11 p.blk := by
  refine BitVec.eq_of_getLsbD_eq fun i hi => ?_
  rw [BitVec.getLsbD_extractLsb', decide_eq_true hi, getLsbD_cfgBlkWord p (by omega), if_pos (by omega),
    Nat.zero_add, Bool.true_and]

theorem cfgBlkWord_gap (p : Params) : (cfgBlkWord p).extractLsb' 11 5 = 0#5 := by
  refine BitVec.eq_of_getLsbD_eq fun i hi => ?_
  rw [BitVec.getLsbD_extractLsb', getLsbD_cfgBlkWord p (by omega), if_neg (by omega), if_pos (by omega),
    Bool.and_false, BitVec.getLsbD_zero]

theorem cfgBlkWord_nch (p : Params) : (cfgBlkWord p).extractLsb' 16 5 = BitVec.ofNat 5 p.nch := by
  refine BitVec.eq_of_getLsbD_eq fun i hi => ?_
  rw [BitVec.getLsbD_extractLsb', decide_eq_true hi, getLsbD_cfgBlkWord p (by omega), if_neg (by omega),
    if_neg (by omega), Nat.add_sub_cancel_left, Bool.true_and]

theorem cfgBlkWord_top (p : Params) : (cfgBlkWord p).extractLsb' 21 11 = 0#11 := by
  refine BitVec.eq_of_getLsbD_eq fun i hi => ?_
  rw [BitVec.getLsbD_extractLsb', getLsbD_cfgBlkWord p (by omega), if_neg (by omega), if_neg (by omega),
    BitVec.getLsbD_of_ge _ _ (by omega), Bool.and_false, BitVec.getLsbD_zero]

end Sys2Proof.Machine
end

section
/-! ## The statements -/

open Sys2Proof Sys2Proof.Machine

/-- Settles O12: each effect of a host access, each completion of the Engine and each move of the reset input keeps
every clause of the invariant. -/
theorem stepKeepsInvariant : Obligations.StepKeepsInvariant := fun _ _ => Inv.step

/-- Settles O35, by a simulation: the two states take the same turn, and each operation of that turn keeps the
relation. -/
theorem unpendedStageIsUnobservable : Obligations.UnpendedStageIsUnobservable := fun _ _ => sameOutcomes_step

/-- Settles O13: the slots of an unpopulated channel lie above every byte of RING that is listed. -/
theorem unpopulatedChannelsHoldZero : Obligations.UnpopulatedChannelsHoldZero := by
  refine fun s h => ⟨h.wcur_lt, h.active_le, fun c j hc _ => ringRead_of_not_listed fun x hx => ?_⟩
  calc x.1 < 4 * (s.active * s.par.cap) := h.ring_populated x hx
    _ ≤ 4 * (c * s.par.cap) := by gcongr
    _ ≤ ringAddr s.par c j := by unfold ringAddr; omega

/-- Settles O14: no effect of a host access touches the engine state, and an Engine with nothing in flight has no
step. -/
theorem onlyCommandsAndResetChangeEngineState : Obligations.OnlyCommandsAndResetChangeEngineState := by
  refine ⟨fun i s t h => (HostEffect.of_exec h).sameEngineState, fun s t h hne => ?_⟩
  obtain ⟨rest, r, he | ⟨hn, he⟩ | rfl | ⟨hr, hev, -⟩⟩ := step_effect h
  · exact absurd he.sameEngineState hne
  · refine .inl ⟨fun hi => hne ?_, _, hn⟩
    cases (State.engineStep_of_idle (s := s.reschedule rest r) hi).symm.trans he
    exact ⟨rfl, rfl, rfl, rfl, rfl⟩
  · exact absurd ⟨rfl, rfl, rfl, rfl, rfl⟩ hne
  · exact .inr ⟨hr, rest, hev⟩

/-- Settles O41: all that a PROCESS does to the staging windows is to store OBUF words of channels below nout. -/
theorem processWritesOnlyItsOutputWords : Obligations.ProcessWritesOnlyItsOutputWords := by
  intro s t nin nout hi ht a ha
  obtain ⟨hs, hep⟩ := State.obufStores_completeProcess ((State.engineStep_of_process hi).symm.trans ht)
  rw [State.byte, hep]
  exact hs.memByte_eq ha s.epoch

/-- Settles O11. -/
theorem invariantHoldsAtReset : Obligations.InvariantHoldsAtReset :=
  ⟨inv_resetWith (by decide), fun _ => inv_resetWith⟩

/-- Settles O15: each field is read off the concatenation that makes the word. -/
theorem configReadsGiveParameters : Obligations.ConfigReadsGiveParameters := by
  refine fun s hp => ⟨cfgCapWord s.par, cfgBlkWord s.par, rfl, rfl, toNat_cfgCapWord hp, ?_, cfgBlkWord_gap _, ?_,
    cfgBlkWord_top _, fun hs => ?_⟩
  · rw [cfgBlkWord_blk, BitVec.toNat_ofNat]
    omega
  · rw [cfgBlkWord_nch, BitVec.toNat_ofNat]
    omega
  · rw [hs]
    decide

end

section
/-! SUPPORT. The port: which accesses the decoder admits, where it finds a reserved address, and how a scheduled access
reaches `exec`. -/

namespace Sys2Proof

/-! ## Admission -/

theorem aligned_iff {a : Addr} : aligned a = true ↔ a.extractLsb' 0 2 = 0#2 := beq_iff_eq

theorem admitWord_of_width {width : Nat} (h : width ≠ 32) (a : Addr) (i : Instr) :
    admitWord width a i = .error (.accessWidth width) := if_pos h

theorem admitWord_of_misaligned {a : Addr} (h : a.extractLsb' 0 2 ≠ 0#2) (i : Instr) :
    admitWord 32 a i = .error (.misaligned a) := if_neg (mt aligned_iff.1 h)

theorem admitWord_of_aligned {a : Addr} (h : aligned a = true) (i : Instr) : admitWord 32 a i = .ok i := if_pos h

/-- A read and a write of one width and address are admitted or rejected alike. -/
theorem decode_eq_admitWord {op : HostOp} {width : Nat} {a : Addr} {v : Word}
    (h : op = .read width a ∨ op = .write width a v) (p : Params) : ∃ i, decode p op = admitWord width a i := by
  obtain rfl | rfl := h
  · exact ⟨decodeRead p a, rfl⟩
  · exact ⟨decodeWrite p a v, rfl⟩

/-! ## Reserved addresses -/

section
variable {p : Params} {a : Addr}

/-- A reserved address is none of the register offsets (R43, R62). -/
theorem ne_register_of_reserved (h : reservedAddr p a = true) (k : Addr) (hk : k.toNat < 0x28) : a ≠ k := by
  unfold reservedAddr at h
  simp only [Bool.and_eq_true, decide_eq_true_eq] at h
  rintro rfl
  omega

/-- A reserved address is no word of the IBUF or OBUF window (R62, R66). -/
theorem not_window_of_reserved (h : reservedAddr p a = true) :
    ¬ (regionField a = 1#2 ∧ inWindow p (chanField a) (sampField a) = true)
      ∧ ¬ (regionField a = 2#2 ∧ inWindow p (chanField a) (sampField a) = true) := by
  unfold reservedAddr at h
  constructor <;> rintro ⟨hregion, hw⟩ <;> simp [hregion, hw] at h

theorem decodeRead_of_reserved (h : reservedAddr p a = true) : decodeRead p a = .rdRsvd a := by
  have hreg := ne_register_of_reserved h
  obtain ⟨hibuf, hobuf⟩ := not_window_of_reserved h
  simp (disch := decide) only [decodeRead, hreg, hibuf, hobuf, if_false]

theorem decodeWrite_of_reserved (h : reservedAddr p a = true) (v : Word) : decodeWrite p a v = .wrRsvd a v := by
  have hreg := ne_register_of_reserved h
  obtain ⟨hibuf, hobuf⟩ := not_window_of_reserved h
  simp (disch := decide) only [decodeWrite, hreg, hibuf, hobuf, if_false]

theorem decode_read_of_reserved (h : reservedAddr p a = true) : decode p (.read 32 a) = .ok (.rdRsvd a) := by
  rw [decode, decodeRead_of_reserved h, admitWord_of_aligned (Laws.EncodeAdmitted.aligned_of_reserved h)]

theorem decode_write_of_reserved (h : reservedAddr p a = true) (v : Word) :
    decode p (.write 32 a v) = .ok (.wrRsvd a v) := by
  rw [decode, decodeWrite_of_reserved h, admitWord_of_aligned (Laws.EncodeAdmitted.aligned_of_reserved h)]

end

namespace Machine

/-! ## The step at a host access -/

section
variable {s : State} {op : HostOp} {rest : List Event}

theorem State.nextTurn_of_host (h : s.events = .host op :: rest) :
    s.nextTurn = .host op { s with events := rest } := by
  rw [State.nextTurn, h]

/-- A host access that decodes to an instruction is that instruction executed (R75). -/
theorem step_of_decode_ok {i : Instr} (hr : s.rst = false) (he : s.events = .host op :: rest)
    (hd : decode s.par op = .ok i) : step s = exec i { s with events := rest } := by
  have hf : State.fetch { s with events := rest } op = .ok i := by simp [State.fetch, hr, hd]
  rw [step, State.nextTurn_of_host he]
  simp only [hf]

/-- A host access that the decoder rejects is refused by the same name (R213). -/
theorem step_of_decode_error {e : DecodeError} (hr : s.rst = false) (he : s.events = .host op :: rest)
    (hd : decode s.par op = .error e) : step s = .refused (.ofDecode e) := by
  have hf : State.fetch { s with events := rest } op = .error (.ofDecode e) := by simp [State.fetch, hr, hd]
  rw [step, State.nextTurn_of_host he]
  simp only [hf]

end

end Machine
end Sys2Proof
end

section
/-! SUPPORT. Reads: which of them R77 leaves open while BUSY, and that every other read returns a word which does not depend on
what was read before (R71). -/

namespace Sys2Proof.Machine

/-- `s` with another observation: other words read and another count of free values drawn. -/
def State.observe (s : State) (words : List Word) (drawn : Nat) : State := { s with reads := words, draws := drawn }

/-- The reads that R77 leaves open while BUSY: those of engine state and of the OBUF words. -/
def LeftOpen (s : State) (i : Instr) : Prop :=
  i ∈ [.rdPitch, .rdWcur, .rdActive, .rdRoffLo, .rdRoffHi]
    ∨ ∃ c j, i = .rdObuf c j ∧ c.toNat < s.par.nch ∧ j.toNat < s.par.blk

/-- `i` returns one word of `s`, whatever the host has read before, and changes nothing but the observation. -/
def ReadsExactly (s : State) (i : Instr) : Prop :=
  ∃ w, ∀ words drawn, exec i (s.observe words drawn) = .next (s.observe (w :: words) drawn)

variable {s : State} {i : Instr}

theorem not_leftOpen_iff : ¬ LeftOpen s i ↔ i ∉ [.rdPitch, .rdWcur, .rdActive, .rdRoffLo, .rdRoffHi]
    ∧ ∀ c j, i = .rdObuf c j → ¬ (c.toNat < s.par.nch ∧ j.toNat < s.par.blk) := by
  simp only [LeftOpen, not_or, not_exists, not_and]

/-- A read that R77 leaves open is gated by BUSY (R203, R211). -/
theorem exec_of_leftOpen (h : LeftOpen s i) :
    ∃ w, ∀ words drawn, exec i (s.observe words drawn) = .next ((s.observe words drawn).returnIfIdle w) := by
  obtain h | ⟨c, j, rfl, hw⟩ := h
  · simp only [List.mem_cons, List.not_mem_nil, or_false] at h
    obtain rfl | rfl | rfl | rfl | rfl := h
    · exact ⟨s.pitch, fun _ _ => rfl⟩
    · exact ⟨BitVec.ofNat 32 s.wcur, fun _ _ => rfl⟩
    · exact ⟨BitVec.ofNat 32 s.active, fun _ _ => rfl⟩
    · exact ⟨s.roff.extractLsb' 0 32, fun _ _ => rfl⟩
    · exact ⟨s.roff.extractLsb' 32 32, fun _ _ => rfl⟩
  · exact ⟨s.obuf c.toNat j.toNat, fun _ _ => congrArg _ (if_pos (inWindow_iff.2 hw))⟩

theorem exec_of_leftOpen_of_busy (h : LeftOpen s i) (hb : s.inflight ≠ .none) : exec i s = .next s.returnAny := by
  obtain ⟨w, hw⟩ := exec_of_leftOpen h
  rw [← State.returnIfIdle_of_busy hb w]
  exact hw s.reads s.draws

theorem readsExactly_of_leftOpen_of_idle (h : LeftOpen s i) (hi : s.inflight = .none) : ReadsExactly s i := by
  obtain ⟨w, hw⟩ := exec_of_leftOpen h
  refine ⟨w, fun words drawn => ?_⟩
  rw [hw, State.returnIfIdle_of_idle (s := s.observe words drawn) hi]
  rfl

/-- A read that R77 does not leave open is exact, also while BUSY (R200 to R202, R207, R209). -/
theorem readsExactly_of_not_leftOpen
    (hread : i ∈ [.rdCfgCap, .rdCfgBlk, .rdCmd, .rdStatus, .rdPitchIn,
        .rdPitch, .rdWcur, .rdActive, .rdRoffLo, .rdRoffHi]
      ∨ (∃ c j, i = .rdIbuf c j) ∨ (∃ c j, i = .rdObuf c j) ∨ ∃ a, i = .rdRsvd a)
    (h : ¬ LeftOpen s i) : ReadsExactly s i := by
  obtain ⟨hengine, hobuf⟩ := not_leftOpen_iff.1 h
  obtain hreg | ⟨c, j, rfl⟩ | ⟨c, j, rfl⟩ | ⟨a, rfl⟩ := hread
  · replace hreg : i ∈ [.rdCfgCap, .rdCfgBlk, .rdCmd, .rdStatus, .rdPitchIn] :=
      (List.mem_append (s := [.rdCfgCap, .rdCfgBlk, .rdCmd, .rdStatus, .rdPitchIn]).1 hreg).resolve_right hengine
    simp only [List.mem_cons, List.not_mem_nil, or_false] at hreg
    obtain rfl | rfl | rfl | rfl | rfl := hreg
    · exact ⟨cfgCapWord s.par, fun _ _ => rfl⟩
    · exact ⟨cfgBlkWord s.par, fun _ _ => rfl⟩
    · exact ⟨0x00000000#32, fun _ _ => rfl⟩
    · exact ⟨s.statusWord, fun _ _ => rfl⟩
    · exact ⟨0x00000000#32, fun _ _ => rfl⟩
  · exact ⟨if inWindow s.par c j then s.ibuf c.toNat j.toNat else 0x00000000#32, fun _ _ => rfl⟩
  · exact ⟨0x00000000#32, fun _ _ => congrArg _ (if_neg (mt inWindow_iff.1 (hobuf c j rfl)))⟩
  · exact ⟨0x00000000#32, fun _ _ => rfl⟩

end Sys2Proof.Machine
end

section
/-! ## The statements -/

open Sys2Proof Sys2Proof.Machine

/-- Settles O5: the decoder admits an access by its width, then by its alignment, and every instruction completes. -/
theorem onlyAlignedWordAccessesAreAdmitted : Obligations.OnlyAlignedWordAccessesAreAdmitted := by
  intro s rest width a v op hr he hop
  obtain ⟨i, hi⟩ := decode_eq_admitWord hop s.par
  refine ⟨fun hw => ?_, fun hw ha => ?_, fun hw ha => ?_⟩
  · exact step_of_decode_error hr he (hi.trans (admitWord_of_width hw a i))
  · subst hw
    exact step_of_decode_error hr he (hi.trans (admitWord_of_misaligned ha i))
  · subst hw
    obtain ⟨t, ht, -⟩ := exec_effect i { s with events := rest }
    exact ⟨t, (step_of_decode_ok hr he (hi.trans (admitWord_of_aligned (aligned_iff.2 ha) i))).trans ht⟩

/-- Settles O22: a read that is exact ignores the observation, so it repeats its word; the others are those that R77
leaves open. -/
theorem readsHaveNoSideEffects : Obligations.ReadsHaveNoSideEffects := by
  intro i s hread
  have hcases : ReadsExactly s i ∨ LeftOpen s i ∧ s.inflight ≠ .none := by
    by_cases hopen : LeftOpen s i
    · by_cases hi : s.inflight = .none
      · exact .inl (readsExactly_of_leftOpen_of_idle hopen hi)
      · exact .inr ⟨hopen, hi⟩
    · exact .inl (readsExactly_of_not_leftOpen hread hopen)
  obtain ⟨w, hw⟩ | ⟨hopen, hb⟩ := hcases
  · exact ⟨w, _, hw s.reads s.draws, rfl, fun _ => hw (w :: s.reads) s.draws⟩
  · refine ⟨_, _, exec_of_leftOpen_of_busy hopen hb, rfl, fun hexact => ?_⟩
    exact absurd hopen (not_leftOpen_iff.2 (hexact.resolve_left hb))

/-- Settles O23: the decoder sends a reserved address to the instruction that reads 0 or ignores the write. -/
theorem reservedAddressesReadZeroAndIgnoreWrites : Obligations.ReservedAddressesReadZeroAndIgnoreWrites := by
  intro s a v rest hr ha
  refine ⟨?_, ?_, rfl, rfl⟩
  · exact step_of_decode_ok (s := { s with events := .host (.read 32 a) :: rest }) hr rfl (decode_read_of_reserved ha)
  · exact step_of_decode_ok (s := { s with events := .host (.write 32 a v) :: rest }) hr rfl
      (decode_write_of_reserved ha v)

/-- Settles O6. -/
theorem stepRunsDecodedInstruction : Obligations.StepRunsDecodedInstruction := fun _ _ _ _ => step_of_decode_ok

/-- Settles O19: such a read is one that R77 leaves open. -/
theorem busyReadsReturnFreeValue : Obligations.BusyReadsReturnFreeValue := by
  intro s i hb h
  have hopen : LeftOpen s i := by simpa [LeftOpen, or_assoc] using h
  exact exec_of_leftOpen_of_busy hopen hb

end

section
/-! SUPPORT. Command words: a word is its fields (R92), and the match and mask of R96 picks the words that R95
calls legal. -/

namespace Sys2Proof

/-! ## The fields of a command word -/

section
variable {v w : Word}

theorem getLsbD_eq_of_field_eq {start len i : Nat} (h : v.extractLsb' start len = w.extractLsb' start len)
    (hlo : start ≤ i) (hhi : i < start + len) : v.getLsbD i = w.getLsbD i := by
  have hbit := congrArg (BitVec.getLsbD · (i - start)) h
  simpa [BitVec.getLsbD_extractLsb', Nat.sub_lt_left_of_lt_add hlo hhi, Nat.add_sub_cancel' hlo] using hbit

/-- A command word is its fields: OP, NIN, NOUT and the three reserved ones (R92). -/
theorem word_eq_iff_fields : v = w ↔ opField v = opField w ∧ ninField v = ninField w ∧ noutField v = noutField w
    ∧ v.extractLsb' 4 4 = w.extractLsb' 4 4 ∧ v.extractLsb' 13 3 = w.extractLsb' 13 3
    ∧ v.extractLsb' 21 11 = w.extractLsb' 21 11 := by
  refine ⟨by rintro rfl; simp, fun ⟨hop, hnin, hnout, hlow, hmid, htop⟩ => BitVec.eq_of_getLsbD_eq fun i hi => ?_⟩
  obtain h | h | h | h | h | h : i < 4 ∨ 4 ≤ i ∧ i < 8 ∨ 8 ≤ i ∧ i < 13 ∨ 13 ≤ i ∧ i < 16 ∨ 16 ≤ i ∧ i < 21
      ∨ 21 ≤ i ∧ i < 32 := by omega
  · exact getLsbD_eq_of_field_eq hop i.zero_le h
  · exact getLsbD_eq_of_field_eq hlow h.1 h.2
  · exact getLsbD_eq_of_field_eq hnin h.1 h.2
  · exact getLsbD_eq_of_field_eq hmid h.1 h.2
  · exact getLsbD_eq_of_field_eq hnout h.1 h.2
  · exact getLsbD_eq_of_field_eq htop h.1 h.2

theorem reservedZero_iff : reservedZero w = true
    ↔ w.extractLsb' 4 4 = 0#4 ∧ w.extractLsb' 13 3 = 0#3 ∧ w.extractLsb' 21 11 = 0#11 := by
  simp [reservedZero, and_assoc]

theorem word_eq_of_reservedZero (hv : reservedZero v = true) (hw : reservedZero w = true) (hop : opField v = opField w)
    (hnin : ninField v = ninField w) (hnout : noutField v = noutField w) : v = w := by
  obtain ⟨hlow, hmid, htop⟩ := reservedZero_iff.1 hv
  obtain ⟨hlow', hmid', htop'⟩ := reservedZero_iff.1 hw
  exact word_eq_iff_fields.2 ⟨hop, hnin, hnout, hlow.trans hlow'.symm, hmid.trans hmid'.symm, htop.trans htop'.symm⟩

/-- The match and mask of PROCESS (R96) asks for OP = 2 and zeros in the reserved fields. -/
theorem match_process_iff : w &&& 0xFFE0E0FF#32 = 0x00000002#32 ↔ opField w = 2#4 ∧ reservedZero w = true := by
  have hmask4 (x : BitVec 4) : x &&& 15#4 = x := BitVec.and_allOnes
  have hmask3 (x : BitVec 3) : x &&& 7#3 = x := BitVec.and_allOnes
  have hmask11 (x : BitVec 11) : x &&& 2047#11 = x := BitVec.and_allOnes
  rw [word_eq_iff_fields, reservedZero_iff]
  simp [opField, ninField, noutField, BitVec.extractLsb'_and, hmask4, hmask3, hmask11]

end

/-! ## The general PROCESS word -/

section
variable (nin nout : BitVec 5)

/-- The bits of the general PROCESS word: OP = 2, NIN from bit 8, NOUT from bit 16 (R96). -/
theorem getLsbD_processWord (i : Nat) : (processWord nin nout).getLsbD i
    = (decide (i = 1) || decide (8 ≤ i) && nin.getLsbD (i - 8) || decide (16 ≤ i) && nout.getLsbD (i - 16)) := by
  have htwo : 0x2#32 = BitVec.twoPow 32 1 := by decide
  simp only [processWord, htwo, BitVec.getLsbD_or, BitVec.getLsbD_shiftLeft,
    BitVec.zeroExtend, BitVec.getLsbD_setWidth, BitVec.getLsbD_twoPow]
  grind

/-- A field of the general PROCESS word is read off its bits. -/
theorem extractLsb'_processWord {start len : Nat} {x : BitVec len}
    (h : ∀ i < len, (decide (start + i = 1) || decide (8 ≤ start + i) && nin.getLsbD (start + i - 8)
      || decide (16 ≤ start + i) && nout.getLsbD (start + i - 16)) = x.getLsbD i) :
    (processWord nin nout).extractLsb' start len = x := by
  refine BitVec.eq_of_getLsbD_eq fun i hi => ?_
  rw [BitVec.getLsbD_extractLsb', getLsbD_processWord, h i hi, decide_eq_true hi, Bool.true_and]

@[simp] theorem opField_processWord : opField (processWord nin nout) = 2#4 := by
  have htwo : 2#4 = BitVec.twoPow 4 1 := by decide
  rw [htwo]
  exact extractLsb'_processWord nin nout (by grind)

@[simp] theorem ninField_processWord : ninField (processWord nin nout) = nin :=
  extractLsb'_processWord nin nout (by grind)

@[simp] theorem noutField_processWord : noutField (processWord nin nout) = nout :=
  extractLsb'_processWord nin nout (by grind)

@[simp] theorem reservedZero_processWord : reservedZero (processWord nin nout) = true :=
  reservedZero_iff.2 ⟨extractLsb'_processWord nin nout (by grind), extractLsb'_processWord nin nout (by grind),
    extractLsb'_processWord nin nout (by grind)⟩

end

/-- Every word with OP = 2 and zeros in the reserved fields is a general PROCESS word (R96). -/
theorem eq_processWord_fields {w : Word} (hop : opField w = 2#4) (hres : reservedZero w = true) :
    w = processWord (ninField w) (noutField w) :=
  word_eq_of_reservedZero hres (reservedZero_processWord _ _) (by rw [hop, opField_processWord])
    (ninField_processWord _ _).symm (noutField_processWord _ _).symm

/-! ## Legal words -/

section
variable {p : Params} {nin nout : BitVec 5} {w : Word}

theorem processOk_iff : processOk p nin nout = true ↔ nin.toNat ≤ p.nch ∧ nout.toNat ≤ p.nch := by
  simp [processOk]

/-- The legal words of R95 are those that R96 writes out. -/
theorem legalCmd_iff : legalCmd p w = true ↔ w = 0x00000000#32 ∨ w = 0x00000001#32
    ∨ ∃ nin nout, processOk p nin nout = true ∧ w = processWord nin nout := by
  constructor
  · intro h
    simp only [legalCmd, Bool.and_eq_true, Bool.or_eq_true, beq_iff_eq, bne_iff_ne, decide_eq_true_eq] at h
    obtain ⟨⟨⟨hop, hres⟩, hargs⟩, hbounds⟩ := h
    obtain (hop | hop) | hop := hop
    · obtain ⟨hnin, hnout⟩ := hargs.resolve_left (by simp [hop])
      exact .inl (word_eq_of_reservedZero hres rfl hop hnin hnout)
    · obtain ⟨hnin, hnout⟩ := hargs.resolve_left (by simp [hop])
      exact .inr (.inl (word_eq_of_reservedZero hres rfl hop hnin hnout))
    · have hok := processOk_iff.2 (hbounds.resolve_left (not_not_intro hop))
      exact .inr (.inr ⟨_, _, hok, eq_processWord_fields hop hres⟩)
  · rintro (rfl | rfl | ⟨nin, nout, h, rfl⟩)
    · rfl
    · rfl
    · simpa [legalCmd, processOk] using h

theorem decodeCmd_eq (p : Params) (w : Word) : decodeCmd p w =
    if w = 0x00000000#32 then .nop else if w = 0x00000001#32 then .init
    else if (opField w = 2#4 ∧ reservedZero w = true) ∧ processOk p (ninField w) (noutField w) = true then
      .process (ninField w) (noutField w)
    else .illegalCmd w := by
  have hones : w &&& 0xFFFFFFFF#32 = w := BitVec.and_allOnes
  simp only [decodeCmd, hones, match_process_iff, processOk_iff]

theorem decodeCmd_processWord (h : processOk p nin nout = true) :
    decodeCmd p (processWord nin nout) = .process nin nout := by
  have hne (k : Word) (hk : opField k ≠ 2#4) : processWord nin nout ≠ k := by
    rintro rfl
    exact hk (opField_processWord nin nout)
  simp (disch := decide) [decodeCmd_eq, hne, h]

theorem decodeCmd_of_illegal (h : legalCmd p w = false) : decodeCmd p w = .illegalCmd w := by
  rw [← Bool.not_eq_true, legalCmd_iff] at h
  push Not at h
  obtain ⟨hnop, hinit, hprocess⟩ := h
  rw [decodeCmd_eq, if_neg hnop, if_neg hinit, if_neg]
  rintro ⟨⟨hop, hres⟩, hok⟩
  exact hprocess _ _ hok (eq_processWord_fields hop hres)

end

end Sys2Proof
end

section
/-! SUPPORT. The address map (R61, R62, R66): every aligned address is a register offset, a window word or reserved; and
what the decoder finds at a window word. -/

namespace Sys2Proof

/-! ## The fields of an address -/

section
variable (a : Addr)

theorem toNat_regionField : (regionField a).toNat = a.toNat / 0x10000 % 4 := by
  rw [regionField, BitVec.extractLsb'_toNat, Nat.shiftRight_eq_div_pow]

theorem toNat_chanField : (chanField a).toNat = a.toNat / 0x1000 % 16 := by
  rw [chanField, BitVec.extractLsb'_toNat, Nat.shiftRight_eq_div_pow]

theorem toNat_sampField : (sampField a).toNat = a.toNat / 4 % 1024 := by
  rw [sampField, BitVec.extractLsb'_toNat, Nat.shiftRight_eq_div_pow]

theorem aligned_iff_toNat {a : Addr} : aligned a = true ↔ a.toNat % 4 = 0 := by
  rw [aligned_iff, ← BitVec.toNat_inj, BitVec.extractLsb'_toNat, Nat.shiftRight_zero]
  rfl

end

/-! ## Window addresses -/

/-- The address of sample `i` of channel `c` in region `r` (R61, R66). -/
def windowAddr (r : BitVec 2) (c : BitVec 4) (i : BitVec 10) : Addr :=
  BitVec.ofNat 18 (0x10000 * r.toNat + 0x1000 * c.toNat + 4 * i.toNat)

section
variable (r : BitVec 2) (c : BitVec 4) (i : BitVec 10)

theorem ofNat_ibufAddr : BitVec.ofNat 18 (ibufAddr c.toNat i.toNat) = windowAddr 1#2 c i := rfl

theorem ofNat_obufAddr : BitVec.ofNat 18 (obufAddr c.toNat i.toNat) = windowAddr 2#2 c i := rfl

theorem toNat_windowAddr : (windowAddr r c i).toNat = 0x10000 * r.toNat + 0x1000 * c.toNat + 4 * i.toNat := by
  rw [windowAddr, BitVec.toNat_ofNat]
  omega

@[simp] theorem regionField_windowAddr : regionField (windowAddr r c i) = r := by
  apply BitVec.eq_of_toNat_eq
  rw [toNat_regionField, toNat_windowAddr]
  omega

@[simp] theorem chanField_windowAddr : chanField (windowAddr r c i) = c := by
  apply BitVec.eq_of_toNat_eq
  rw [toNat_chanField, toNat_windowAddr]
  omega

@[simp] theorem sampField_windowAddr : sampField (windowAddr r c i) = i := by
  apply BitVec.eq_of_toNat_eq
  rw [toNat_sampField, toNat_windowAddr]
  omega

@[simp] theorem aligned_windowAddr : aligned (windowAddr r c i) = true := by
  rw [aligned_iff_toNat, toNat_windowAddr]
  omega

/-- An aligned address is its region, channel and sample fields (R61, R66). -/
theorem windowAddr_fields {a : Addr} (h : aligned a = true) :
    windowAddr (regionField a) (chanField a) (sampField a) = a := by
  rw [aligned_iff_toNat] at h
  apply BitVec.eq_of_toNat_eq
  rw [toNat_windowAddr, toNat_regionField, toNat_chanField, toNat_sampField]
  omega

/-- An address outside region 0 is none of the register offsets (R43, R61). -/
theorem windowAddr_ne_register {r : BitVec 2} (hr : r ≠ 0#2) (k : Addr) (hk : k.toNat < 0x28) :
    windowAddr r c i ≠ k := by
  rintro rfl
  rw [toNat_windowAddr] at hk
  exact hr (BitVec.eq_of_toNat_eq (by rw [BitVec.toNat_ofNat]; omega))

end

/-! ## The address map -/

/-- The offsets of the registers, in the order of R43. -/
def registerAddrs : List Addr :=
  [0x00000#18, 0x00004#18, 0x00008#18, 0x0000C#18, 0x00010#18, 0x00014#18, 0x00018#18, 0x0001C#18, 0x00020#18,
    0x00024#18]

theorem mem_registerAddrs_iff {a : Addr} : a ∈ registerAddrs ↔ aligned a = true ∧ a.toNat < 0x28 := by
  simp only [registerAddrs, List.mem_cons, List.not_mem_nil, or_false, aligned_iff_toNat, ← BitVec.toNat_inj,
    BitVec.toNat_ofNat]
  omega

section
variable {p : Params} {a : Addr}

/-- Every aligned address is a register offset, a word of a window, or reserved (R61, R62). -/
theorem addr_cases (p : Params) (h : aligned a = true) : a ∈ registerAddrs
    ∨ (∃ c i, inWindow p c i = true ∧ (a = windowAddr 1#2 c i ∨ a = windowAddr 2#2 c i)) ∨ reservedAddr p a = true := by
  by_cases hreg : a.toNat < 0x28
  · exact .inl (mem_registerAddrs_iff.2 ⟨h, hreg⟩)
  by_cases hw : (regionField a = 1#2 ∨ regionField a = 2#2) ∧ inWindow p (chanField a) (sampField a) = true
  · obtain ⟨hr, hw⟩ := hw
    refine .inr (.inl ⟨_, _, hw, ?_⟩)
    obtain hr | hr := hr
    · exact .inl (hr ▸ (windowAddr_fields h).symm)
    · exact .inr (hr ▸ (windowAddr_fields h).symm)
  · refine .inr (.inr ?_)
    simpa [reservedAddr, h, not_lt.1 hreg, imp_iff_not_or] using hw

/-! ## Decoding at a window word -/

variable {c : BitVec 4} {i : BitVec 10}

theorem decode_read_ibuf (h : inWindow p c i = true) :
    decode p (.read 32 (BitVec.ofNat 18 (ibufAddr c.toNat i.toNat))) = .ok (.rdIbuf c i) := by
  have hne := windowAddr_ne_register c i (r := 1#2) (by decide)
  rw [ofNat_ibufAddr, decode, admitWord_of_aligned (aligned_windowAddr _ _ _)]
  simp (disch := decide) [decodeRead, hne, h]

theorem decode_read_obuf (h : inWindow p c i = true) :
    decode p (.read 32 (BitVec.ofNat 18 (obufAddr c.toNat i.toNat))) = .ok (.rdObuf c i) := by
  have hne := windowAddr_ne_register c i (r := 2#2) (by decide)
  rw [ofNat_obufAddr, decode, admitWord_of_aligned (aligned_windowAddr _ _ _)]
  simp (disch := decide) [decodeRead, hne, h]

theorem decode_write_ibuf (h : inWindow p c i = true) (v : Word) :
    decode p (.write 32 (BitVec.ofNat 18 (ibufAddr c.toNat i.toNat)) v) = .ok (.wrIbuf c i v) := by
  have hne := windowAddr_ne_register c i (r := 1#2) (by decide)
  rw [ofNat_ibufAddr, decode, admitWord_of_aligned (aligned_windowAddr _ _ _)]
  simp (disch := decide) [decodeWrite, hne, h]

theorem decode_write_obuf (h : inWindow p c i = true) (v : Word) :
    decode p (.write 32 (BitVec.ofNat 18 (obufAddr c.toNat i.toNat)) v) = .ok (.wrObuf c i v) := by
  have hne := windowAddr_ne_register c i (r := 2#2) (by decide)
  rw [ofNat_obufAddr, decode, admitWord_of_aligned (aligned_windowAddr _ _ _)]
  simp (disch := decide) [decodeWrite, hne, h]

end

end Sys2Proof
end

section
/-! SUPPORT. The encoder and the decoder are inverse between the well-formed instructions and the admitted port
operations, and a write to CMD does what the command its word decodes to does. -/

namespace Sys2Proof

/-! ## Instructions and port operations -/

section
variable {p : Params} {i : Instr} {op : HostOp}

/-- Each row of the tables is read back: commands by the legal words, registers by their offsets, windows and reserved
addresses by the address map (R96, R99). -/
theorem decode_encode (h : WellFormed p i = true) : decode p (encode i) = .ok i := by
  cases i with
  | nop | init => rfl
  | process nin nout => exact congrArg Except.ok (decodeCmd_processWord h)
  | illegalCmd w => exact congrArg Except.ok (decodeCmd_of_illegal (Bool.not_eq_true' _ ▸ h))
  | rdCfgCap | rdCfgBlk | rdCmd | rdStatus | rdPitchIn | rdPitch | rdWcur | rdActive | rdRoffLo | rdRoffHi => rfl
  | wrRoCfgCap v | wrRoCfgBlk v | wrRoPitch v | wrRoWcur v | wrRoActive v | wrRoRoffLo v | wrRoRoffHi v => rfl
  | wrCmd w | wrStatus v | wrPitchIn v => rfl
  | rdIbuf c j => exact decode_read_ibuf h
  | wrIbuf c j v => exact decode_write_ibuf h v
  | rdObuf c j => exact decode_read_obuf h
  | wrObuf c j v => exact decode_write_obuf h v
  | rdRsvd a => exact decode_read_of_reserved h
  | wrRsvd a v => exact decode_write_of_reserved h v

theorem exists_encode_eq_cmd (p : Params) (w : Word) : ∃ i, WellFormed p i = true ∧ encode i = .cmd w := by
  cases hw : legalCmd p w with
  | false => exact ⟨.illegalCmd w, congrArg not hw, rfl⟩
  | true =>
    obtain rfl | rfl | ⟨nin, nout, hok, rfl⟩ := legalCmd_iff.1 hw
    · exact ⟨.nop, rfl, rfl⟩
    · exact ⟨.init, rfl, rfl⟩
    · exact ⟨.process nin nout, hok, rfl⟩

theorem exists_encode_eq_read (p : Params) {a : Addr} (h : aligned a = true) :
    ∃ i, WellFormed p i = true ∧ encode i = .read 32 a := by
  obtain hreg | ⟨c, j, hw, rfl | rfl⟩ | hrsvd := addr_cases p h
  · simp only [registerAddrs, List.mem_cons, List.not_mem_nil, or_false] at hreg
    obtain rfl | rfl | rfl | rfl | rfl | rfl | rfl | rfl | rfl | rfl := hreg
    exacts [⟨.rdCfgCap, rfl, rfl⟩, ⟨.rdCfgBlk, rfl, rfl⟩, ⟨.rdCmd, rfl, rfl⟩, ⟨.rdStatus, rfl, rfl⟩,
      ⟨.rdPitchIn, rfl, rfl⟩, ⟨.rdPitch, rfl, rfl⟩, ⟨.rdWcur, rfl, rfl⟩, ⟨.rdActive, rfl, rfl⟩,
      ⟨.rdRoffLo, rfl, rfl⟩, ⟨.rdRoffHi, rfl, rfl⟩]
  · exact ⟨.rdIbuf c j, hw, rfl⟩
  · exact ⟨.rdObuf c j, hw, rfl⟩
  · exact ⟨.rdRsvd a, hrsvd, rfl⟩

theorem exists_encode_eq_write (p : Params) {a : Addr} (h : aligned a = true) (v : Word) :
    ∃ i, WellFormed p i = true ∧ encode i = .write 32 a v := by
  obtain hreg | ⟨c, j, hw, rfl | rfl⟩ | hrsvd := addr_cases p h
  · simp only [registerAddrs, List.mem_cons, List.not_mem_nil, or_false] at hreg
    obtain rfl | rfl | rfl | rfl | rfl | rfl | rfl | rfl | rfl | rfl := hreg
    exacts [⟨.wrRoCfgCap v, rfl, rfl⟩, ⟨.wrRoCfgBlk v, rfl, rfl⟩, ⟨.wrCmd v, rfl, rfl⟩, ⟨.wrStatus v, rfl, rfl⟩,
      ⟨.wrPitchIn v, rfl, rfl⟩, ⟨.wrRoPitch v, rfl, rfl⟩, ⟨.wrRoWcur v, rfl, rfl⟩, ⟨.wrRoActive v, rfl, rfl⟩,
      ⟨.wrRoRoffLo v, rfl, rfl⟩, ⟨.wrRoRoffHi v, rfl, rfl⟩]
  · exact ⟨.wrIbuf c j v, hw, rfl⟩
  · exact ⟨.wrObuf c j v, hw, rfl⟩
  · exact ⟨.wrRsvd a v, hrsvd, rfl⟩

theorem admitted_of_admitWord_ok {width : Nat} {a : Addr} {i j : Instr} (h : admitWord width a i = .ok j) :
    width = 32 ∧ aligned a = true := by
  unfold admitWord at h
  split_ifs at h with hw ha
  exact ⟨not_not.1 hw, ha⟩

/-- The encoder reaches every port operation that the decoder accepts. -/
theorem exists_encode_eq (h : decode p op = .ok i) : ∃ j, WellFormed p j = true ∧ encode j = op := by
  cases op with
  | cmd w => exact exists_encode_eq_cmd p w
  | read width a =>
    obtain ⟨rfl, ha⟩ := admitted_of_admitWord_ok h
    exact exists_encode_eq_read p ha
  | write width a v =>
    obtain ⟨rfl, ha⟩ := admitted_of_admitWord_ok h
    exact exists_encode_eq_write p ha v

end

namespace Machine

/-! ## Submitting a command word -/

theorem State.whenIdle_congr {s : State} {f g : State → State} (h : f s = g s) : s.whenIdle f = s.whenIdle g := by
  simp only [State.whenIdle, h]

theorem State.acceptWord_processWord (s : State) (nin nout : BitVec 5) :
    s.acceptWord (processWord nin nout) = s.accept (.process nin nout) := by
  simp [State.acceptWord]

theorem execWrCmd_eq_of_illegal {s : State} {w : Word} (h : legalCmd s.par w = false) :
    execWrCmd w s = execIllegalCmd w s := by
  refine congrArg _ (State.whenIdle_congr ?_)
  rw [if_neg (Bool.eq_false_iff.1 h)]

theorem execWrCmd_eq_of_legal {s : State} {w : Word} (h : legalCmd s.par w = true) :
    execWrCmd w s = .next (s.whenIdle fun t => t.acceptWord w) := by
  refine congrArg _ (State.whenIdle_congr ?_)
  rw [if_pos h]

theorem execProcess_eq_of_processOk {s : State} {nin nout : BitVec 5} (h : processOk s.par nin nout = true) :
    execProcess nin nout s = .next (s.whenIdle fun t => t.accept (.process nin nout)) := by
  refine congrArg _ (State.whenIdle_congr ?_)
  rw [if_pos (processOk_iff.1 h)]

end Machine
end Sys2Proof
end

section
/-! ## The statements -/

open Sys2Proof Sys2Proof.Machine

/-- Settles O1: the decoder reads each row of the tables back; it takes no bound on the parameters. -/
theorem decodeOfEncode : Obligations.DecodeOfEncode := fun _ _ _ => decode_encode

/-- Settles O2: an accepted operation is the encoding of some well-formed instruction, which is then the one it decodes
to. -/
theorem encodeOfDecode : Obligations.EncodeOfDecode := by
  intro p op i h
  obtain ⟨j, hj, rfl⟩ := exists_encode_eq h
  cases (decode_encode hj).symm.trans h
  exact ⟨rfl, hj⟩

/-- Settles O4: the word is illegal, NOP, INIT or a PROCESS word, and the dispatch of R110 tells them apart as R96
does. -/
theorem cmdWriteRunsDecodedCommand : Obligations.CmdWriteRunsDecodedCommand := by
  intro s w
  cases hw : legalCmd s.par w with
  | false =>
    rw [decodeCmd_of_illegal hw]
    exact execWrCmd_eq_of_illegal hw
  | true =>
    refine (execWrCmd_eq_of_legal hw).trans ?_
    obtain rfl | rfl | ⟨nin, nout, hok, rfl⟩ := legalCmd_iff.1 hw
    · rfl
    · rfl
    · simp only [decodeCmd_processWord hok, State.acceptWord_processWord]
      exact (execProcess_eq_of_processOk hok).symm

/-- Settles O3: each word is the encoding of the operation, which is well formed at the default parameters. -/
theorem writtenOutWordsDecode : Obligations.WrittenOutWordsDecode :=
  ⟨decode_encode (i := .process 1 2) rfl, decode_encode (i := .illegalCmd _) rfl, decode_encode (i := .rdStatus) rfl,
    decode_encode (i := .wrPitchIn _) rfl, decode_encode (i := .wrIbuf 1 3 _) rfl, decode_encode (i := .rdObuf 1 2) rfl,
    decode_encode (i := .rdRsvd _) rfl⟩

end

section
/-! SUPPORT. Submitting a command (R110 to R114, R180), and the two turns that take an accepted command to its completion. -/

namespace Sys2Proof.Machine

/-! ## Submitting a command while idle -/

section
variable {s : State} {w : Word} {nin nout : BitVec 5}

theorem State.acceptWord_of_op_nop (h : opField w = 0x0#4) : s.acceptWord w = s := by
  simp [State.acceptWord, h]

theorem State.acceptWord_of_op_init (h : opField w = 0x1#4) : s.acceptWord w = s.accept .clear := by
  simp [State.acceptWord, h]

theorem State.acceptWord_of_op_process (h : opField w = 0x2#4) :
    s.acceptWord w = s.accept (.process (ninField w) (noutField w)) := by
  simp [State.acceptWord, h]

/-- A legal word written while idle is accepted (R110). -/
theorem execWrCmd_of_legal_of_idle (hi : s.inflight = .none) (hw : legalCmd s.par w = true) :
    execWrCmd w s = .next (s.acceptWord w) := by
  rw [execWrCmd_eq_of_legal hw, State.whenIdle_of_idle hi]

theorem execInit_of_idle (hi : s.inflight = .none) : execInit s = .next (s.accept .clear) := by
  rw [execInit, State.whenIdle_of_idle hi]

theorem execIllegalCmd_of_idle (w : Word) (hi : s.inflight = .none) : execIllegalCmd w s = .next s.setErrCmd := by
  rw [execIllegalCmd, State.whenIdle_of_idle hi]

/-- PROCESS within NCH_MAX is latched with its operands (R180). -/
theorem execProcess_of_idle (hi : s.inflight = .none) (hin : nin.toNat ≤ s.par.nch) (hout : nout.toNat ≤ s.par.nch) :
    execProcess nin nout s = .next (s.accept (.process nin nout)) := by
  rw [execProcess, State.whenIdle_of_idle hi, if_pos ⟨hin, hout⟩]

/-- PROCESS above NCH_MAX is the illegal word it makes (R95, R114; log 14). -/
theorem execProcess_of_idle_of_lt (hi : s.inflight = .none) (h : s.par.nch < nin.toNat ∨ s.par.nch < nout.toNat) :
    execProcess nin nout s = .next s.setErrCmd := by
  rw [execProcess, State.whenIdle_of_idle hi, if_neg (by omega)]

end

/-- While a command is in flight a host access leaves all that the command reads (R112): every effect that would change
some of it needs the block idle. -/
theorem HostEffect.sameCommandInputs {s t : State} (hb : s.inflight ≠ .none) (h : HostEffect s t) :
    SameCommandInputs s t := by
  cases h with
  | ignored | read | errBusy | clearErrors => exact ⟨⟨rfl, rfl, rfl, rfl, rfl⟩, rfl, rfl, rfl, rfl, rfl, rfl⟩
  | errCmd hi | accept _ hi | stagePitch _ hi | writeIbuf _ _ _ hi => exact absurd hi hb

/-! ## From acceptance to completion -/

theorem State.slot_completeClear (s : State) (c j : Nat) : s.completeClear.slot c j = 0x00000000#32 :=
  ringRead_of_not_listed nofun

theorem step_of_engine_event {s : State} {rest : List Event} (hr : s.rst = false) (he : s.events = .engine :: rest) :
    step s = State.engineStep { s with events := rest } :=
  step_of_engine (by rw [State.nextTurn, he]; simp [hr])

/-- A command decoded from its word and accepted is in flight at the Engine's turn that follows, with nothing else
changed (R110, R270). -/
theorem step_accept_step {s : State} {op : HostOp} {rest : List Event} {i : Instr} {f : InFlight} (hr : s.rst = false)
    (he : s.events = .host op :: .engine :: rest) (hd : decode s.par op = .ok i) (hf : f ≠ .none)
    (hx : exec i { s with events := .engine :: rest } = .next (State.accept { s with events := .engine :: rest } f)) :
    ∃ t, step s = .next t ∧ t.busy = true ∧ step t = State.engineStep { s with events := rest, inflight := f } :=
  ⟨_, (step_of_decode_ok hr he hd).trans hx, (State.busy_eq_true_iff _).2 hf, step_of_engine_event hr rfl⟩

end Sys2Proof.Machine
end

section
/-! SUPPORT. A PROCESS completes in every state of the invariant whose block has a finite pitch (R145, R271): R stays
finite, because each advance moves it by less than 2^128 and one block makes at most 2^14 of them. -/

namespace Sys2Proof.Machine

/-! ## Magnitudes under rounding -/

theorem exists_real32_of_isFinite32 {w : Word} (h : isFinite32 w = true) :
    ∃ v, real32 w = some v ∧ |v| < 2 ^ 128 := by
  obtain ⟨m, e, hv⟩ := exists_fin_of_lt_infMag binary32 (w.getLsbD 31) (of_decide_eq_true h)
  obtain ⟨-, hr⟩ := valueOfMag_eq_fin binary32_interchange hv
  refine ⟨dyadic (w.getLsbD 31) m e, by rw [real32, value32, hv, FpValue.real_fin], ?_⟩
  calc |dyadic (w.getLsbD 31) m e|
      _ = m * (2 : Rat) ^ e := abs_dyadic _ _ _
      _ < binary32.overflow := mul_zpow_lt_overflow binary32 hr.lt_two_pow (hr.le_top binary32_interchange)
      _ ≤ 2 ^ 128 := by rw [overflow_binary32]; norm_num

theorem abs_lt_of_real64 {z : Bits64} {u : Rat} (h : real64 z = some u) : |u| < 2 ^ 1024 - 2 ^ 970 := by
  obtain ⟨m, e, -, hr, rfl⟩ := exists_fin_of_real64 h
  rw [abs_dyadic, ← overflow_binary64]
  exact mul_zpow_lt_overflow binary64 hr.lt_two_pow (hr.le_top binary64_interchange)

/-- Rounding carries no value past one that binary64 holds. -/
theorem RoundsTo64.exists_abs_le {y z : Bits64} {x u : Rat} (h : RoundsTo64 y x) (hz : real64 z = some u) (hx : |x| ≤ u) :
    ∃ v, real64 y = some v ∧ |v| ≤ u := by
  obtain ⟨hfin, -, -, -, -, hnear⟩ := h
  obtain ⟨v, hv⟩ := hfin (hx.trans_lt ((le_abs_self u).trans_lt (abs_lt_of_real64 hz)))
  obtain ⟨hlo, hhi⟩ := abs_le.1 hx
  refine ⟨v, hv, abs_le.2 ⟨?_, ?_⟩⟩
  · have hn : |v - x| ≤ |-u - x| := (hnear v hv _ _ (real64_neg64 hz)).1
    rw [abs_of_nonpos (by linarith : -u - x ≤ 0)] at hn
    linarith [neg_le_abs (v - x)]
  · have hn : |v - x| ≤ |u - x| := (hnear v hv _ _ hz).1
    rw [abs_of_nonneg (by linarith : 0 ≤ u - x)] at hn
    linarith [le_abs_self (v - x)]

/-! ## The read offset during a block -/

/-- The read offset is finite and of magnitude at most `n * 2^128`. -/
def OffsetWithin (n : Nat) (r : Bits64) : Prop := ∃ x, real64 r = some x ∧ |x| ≤ n * 2 ^ 128

theorem OffsetWithin.mono {n m : Nat} {r : Bits64} (h : OffsetWithin n r) (hnm : n ≤ m) : OffsetWithin m r := by
  obtain ⟨x, hx, hn⟩ := h
  exact ⟨x, hx, hn.trans (by gcongr)⟩

/-- A result of magnitude at most `n * 2^128` stays so when it is rounded: binary64 holds that bound. -/
theorem RoundsTo64.offsetWithin {n : Nat} (hn : n < 2 ^ 53) {y : Bits64} {x : Rat} (h : RoundsTo64 y x)
    (hx : |x| ≤ n * 2 ^ 128) : OffsetWithin n y := by
  have hheld : real64 (round64 false n 128) = some ((n : Rat) * 2 ^ 128) :=
    (real_round64_of_held false hn (by decide) (by decide)).trans (congrArg some (dyadic_false n 128))
  exact h.exists_abs_le hheld hx

theorem OffsetWithin.isFinite64 {n : Nat} {r : Bits64} (h : OffsetWithin n r) : isFinite64 r = true := by
  obtain ⟨x, hx, -⟩ := h
  obtain ⟨m, e, -, hr, -⟩ := exists_fin_of_real64 hx
  exact decide_eq_true hr.lt_infMag

section
variable {p : Params} {n : Nat} {r : Bits64}

theorem real64_cap (hp : p.Legal) : real64 (f64OfInt p.cap) = some (p.cap : Rat) := by
  obtain ⟨-, hcap, -⟩ := hp
  exact real64_f64OfInt (by rw [Nat.abs_cast]; omega)

theorem cap_le_two_pow (hp : p.Legal) : (p.cap : Rat) ≤ 2 ^ 24 := by
  obtain ⟨-, hcap, -⟩ := hp
  exact_mod_cast hcap

/-- One advance moves R by less than 2^128, and the one normalisation does not take it further from zero (R156,
R157). -/
theorem OffsetWithin.advance (hp : p.Legal) {pitch : Word} (hf : isFinite32 pitch = true) (hn : n + 1 < 2 ^ 53)
    (h : OffsetWithin n r) : OffsetWithin (n + 1) (advance p pitch r) := by
  obtain ⟨x, hx, hxn⟩ := h
  obtain ⟨v, hv, hv128⟩ := exists_real32_of_isFinite32 hf
  have hsum : OffsetWithin (n + 1) (add64 r (f64OfF32 pitch)) := by
    refine (add64_finite hx (real64_f64OfF32 hv).1).1.offsetWithin hn ((abs_add_le x v).trans ?_)
    push_cast
    linarith
  obtain ⟨x₁, hx₁, hbound⟩ := hsum
  unfold Machine.advance
  simp only
  split_ifs with hgt
  · have hcap := hp.2.1
    have hlast : real64 (f64OfInt ((p.cap : Int) - 1)) = some (((p.cap : Int) - 1 : Int) : Rat) :=
      real64_f64OfInt (by rw [abs_lt]; omega)
    have hlt := (gt64_finite hx₁ hlast).1 hgt
    push_cast at hlt
    refine (sub64_finite hx₁ (real64_cap hp)).1.offsetWithin hn (abs_le.2 ⟨?_, ?_⟩)
    · have : (1 : Rat) ≤ (n + 1 : Nat) * 2 ^ 128 := by exact_mod_cast (by omega : 1 ≤ (n + 1) * 2 ^ 128)
      linarith
    · have : (0 : Rat) ≤ p.cap := by positivity
      linarith [(abs_le.1 hbound).2]
  · exact ⟨x₁, hx₁, hbound⟩

/-- A finite read offset gives a read position with a floor (R150, R151). -/
theorem OffsetWithin.exists_floor64_readPos (hp : p.Legal) {w : Nat} (hw : w < p.cap) (hn : n + 1 < 2 ^ 53)
    (h : OffsetWithin n r) : ∃ k0, floor64 (readPos p w r) = some k0 := by
  obtain ⟨x, hx, hxn⟩ := h
  have hcap := hp.2.1
  have hpos : (0 : Rat) < p.cap := by exact_mod_cast (by omega : 0 < p.cap)
  have hW : real64 (f64OfInt w) = some ((w : Int) : Rat) := real64_f64OfInt (by rw [Nat.abs_cast]; omega)
  have hsum : OffsetWithin (n + 1) (add64 (f64OfInt w) r) := by
    refine (add64_finite hW hx).1.offsetWithin hn ((abs_add_le _ x).trans ?_)
    have hw24 : |((w : Int) : Rat)| ≤ 2 ^ 24 := by
      rw [← Int.cast_abs, Nat.abs_cast]
      exact_mod_cast (by omega : w ≤ 2 ^ 24)
    push_cast at hw24 ⊢
    linarith
  obtain ⟨y, hy, -⟩ := hsum
  exact ⟨_, floor64_finite (fmod64_finite hy (real64_cap hp) hpos).1⟩

end

/-! ## The reads of a block -/

theorem State.synthesize_eq_some {s : State} {nout : Nat} {r r' : Bits64} {mem : Memory}
    (ho : s.outputChannels nout (s.roff, s.mem) = some (r, mem)) (hr : finalNormalize s.par r = some r') :
    s.synthesize nout = some { s with roff := r', mem := mem } := by
  rw [State.synthesize, ho]
  simp only [hr]

namespace Inv

variable {s : State} {c i k n N : Nat} {r : Bits64} {x : Bits64 × Memory}

theorem offsetWithin_one (h : Inv s) : OffsetWithin 1 s.roff := by
  obtain ⟨v, hv, hlt⟩ := h.roff_bounded
  have := cap_le_two_pow h.legal
  exact ⟨v, hv, by push_cast; linarith⟩

theorem exists_readSample (h : Inv s) (hn : n + 1 < 2 ^ 53) (hr : OffsetWithin n r) :
    ∃ y, s.readSample c r = some (y, advance s.par s.pitch r) := by
  obtain ⟨k0, hk0⟩ := hr.exists_floor64_readPos h.legal h.wcur_lt hn
  exact ⟨_, by rw [State.readSample, hk0]⟩

theorem exists_outputSample (h : Inv s) (hn : n + 1 < 2 ^ 53) (hx : OffsetWithin n x.1) :
    ∃ z, s.outputSample c i x = some z ∧ OffsetWithin (n + 1) z.1 := by
  unfold State.outputSample
  split_ifs
  · obtain ⟨y, hy⟩ := h.exists_readSample (c := c) hn hx
    rw [hy]
    exact ⟨_, rfl, hx.advance h.legal h.pitch_finite hn⟩
  · exact ⟨_, rfl, hx.mono (by omega)⟩

theorem exists_outputSamples (h : Inv s) (hn : n + N < 2 ^ 53) (hx : OffsetWithin n x.1) :
    ∃ z, s.outputSamples c N x = some z ∧ OffsetWithin (n + N) z.1 := by
  induction N with
  | zero => exact ⟨x, rfl, hx⟩
  | succ i ih =>
    obtain ⟨y, hy, hyn⟩ := ih (by omega)
    obtain ⟨z, hz, hzn⟩ := h.exists_outputSample (c := c) (i := i) (by omega) hyn
    exact ⟨z, by rw [State.outputSamples, hy]; exact hz, hzn⟩

theorem exists_outputChannels (h : Inv s) (hn : n + k * s.par.blk < 2 ^ 53) (hx : OffsetWithin n x.1) :
    ∃ z, s.outputChannels k x = some z ∧ OffsetWithin (n + k * s.par.blk) z.1 := by
  induction k with
  | zero => exact ⟨x, rfl, by simpa using hx⟩
  | succ c ih =>
    rw [Nat.succ_mul, ← Nat.add_assoc] at hn ⊢
    obtain ⟨y, hy, hyn⟩ := ih (by omega)
    obtain ⟨z, hz, hzn⟩ := h.exists_outputSamples (c := c) hn hyn
    exact ⟨z, by rw [State.outputChannels, hy]; exact hz, hzn⟩

/-! ## Completion -/

theorem exists_synthesize (h : Inv s) {nout : Nat} (hout : nout ≤ s.par.nch) : ∃ t, s.synthesize nout = some t := by
  obtain ⟨-, -, -, hblk, -, hnch⟩ := h.legal
  have hreads : nout * s.par.blk ≤ 16 * 1024 := Nat.mul_le_mul (by omega) (by omega)
  obtain ⟨⟨r, mem⟩, ho, hr⟩ :=
    h.exists_outputChannels (k := nout) (x := (s.roff, s.mem)) (by omega) h.offsetWithin_one
  have hnorm : finalNormalize s.par r = some (fmod64 r (f64OfInt s.par.cap)) := if_pos hr.isFinite64
  exact ⟨_, State.synthesize_eq_some ho hnorm⟩

/-- Only a pitch that is not finite keeps a PROCESS of legal operands from completing (R145, R271). -/
theorem exists_completeProcess (h : Inv s) {nin nout : Nat} (hin : nin ≤ s.par.nch) (hout : nout ≤ s.par.nch)
    (hf : nin ≠ 0 → isFinite32 s.blockPitch = true) : ∃ t, s.completeProcess nin nout = .next t := by
  obtain ⟨-, he⟩ | ⟨hnin, hinf, -⟩ | ⟨hnin, hfin, hnone, -⟩ | ⟨-, -, t, -, he⟩ := s.completeProcess_cases nin nout
  · exact ⟨_, he⟩
  · rw [hf hnin] at hinf
    cases hinf
  · obtain ⟨t, ht⟩ := (h.ingest hin hfin).exists_synthesize (nout := nout) (by rwa [State.ingest_par])
    cases hnone.symm.trans ht
  · exact ⟨_, he⟩

end Inv

@[simp] theorem State.ingest_events (s : State) (nin : Nat) : (s.ingest nin).events = s.events := by rw [s.ingest_eq]

/-- Every PROCESS ends with nothing in flight and no pitch pending (R180, R186). -/
theorem State.completeProcess_finished {s t : State} {nin nout : Nat} (h : s.completeProcess nin nout = .next t) :
    t.events = s.events ∧ t.inflight = .none ∧ t.pend = false := by
  obtain ⟨-, he⟩ | ⟨-, -, he⟩ | ⟨-, -, -, he⟩ | ⟨-, -, u, hu, he⟩ := s.completeProcess_cases nin nout <;>
    cases he.symm.trans h
  · exact ⟨rfl, rfl, rfl⟩
  · obtain ⟨r, mem, r', -, -, rfl⟩ := State.synthesize_eq hu
    exact ⟨s.ingest_events nin, rfl, rfl⟩

/-- A block with no input leaves the engine state (R181). -/
theorem State.completeProcess_sameEngineState {s t : State} {nin nout : Nat} (hnin : nin = 0)
    (h : s.completeProcess nin nout = .next t) : SameEngineState s t := by
  subst hnin
  cases h
  exact ⟨rfl, rfl, rfl, rfl, rfl⟩

/-- W, A and P after a block with input (R190). -/
theorem State.completeProcess_endState {s t : State} {nin nout : Nat} (hnin : nin ≠ 0)
    (h : s.completeProcess nin nout = .next t) :
    t.wcur = (s.wcur + s.par.blk) % s.par.cap ∧ t.active = max s.active nin ∧ t.pitch = s.blockPitch := by
  obtain ⟨h0, -⟩ | ⟨-, -, he⟩ | ⟨-, -, -, he⟩ | ⟨-, -, u, hu, he⟩ := s.completeProcess_cases nin nout
  · exact absurd h0 hnin
  · cases he.symm.trans h
  · cases he.symm.trans h
  · cases he.symm.trans h
    obtain ⟨r, mem, r', -, -, rfl⟩ := State.synthesize_eq hu
    exact ⟨s.ingest_wcur nin, s.ingest_active nin, s.ingest_pitch nin⟩

end Sys2Proof.Machine
end

section
/-! ## The statements -/

open Sys2Proof Sys2Proof.Machine

/-- Settles O33: a host access while BUSY has only effects that spare the command's inputs. -/
theorem commandInputsFrozenWhileBusy : Obligations.CommandInputsFrozenWhileBusy :=
  fun _ _ _ hb h => (HostEffect.of_exec h).sameCommandInputs hb

/-- Settles O46: the word decodes to the PROCESS it encodes, whose operands are legal, and its completion is refused
for neither reason, the pitch being finite and R staying so. -/
theorem processRunsToCompletion : Obligations.ProcessRunsToCompletion := by
  intro s rest nin nout hinv hi hr hin hout hf he
  have hd : decode s.par (.cmd (processWord nin nout)) = .ok (.process nin nout) :=
    decode_encode (i := .process nin nout) (processOk_iff.2 ⟨hin, hout⟩)
  obtain ⟨t, hs, hb, ht⟩ := step_accept_step (f := .process nin nout) hr he hd nofun (execProcess_of_idle hi hin hout)
  rw [State.engineStep_of_process rfl] at ht
  have hinv' : Inv { s with events := rest, inflight := .process nin nout } :=
    { hinv with operands := fun _ _ h => by cases h; exact ⟨hin, hout⟩ }
  obtain ⟨u, hu⟩ := hinv'.exists_completeProcess hin hout hf
  obtain ⟨hev, hidle, hpend⟩ := State.completeProcess_finished hu
  refine ⟨t, hs, hb, u, ht.trans hu, hev, hidle, hpend, fun h0 => ?_, fun hnin => ?_⟩
  · exact (State.completeProcess_sameEngineState h0 hu :)
  · exact (State.completeProcess_endState hnin hu :)

/-- Settles O29: BUSY, legality and each value of OP are told apart by the gate, by R95 and by the case on OP. -/
theorem cmdWriteDispatch : Obligations.CmdWriteDispatch := by
  refine fun s w => ⟨fun hb => ?_, fun hi hw => ?_, fun hi hw hop => ?_, fun hi hw hop => ?_, fun hi hw hop => ?_⟩
  · exact congrArg _ (State.whenIdle_of_busy hb _)
  · exact (execWrCmd_eq_of_illegal hw).trans (execIllegalCmd_of_idle w hi)
  · exact (execWrCmd_of_legal_of_idle hi hw).trans (congrArg _ (State.acceptWord_of_op_nop hop))
  · exact (execWrCmd_of_legal_of_idle hi hw).trans (congrArg _ (State.acceptWord_of_op_init hop))
  · exact (execWrCmd_of_legal_of_idle hi hw).trans (congrArg _ (State.acceptWord_of_op_process hop))

/-- Settles O30: while idle the gate of BUSY lets each command have its own effect. -/
theorem commandsSubmittedWhileIdle : Obligations.CommandsSubmittedWhileIdle := fun _ _ _ w hi =>
  ⟨congrArg _ (State.whenIdle_of_idle hi _), execInit_of_idle hi, execProcess_of_idle hi, execProcess_of_idle_of_lt hi,
    execIllegalCmd_of_idle w hi⟩

/-- Settles O36: the clear lists no byte of RING, so every slot reads +0.0. -/
theorem clearRecreatesEngineState : Obligations.ClearRecreatesEngineState :=
  fun s h => ⟨s.completeClear, State.engineStep_of_clear h, rfl, s.slot_completeClear⟩

/-- Settles O37: the word decodes to INIT, and the Engine's turn completes the clear it left in flight. -/
theorem initRunsToCompletion : Obligations.InitRunsToCompletion := by
  intro s rest hi hr he
  have hd : decode s.par (.cmd 0x00000001#32) = .ok .init := decode_encode (i := .init) rfl
  obtain ⟨t, hs, hb, ht⟩ := step_accept_step (f := .clear) hr he hd nofun (execInit_of_idle hi)
  refine ⟨t, hs, hb, ht.trans ?_⟩
  rw [State.engineStep_of_clear rfl, State.completeClear, ← hi]

end

section
/-! SUPPORT. RING after a block with input: the write path alone stores to it (R130, R159). -/

namespace Sys2Proof.Machine

/-- RING after the first three steps of INPUT_BLOCK: the blocks of the populated channels, nin counted among them
(R120, R130). -/
theorem State.ingest_ring (s : State) (nin : Nat) : (s.ingest nin).ring
    = { s with active := max s.active nin }.writeChannels nin (max s.active nin) s.ring := by rw [s.ingest_eq]

/-- A block with input leaves RING as its first three steps do (R159, R182). -/
theorem State.completeProcess_ring {s t : State} {nin nout : Nat} (hnin : nin ≠ 0)
    (h : s.completeProcess nin nout = .next t) : t.par = s.par ∧ t.ring = (s.ingest nin).ring := by
  obtain ⟨h0, -⟩ | ⟨-, -, he⟩ | ⟨-, -, -, he⟩ | ⟨-, -, u, hu, he⟩ := s.completeProcess_cases nin nout
  · exact absurd h0 hnin
  · cases he.symm.trans h
  · cases he.symm.trans h
  · cases he.symm.trans h
    obtain ⟨r, mem, r', -, -, rfl⟩ := State.synthesize_eq hu
    exact ⟨s.ingest_par nin, rfl⟩

/-- The slots after a block with input are those of the written channels (R130). -/
theorem State.slot_completeProcess {s t : State} {nin nout : Nat} (hnin : nin ≠ 0)
    (h : s.completeProcess nin nout = .next t) (c j : Nat) :
    t.slot c j = ringRead s.par
      ({ s with active := max s.active nin }.writeChannels nin (max s.active nin) s.ring) c j := by
  obtain ⟨hpar, hring⟩ := State.completeProcess_ring hnin h
  rw [State.slot, hpar, hring, State.ingest_ring]

end Sys2Proof.Machine
end

section
/-! ## The statements -/

open Sys2Proof Sys2Proof.Machine

/-- Settles O40: RING is what the write path leaves of it, and the write path stores the N slots from W of each
populated channel and no other slot. -/
theorem inputBlockLeavesOtherSlots : Obligations.InputBlockLeavesOtherSlots := by
  intro s t nin nout hp hi hnin ht c j hj hout
  rw [State.engineStep_of_process hi] at ht
  obtain ⟨hcap, hblk⟩ : 0 < s.par.cap ∧ s.par.blk ≤ s.par.cap := by
    unfold Params.Legal at hp
    omega
  obtain ⟨-, hframe⟩ := State.ringRead_writeChannels { s with active := max s.active nin.toNat } nin.toNat s.ring
    hcap hblk c j hj (max s.active nin.toNat)
  exact (State.slot_completeProcess hnin ht c j).trans (hframe hout)

end

section
/-! SUPPORT. The pitch: staging it (R140, R142), and what a block does when it is not finite (R145, R146). -/

namespace Sys2Proof.Machine

/-! ## Staging the pitch -/

/-- A run goes on from the state its first instruction answers. -/
theorem runInstrs_cons_of_next {i : Instr} {s t : State} (h : exec i s = .next t) (is : List Instr) :
    runInstrs (i :: is) s = runInstrs is t := by
  rw [runInstrs, h]

theorem exec_wrPitchIn_of_idle {s : State} (v : Word) (hi : s.inflight = .none) :
    exec (.wrPitchIn v) s = .next (s.stagePitch v) :=
  congrArg _ (State.whenIdle_of_idle hi _)

theorem exec_wrPitchIn_of_busy {s : State} (v : Word) (hb : s.inflight ≠ .none) :
    exec (.wrPitchIn v) s = .next s.setErrBusy :=
  congrArg _ (State.whenIdle_of_busy hb _)

/-- A second write before the next PROCESS replaces the first (R140). -/
@[simp] theorem State.stagePitch_stagePitch (s : State) (v w : Word) :
    (s.stagePitch v).stagePitch w = s.stagePitch w := rfl

@[simp] theorem State.stagePitch_blockPitch (s : State) (v : Word) : (s.stagePitch v).blockPitch = v := rfl

/-- The last of the writes made while idle is the one staged (R142): each leaves the block idle, and the next one
replaces it. -/
theorem runInstrs_wrPitchIn (vs : List Word) (v : Word) {s : State} (hi : s.inflight = .none) :
    runInstrs ((vs ++ [v]).map Instr.wrPitchIn) s = .next (s.stagePitch v) := by
  induction vs generalizing s with
  | nil => exact runInstrs_cons_of_next (exec_wrPitchIn_of_idle v hi) []
  | cons w ws ih =>
    calc runInstrs ((w :: ws ++ [v]).map Instr.wrPitchIn) s
        = runInstrs ((ws ++ [v]).map Instr.wrPitchIn) (s.stagePitch w) :=
          runInstrs_cons_of_next (exec_wrPitchIn_of_idle w hi) _
      _ = .next ((s.stagePitch w).stagePitch v) := ih hi
      _ = .next (s.stagePitch v) := by rw [State.stagePitch_stagePitch]

/-! ## A pitch that is not finite -/

/-- A block with no input always completes (R146, R181). -/
theorem State.completeProcess_of_no_input (s : State) (nout : Nat) :
    s.completeProcess 0 nout = .next (s.noInput nout).finish := if_pos rfl

/-- A block with input is refused when its pitch is not finite, whatever NOUT (R145; log 8). -/
theorem State.completeProcess_of_nonFinite {s : State} {nin : Nat} (hnin : nin ≠ 0) (nout : Nat)
    (hf : isFinite32 s.blockPitch = false) : s.completeProcess nin nout = .refused .nonFinitePitch := by
  obtain ⟨h0, -⟩ | ⟨-, -, he⟩ | ⟨-, hfin, -⟩ | ⟨-, hfin, -⟩ := s.completeProcess_cases nin nout
  · exact absurd h0 hnin
  · exact he
  · cases hf.symm.trans hfin
  · cases hf.symm.trans hfin

end Sys2Proof.Machine
end

section
/-! ## The statements -/

open Sys2Proof Sys2Proof.Machine

/-- Settles O27, by induction on the writes; the block adopts what is staged while a pitch is pending. -/
theorem lastPitchWriteWins : Obligations.LastPitchWriteWins := by
  refine fun s vs v hi => ⟨runInstrs_wrPitchIn vs v hi, fun nin nout t hnin ht => ?_⟩
  obtain ⟨-, -, hpitch⟩ := State.completeProcess_endState hnin ht
  exact hpitch.trans (s.stagePitch_blockPitch v)

/-- Settles O26: the gate of BUSY tells the two cases apart. -/
theorem pitchWriteStagesTheWord : Obligations.PitchWriteStagesTheWord :=
  fun _ v => ⟨exec_wrPitchIn_of_idle v, exec_wrPitchIn_of_busy v⟩

/-- Settles O44: the completion tests the pitch only on the path with input; the other path keeps P. -/
theorem nonFinitePitchIsRefused : Obligations.NonFinitePitchIsRefused := by
  intro s nin nout hi hf
  rw [State.engineStep_of_process hi]
  refine ⟨fun hnin => State.completeProcess_of_nonFinite hnin _ hf, fun h0 => ?_⟩
  rw [h0]
  refine ⟨_, s.completeProcess_of_no_input _, ?_⟩
  rw [State.finish_pitch, State.noInput_pitch]

end

section
/-! SUPPORT. Exactness for in-range pitch (R171): the read offset, the pitch, the cursor and C are multiples of 2^-24 of at
most 53 significant bits, on which the sum, the difference, the comparison, the floor and the remainder act as on the
integers that count the units. -/

namespace Sys2Proof.Machine

/-! ## Multiples of 2^-24 -/

/-- The pattern holds `k` units of 2^-24 (R171). -/
def OnGrid (a : Bits64) (k : Int) : Prop := real64 a = some ((k : Rat) / 2 ^ 24)

theorem RoundsTo64.eq_of_held {y z : Bits64} {x : Rat} (h : RoundsTo64 y x) (hz : real64 z = some x) :
    real64 y = some x :=
  ((roundsTo64_iff y x).1 h).eq_of_held (overflow_binary64 ▸ abs_lt_of_real64 hz) hz

/-- Fewer than 2^53 units are held by binary64. -/
theorem exists_onGrid {k : Int} (hk : |k| < 2 ^ 53) : ∃ z, OnGrid z k := by
  refine ⟨round64 (decide (k < 0)) k.natAbs (-24), ?_⟩
  unfold OnGrid
  rw [real_round64_of_held _ (by rw [Int.abs_eq_natAbs] at hk; exact_mod_cast hk) (by norm_num) (by norm_num),
    dyadic_natAbs (-24) (by simp) (by simp; omega), zpow_neg, div_eq_mul_inv]
  norm_cast

theorem RoundsTo64.onGrid {y : Bits64} {k : Int} (h : RoundsTo64 y ((k : Rat) / 2 ^ 24)) (hk : |k| < 2 ^ 53) :
    OnGrid y k := by
  obtain ⟨z, hz⟩ := exists_onGrid hk
  exact RoundsTo64.eq_of_held h hz

theorem onGrid_f64OfInt {n : Int} (h : |n| < 2 ^ 53) : OnGrid (f64OfInt n) (n * 2 ^ 24) := by
  rw [OnGrid, real64_f64OfInt h, Int.cast_mul, Int.cast_pow, Int.cast_ofNat, mul_div_cancel_right₀ _ (by norm_num)]

section
variable {a b : Bits64} {j k : Int}

theorem OnGrid.add64 (ha : OnGrid a j) (hb : OnGrid b k) (h : |j + k| < 2 ^ 53) : OnGrid (add64 a b) (j + k) := by
  have hround := (add64_finite ha hb).1
  rw [← add_div, ← Int.cast_add] at hround
  exact RoundsTo64.onGrid hround h

theorem OnGrid.sub64 (ha : OnGrid a j) (hb : OnGrid b k) (h : |j - k| < 2 ^ 53) : OnGrid (sub64 a b) (j - k) := by
  have hround := (sub64_finite ha hb).1
  rw [← sub_div, ← Int.cast_sub] at hround
  exact RoundsTo64.onGrid hround h

theorem OnGrid.gt64_iff (ha : OnGrid a j) (hb : OnGrid b k) : gt64 a b = true ↔ k < j := by
  rw [gt64_finite ha hb, div_lt_div_iff_of_pos_right (by norm_num), Int.cast_lt]

theorem OnGrid.floor64 (ha : OnGrid a j) : floor64 a = some (j / 2 ^ 24) := by
  rw [floor64_finite ha]
  exact congrArg some (Rat.floor_intCast_div_natCast j (2 ^ 24))

end

/-- A number of units is its whole part and its fraction (R152). -/
theorem units_eq_floor_add_fraction (j : Int) :
    (j : Rat) / 2 ^ 24 = (j / 2 ^ 24 : Int) + (j % 2 ^ 24 : Int) / 2 ^ 24 := by
  have hdiv (d : Int) : (j : Rat) = (j / d : Int) * d + (j % d : Int) := by
    exact_mod_cast (Int.ediv_mul_add_emod j d).symm
  have h24 := hdiv (2 ^ 24)
  rw [Int.cast_pow, Int.cast_ofNat] at h24
  linear_combination h24 / 2 ^ 24

/-! ## The truncated remainder -/

theorem truncRat_of_abs_lt_one {q : Rat} (h : |q| < 1) : truncRat q = 0 := by
  obtain ⟨hlo, hhi⟩ := abs_lt.1 h
  unfold truncRat
  split_ifs with h0
  · exact Int.floor_eq_zero_iff.2 ⟨h0, hhi⟩
  · exact Int.ceil_eq_zero_iff.2 ⟨hlo, by linarith⟩

theorem truncRat_of_one_le_of_lt_two {q : Rat} (h1 : 1 ≤ q) (h2 : q < 2) : truncRat q = 1 := by
  rw [truncRat, if_pos (by linarith), Int.floor_eq_iff]
  norm_num
  exact ⟨h1, h2⟩

/-- The remainder by `k` units of fewer than `2 * k` units takes `k` off once, or not at all (R151). -/
theorem OnGrid.fmod64 {a b : Bits64} {j k : Int} (ha : OnGrid a j) (hb : OnGrid b k) (hlo : -k < j) (hhi : j < 2 * k) :
    OnGrid (fmod64 a b) (if k ≤ j then j - k else j) := by
  have hk : (0 : Rat) < k := by exact_mod_cast (by omega : 0 < k)
  have hmod := (fmod64_finite ha hb (by positivity)).1
  rw [div_div_div_cancel_right₀ (by norm_num)] at hmod
  rw [OnGrid, hmod]
  split_ifs with h
  · have h1 : (k : Rat) ≤ j := by exact_mod_cast h
    have h2 : (j : Rat) < 2 * k := by exact_mod_cast hhi
    rw [truncRat_of_one_le_of_lt_two ((one_le_div hk).2 h1) ((div_lt_iff₀ hk).2 h2), Int.cast_one, mul_one, ← sub_div,
      Int.cast_sub]
  · have h1 : |(j : Rat)| < k := by exact_mod_cast abs_lt.2 ⟨hlo, by omega⟩
    rw [truncRat_of_abs_lt_one (by rwa [abs_div, abs_of_pos hk, div_lt_one hk]), Int.cast_zero, mul_zero, sub_zero]

/-! ## The operands of the read path -/

/-- Every in-range pitch is a whole number of units (R171). -/
theorem PitchInRange.exists_onGrid {w : Word} (h : PitchInRange w) :
    ∃ u : Int, real32 w = some ((u : Rat) / 2 ^ 24) ∧ 2 ^ 23 ≤ u ∧ u ≤ 2 ^ 25 := by
  obtain ⟨v, hv, hlo, hhi⟩ := h
  obtain ⟨m, e, -, hr, hx⟩ := exists_fin_of_real32 hv
  have hm : (m : Rat) < 2 ^ 24 := by exact_mod_cast hr.lt_two_pow
  obtain ⟨hsign, -⟩ := dyadic_pos_iff.1 (hx ▸ (by linarith : 0 < v))
  rw [hsign, dyadic_false] at hx
  have he : -24 ≤ e := by
    by_contra hlt
    have hpow : (2 : Rat) ^ e ≤ 2 ^ (-25 : Int) := zpow_le_zpow_right₀ (by norm_num) (by omega)
    have : v < 1 / 2 := by
      calc v = m * (2 : Rat) ^ e := hx
        _ ≤ m * 2 ^ (-25 : Int) := by gcongr
        _ < 2 ^ 24 * 2 ^ (-25 : Int) := by gcongr
        _ = 1 / 2 := by norm_num
    linarith
  obtain ⟨i, hi⟩ := Int.eq_ofNat_of_zero_le (show 0 ≤ e + 24 by omega)
  have hunits : v = ((m * 2 ^ i : Int) : Rat) / 2 ^ 24 := by
    rw [hx, eq_sub_of_add_eq hi, zpow_sub₀ two_ne_zero, zpow_natCast, ← mul_div_assoc]
    push_cast
    norm_num
  refine ⟨m * 2 ^ i, hv.trans (congrArg some hunits), ?_, ?_⟩
  · rw [hunits, le_div_iff₀ (by norm_num)] at hlo
    exact_mod_cast (by linarith : (2 : Rat) ^ 23 ≤ (m * 2 ^ i : Int))
  · rw [hunits, div_le_iff₀ (by norm_num)] at hhi
    exact_mod_cast (by linarith : ((m * 2 ^ i : Int) : Rat) ≤ (2 : Rat) ^ 25)

section
variable {p : Params} {r : Bits64} {k : Int}

theorem onGrid_cap (hp : p.Legal) : OnGrid (f64OfInt p.cap) (p.cap * 2 ^ 24) :=
  onGrid_f64OfInt (by rw [abs_lt]; have := hp.2.1; omega)

theorem onGrid_cap_sub_one (hp : p.Legal) : OnGrid (f64OfInt ((p.cap : Int) - 1)) (((p.cap : Int) - 1) * 2 ^ 24) :=
  onGrid_f64OfInt (by rw [abs_lt]; have := hp.2.1; omega)

/-- Steps 5 and 6 of READ_SAMPLE in units (R156, R157, R171). -/
theorem OnGrid.advance (hp : p.Legal) (hr : OnGrid r k) (hlo : -2 ^ 24 < k) (hhi : k ≤ ((p.cap : Int) - 1) * 2 ^ 24)
    {pitch : Word} {u : Int} (hpitch : real32 pitch = some ((u : Rat) / 2 ^ 24)) (hu : 2 ^ 23 ≤ u) (hu' : u ≤ 2 ^ 25) :
    OnGrid (advance p pitch r)
      (if ((p.cap : Int) - 1) * 2 ^ 24 < k + u then k + u - p.cap * 2 ^ 24 else k + u) := by
  have hcap := hp.2.1
  have hsum : OnGrid (Machine.add64 r (f64OfF32 pitch)) (k + u) :=
    hr.add64 (real64_f64OfF32 hpitch).1 (by rw [abs_lt]; omega)
  unfold Machine.advance
  simp only [hsum.gt64_iff (onGrid_cap_sub_one hp)]
  split_ifs with h
  · exact hsum.sub64 (onGrid_cap hp) (by rw [abs_lt]; omega)
  · exact hsum

/-- The bounds of R170 after one advance. -/
theorem offsetInRange_advance (hp : p.Legal) {pitch : Word} (hr : OffsetInRange p r) (hpitch : PitchInRange pitch) :
    OffsetInRange p (advance p pitch r) := by
  have hcap := hp.1
  obtain ⟨k, hk, hlo, hhi⟩ := hr
  obtain ⟨u, hu, hulo, huhi⟩ := hpitch.exists_onGrid
  refine ⟨_, OnGrid.advance hp hk hlo hhi hu hulo huhi, ?_, ?_⟩ <;> split_ifs <;> omega

/-- Step 1 of READ_SAMPLE in units: `q` is 1 when W + R is C or more, and the read position is W + R less `q` times C,
in (-1, C) (R151, R171). -/
theorem OnGrid.exists_readPos (hp : p.Legal) {w : Nat} (hw : w < p.cap) (hr : OnGrid r k) (hlo : -2 ^ 24 < k)
    (hhi : k ≤ ((p.cap : Int) - 1) * 2 ^ 24) :
    ∃ q j : Int, (q = 0 ∨ q = 1) ∧ (q = 1 ↔ (p.cap : Int) * 2 ^ 24 ≤ w * 2 ^ 24 + k)
      ∧ j = w * 2 ^ 24 + k - q * (p.cap * 2 ^ 24) ∧ -2 ^ 24 < j ∧ j < p.cap * 2 ^ 24 ∧ OnGrid (readPos p w r) j := by
  have ⟨hcap, hcap', _⟩ := hp
  have hW : OnGrid (f64OfInt w) (w * 2 ^ 24) := onGrid_f64OfInt (by rw [abs_lt]; omega)
  have hrp : OnGrid (readPos p w r) _ :=
    (hW.add64 hr (by rw [abs_lt]; omega)).fmod64 (onGrid_cap hp) (by omega) (by omega)
  split_ifs at hrp with h
  · exact ⟨1, _, .inr rfl, by omega, by omega, by omega, by omega, hrp⟩
  · exact ⟨0, _, .inl rfl, by omega, by omega, by omega, by omega, hrp⟩

/-- Step 2 of READ_SAMPLE in units: the fraction is the remainder of the whole units (R152, R171). -/
theorem OnGrid.readFrac {rp : Bits64} {j : Int} (h : OnGrid rp j) (hj : |j| < 2 ^ 53) :
    OnGrid (readFrac rp (j / 2 ^ 24)) (j % 2 ^ 24) := by
  rw [abs_lt] at hj
  have hk0 : OnGrid (f64OfInt (j / 2 ^ 24)) (j / 2 ^ 24 * 2 ^ 24) := onGrid_f64OfInt (by rw [abs_lt]; omega)
  have hsub := h.sub64 hk0 (by rw [abs_lt]; omega)
  rwa [show j - j / 2 ^ 24 * 2 ^ 24 = j % 2 ^ 24 by omega] at hsub

end

end Sys2Proof.Machine
end

section
/-! SUPPORT. FINAL_NORMALIZE (R158), and a block with input under in-range pitch (R170): an induction over its reads. -/

namespace Sys2Proof.Machine

/-! ## FINAL_NORMALIZE -/

theorem isFinite64_of_real64 {a : Bits64} {x : Rat} (h : real64 a = some x) : isFinite64 a = true := by
  obtain ⟨m, e, -, hr, -⟩ := exists_fin_of_real64 h
  exact decide_eq_true hr.lt_infMag

theorem isFinite32_of_real32 {w : Word} {x : Rat} (h : real32 w = some x) : isFinite32 w = true := by
  obtain ⟨m, e, -, hr, -⟩ := exists_fin_of_real32 h
  exact decide_eq_true hr.lt_infMag

/-- A value and a sign have one pattern: only the two zeros share a value. -/
theorem eq_of_real64_eq_of_sign_eq {y z : Bits64} {x : Rat} (hy : real64 y = some x) (hz : real64 z = some x)
    (hsign : y.getLsbD 63 = z.getLsbD 63) : y = z := by
  by_cases hx : x = 0
  · subst hx
    rw [eq_zero_of_real_eq_zero binary64_interchange hy, hsign]
    exact (eq_zero_of_real_eq_zero binary64_interchange hz).symm
  · exact eq_of_real_eq binary64_interchange hx hy hz

theorem finalNormalize_of_real64 {p : Params} {r : Bits64} {x : Rat} (hr : real64 r = some x) :
    finalNormalize p r = some (fmod64 r (f64OfInt p.cap)) :=
  if_pos (isFinite64_of_real64 hr)

/-- A remainder by more than the magnitude changes nothing (R158). -/
theorem fmod64_of_abs_lt {a b : Bits64} {x y : Rat} (hx : real64 a = some x) (hy : real64 b = some y) (h : |x| < y) :
    fmod64 a b = a := by
  have hpos : 0 < y := (abs_nonneg x).trans_lt h
  obtain ⟨hmod, -, hsign⟩ := fmod64_finite hx hy hpos
  rw [truncRat_of_abs_lt_one (by rwa [abs_div, abs_of_pos hpos, div_lt_one hpos]), Int.cast_zero, mul_zero,
    sub_zero] at hmod
  exact eq_of_real64_eq_of_sign_eq hmod hx hsign

/-- FINAL_NORMALIZE returns an offset in (-1, C-1] unchanged (R158, R170). -/
theorem finalNormalize_of_offsetInRange {p : Params} {r : Bits64} (hp : p.Legal) (hr : OffsetInRange p r) :
    finalNormalize p r = some r := by
  obtain ⟨k, hk, hlo, hhi⟩ := hr
  have hcap := hp.1
  have habs : |(k : Rat)| < p.cap * 2 ^ 24 := by
    exact_mod_cast (abs_lt.2 ⟨by omega, by omega⟩ : |k| < p.cap * 2 ^ 24)
  rw [finalNormalize_of_real64 hk, fmod64_of_abs_lt hk (real64_cap hp)]
  rwa [abs_div, abs_of_pos (by norm_num : (0 : Rat) < 2 ^ 24), div_lt_iff₀ (by norm_num)]

/-! ## What every read keeps, a block keeps -/

section
variable {s : State} {P : Bits64 → Prop} {x : Bits64 × Memory}

/-- Each READ_SAMPLE from an offset with the property `P` has a result and leaves an offset with `P`. -/
def State.ReadsKeep (s : State) (P : Bits64 → Prop) : Prop :=
  ∀ c r, P r → ∃ y r', s.readSample c r = some (y, r') ∧ P r'

theorem State.ReadsKeep.exists_outputSample (h : s.ReadsKeep P) (c i : Nat) (hx : P x.1) :
    ∃ z, s.outputSample c i x = some z ∧ P z.1 := by
  unfold State.outputSample
  split_ifs
  · obtain ⟨y, r', hread, hr'⟩ := h c x.1 hx
    rw [hread]
    exact ⟨_, rfl, hr'⟩
  · exact ⟨_, rfl, hx⟩

theorem State.ReadsKeep.exists_outputSamples (h : s.ReadsKeep P) (c n : Nat) (hx : P x.1) :
    ∃ z, s.outputSamples c n x = some z ∧ P z.1 := by
  induction n with
  | zero => exact ⟨x, rfl, hx⟩
  | succ i ih =>
    obtain ⟨y, hy, hPy⟩ := ih
    rw [State.outputSamples, hy]
    exact h.exists_outputSample c i hPy

theorem State.ReadsKeep.exists_outputChannels (h : s.ReadsKeep P) (k : Nat) (hx : P x.1) :
    ∃ z, s.outputChannels k x = some z ∧ P z.1 := by
  induction k with
  | zero => exact ⟨x, rfl, hx⟩
  | succ c ih =>
    obtain ⟨y, hy, hPy⟩ := ih
    rw [State.outputChannels, hy]
    exact h.exists_outputSamples c s.par.blk hPy

end

/-! ## A block under in-range pitch -/

theorem PitchInRange.isFinite32 {w : Word} (h : PitchInRange w) : isFinite32 w = true := by
  obtain ⟨v, hv, -⟩ := h
  exact isFinite32_of_real32 hv

section
variable {s : State}

theorem readsKeep_offsetInRange (hp : s.par.Legal) (hw : s.wcur < s.par.cap) (hpitch : PitchInRange s.pitch) :
    s.ReadsKeep (OffsetInRange s.par) := by
  intro c r hr
  have ⟨k, hk, hlo, hhi⟩ := hr
  obtain ⟨-, j, -, -, -, -, -, hrp⟩ := OnGrid.exists_readPos hp hw hk hlo hhi
  exact ⟨_, _, by rw [State.readSample, hrp.floor64], offsetInRange_advance hp hr hpitch⟩

/-- The reads of the block and FINAL_NORMALIZE have a result, in range (R170, R182). -/
theorem exists_synthesize_of_inRange (hp : s.par.Legal) (hw : s.wcur < s.par.cap) (hr : OffsetInRange s.par s.roff)
    (hpitch : PitchInRange s.pitch) (nout : Nat) : ∃ t, s.synthesize nout = some t ∧ OffsetInRange s.par t.roff := by
  obtain ⟨⟨r, mem⟩, ho, hr'⟩ :=
    (readsKeep_offsetInRange hp hw hpitch).exists_outputChannels nout (x := (s.roff, s.mem)) hr
  exact ⟨_, State.synthesize_eq_some ho (finalNormalize_of_offsetInRange hp hr'), hr'⟩

/-- The completion of a block with input under in-range pitch (R145, R150, R170): neither refusal occurs. -/
theorem exists_completeProcess_of_inRange (hp : s.par.Legal) (hr : OffsetInRange s.par s.roff)
    (hpitch : PitchInRange s.blockPitch) {nin : Nat} (hnin : nin ≠ 0) (nout : Nat) :
    ∃ t, s.completeProcess nin nout = .next t ∧ OffsetInRange s.par t.roff := by
  have hw : (s.ingest nin).wcur < (s.ingest nin).par.cap := by
    rw [State.ingest_wcur, State.ingest_par]
    exact writeSlot_lt (by have := hp.1; omega) _ _
  obtain ⟨t, ht, hroff⟩ := exists_synthesize_of_inRange (s := s.ingest nin) (by rwa [State.ingest_par]) hw
    (by rwa [State.ingest_par, State.ingest_roff]) (by rwa [State.ingest_pitch]) nout
  rw [State.ingest_par] at hroff
  refine ⟨t.finish, ?_, hroff⟩
  rw [State.completeProcess, if_neg hnin, State.ingest_pitch, if_pos hpitch.isFinite32, ht]

end

end Sys2Proof.Machine
end

section
/-! ## The statements -/

open Sys2Proof Sys2Proof.Machine

/-- Settles O60: the bounds of one advance make them an invariant of the reads, and FINAL_NORMALIZE leaves an offset
within them. -/
theorem inRangePitchKeepsOffsetBounded : Obligations.InRangePitchKeepsOffsetBounded := by
  intro s nin nout hp _ hi hnin hr hpitch
  obtain ⟨t, ht, hroff⟩ := exists_completeProcess_of_inRange hp hr hpitch hnin nout.toNat
  obtain ⟨-, -, hP⟩ := State.completeProcess_endState hnin ht
  exact ⟨t, (State.engineStep_of_process hi).trans ht, hroff, hP ▸ hpitch⟩

/-- Settles O57: in units of 2^-24 the sum and the difference are those of integers below 2^53. -/
theorem inRangeAdvanceIsExactAndBounded : Obligations.InRangeAdvanceIsExactAndBounded := by
  intro p pitch r x v hp hr hpitch hx hv
  refine ⟨offsetInRange_advance hp hr hpitch, ?_⟩
  obtain ⟨k, hk, hlo, hhi⟩ := hr
  obtain ⟨u, hu, hulo, huhi⟩ := hpitch.exists_onGrid
  obtain rfl : x = k / 2 ^ 24 := Option.some.inj (hx.symm.trans hk)
  obtain rfl : v = u / 2 ^ 24 := Option.some.inj (hv.symm.trans hu)
  have hover : (p.cap : Rat) - 1 < k / 2 ^ 24 + u / 2 ^ 24 ↔ ((p.cap : Int) - 1) * 2 ^ 24 < k + u := by
    rw [← add_div, lt_div_iff₀ (by norm_num)]
    exact_mod_cast Iff.rfl
  rw [OnGrid.advance hp hk hlo hhi hu hulo huhi]
  simp only [hover]
  split_ifs <;> push_cast <;> ring_nf

/-- Settles O58: W + R lies in (-1, 2C - 1), so the remainder takes C off at most once; floor and fraction are the
quotient and the remainder of the units by 2^24. -/
theorem inRangeReadPositionIsExact : Obligations.InRangeReadPositionIsExact := by
  intro p w r x hp hw hr hx
  obtain ⟨k, hk, hlo, hhi⟩ := hr
  obtain rfl : x = k / 2 ^ 24 := Option.some.inj (hx.symm.trans hk)
  have hcap := hp.2.1
  obtain ⟨q, j, hq, hqC, hj, hjlo, hjhi, hrp⟩ := OnGrid.exists_readPos hp hw hk hlo hhi
  have hover : (p.cap : Rat) ≤ w + k / 2 ^ 24 ↔ (p.cap : Int) * 2 ^ 24 ≤ w * 2 ^ 24 + k := by
    rw [add_div' _ _ _ (by norm_num), le_div_iff₀ (by norm_num)]
    exact_mod_cast Iff.rfl
  have hpos : (w : Rat) + k / 2 ^ 24 - q * p.cap = j / 2 ^ 24 := by
    rw [hj]
    push_cast
    ring
  exact ⟨_, _, q, hrp.floor64, by omega, by omega, hrp.readFrac (abs_lt.2 (by omega)), by omega, by omega, hq,
    hqC.trans hover.symm, hpos ▸ hrp, hpos.trans (units_eq_floor_add_fraction j)⟩

/-- Settles O59: the remainder is exact, and below C nothing is taken off. -/
theorem finalNormalizeBoundsTheOffset : Obligations.FinalNormalizeBoundsTheOffset := by
  intro p r x hp hx
  have hpos : (0 : Rat) < p.cap := by exact_mod_cast (by have := hp.1; omega : 0 < p.cap)
  obtain ⟨hval, hlt, hsign⟩ := fmod64_finite hx (real64_cap hp) hpos
  exact ⟨_, finalNormalize_of_real64 hx, hval, hlt, hsign, fmod64_of_abs_lt hx (real64_cap hp)⟩

end

section
/-! SUPPORT. The interpolator on NaNs and infinities (R163, R164): each operation of step 4 gives a NaN in the cases of IEEE
754 and no other, and the conversions carry NaNs and infinities over. -/

namespace Sys2Proof.Machine

/-! ## Patterns that are a NaN or an infinity -/

theorem value64_eq_inf_iff {a : Bits64} {n : Bool} : value64 a = .inf n ↔ a = inf64 n := by
  refine ⟨fun h => ?_, fun h => h ▸ value64_inf64 n⟩
  obtain ⟨hsign, hmag⟩ := (valueOfMag_eq_inf_iff binary64 _ _ _).1 h
  rw [← pack64_inf, pack64_eq, ← hsign, ← hmag]
  exact (packBits_self (w := 63) a).symm

theorem value32_eq_inf_iff {w : Word} {n : Bool} : value32 w = .inf n ↔ w = inf32 n := by
  refine ⟨fun h => ?_, fun h => h ▸ value32_inf32 n⟩
  obtain ⟨hsign, hmag⟩ := (valueOfMag_eq_inf_iff binary32 _ _ _).1 h
  rw [← pack32_inf, pack32_eq, ← hsign, ← hmag]
  exact (packBits_self (w := 31) w).symm

theorem isNan32_pack32_iff (n : Bool) {mag : Nat} (h : mag < 2 ^ 31) :
    isNan32 (pack32 n mag) = true ↔ 0x7F800000 < mag := by
  rw [isNan32, decide_eq_true_iff, pack32_eq, mag_packBits n h]

/-- No rounding gives a NaN. -/
@[simp] theorem isNan64_round64 (n : Bool) (m : Nat) (e : Int) : isNan64 (round64 n m e) = false := by
  have hle := roundMag_le binary64 m e
  rw [isNan64, round64, pack64_eq, mag_packBits n (hle.trans_lt binary64_interchange.infMag_lt)]
  exact decide_eq_false (not_lt.2 hle)

/-! ## The operations of step 4 -/

theorem isNan64_add64_iff (a b : Bits64) : isNan64 (add64 a b) = true ↔
    isNan64 a = true ∨ isNan64 b = true ∨ ∃ n, value64 a = .inf n ∧ value64 b = .inf (!n) := by
  rw [← value64_eq_nan_iff a, ← value64_eq_nan_iff b]
  unfold add64
  cases value64 a with
  | nan => simp
  | fin n m e => cases value64 b <;> simp
  | inf n =>
    cases value64 b with
    | nan => simp
    | fin n' m' e' => simp
    | inf n' => cases n <;> cases n' <;> simp

theorem isNan64_sub64_iff (a b : Bits64) : isNan64 (sub64 a b) = true ↔
    isNan64 a = true ∨ isNan64 b = true ∨ ∃ n, value64 a = .inf n ∧ value64 b = .inf n := by
  have hneg (n : Bool) : value64 (neg64 b) = .inf (!n) ↔ value64 b = .inf n := by
    rw [value64_eq_inf_iff, value64_eq_inf_iff, ← neg64_inf64]
    exact BitVec.xor_left_inj _
  simp only [sub64, isNan64_add64_iff, isNan64_neg64, hneg]

/-- With a finite first factor a product is a NaN only for a NaN, or for zero times an infinity. -/
theorem isNan64_mul64_iff {a : Bits64} {x : Rat} (hx : real64 a = some x) (b : Bits64) :
    isNan64 (mul64 a b) = true ↔ isNan64 b = true ∨ (x = 0 ∧ ∃ n, value64 b = .inf n) := by
  obtain ⟨m, e, hv, -, rfl⟩ := exists_fin_of_real64 hx
  rw [dyadic_eq_zero_iff, ← value64_eq_nan_iff b]
  unfold mul64
  rw [hv]
  cases value64 b with
  | nan => simp
  | fin n' m' e' => simp
  | inf n' => by_cases hm : m = 0 <;> simp [hm]

/-! ## The conversions -/

theorem isNan64_f64OfF32_iff (w : Word) : isNan64 (f64OfF32 w) = true ↔ isNan32 w = true := by
  rw [← value32_eq_nan_iff]
  unfold f64OfF32
  cases value32 w <;> simp

theorem value64_f64OfF32_eq_inf_iff (w : Word) (n : Bool) : value64 (f64OfF32 w) = .inf n ↔ value32 w = .inf n := by
  cases hw : value32 w with
  | nan => simp [(value64_eq_nan_iff _).2 (isNan64_f64OfF32 ((value32_eq_nan_iff w).1 hw))]
  | inf n' => simp [f64OfF32, hw]
  | fin n' m e =>
    obtain ⟨hval, -⟩ := real64_f64OfF32 (w := w) (by rw [real32, hw, FpValue.real_fin])
    obtain ⟨m', e', hv, -⟩ := exists_fin_of_real64 hval
    simp [hv]

/-- The word of R163 is a NaN pattern, whatever its sign and payload. -/
theorem isNan32_nanResult (s0 s1 : Word) (frac : Bits64) : isNan32 (nanResult s0 s1 frac) = true := by
  have hlt := (Config.nanPayload s0 s1 frac).isLt
  exact (isNan32_pack32_iff _ (by omega)).2 (by omega)

theorem isNan32_inf32 (n : Bool) : isNan32 (inf32 n) = false := by cases n <;> decide

/-- Rounding to binary32 gives a NaN pattern for a NaN and for nothing else. -/
theorem isNan32_cvt32_iff {nan : Word} (hnan : isNan32 nan = true) (a : Bits64) :
    isNan32 (cvt32 nan a) = true ↔ isNan64 a = true := by
  rw [← value64_eq_nan_iff]
  unfold cvt32
  cases value64 a with
  | nan => simp [hnan]
  | inf n => simp [isNan32_inf32]
  | fin n m e =>
    have hle := roundMag_le binary32 m e
    simp only [isNan32_pack32_iff n (hle.trans_lt binary32_interchange.infMag_lt), reduceCtorEq, iff_false, not_lt]
    exact hle

theorem isNan32_interpolate_iff {s0 s1 : Word} {frac : Bits64} :
    isNan32 (interpolate s0 s1 frac) = true ↔ isNan64 (interpolate64 s0 s1 frac) = true :=
  isNan32_cvt32_iff (isNan32_nanResult s0 s1 frac) _

theorem interpolate_of_isNan32 {s0 s1 : Word} {frac : Bits64} (h : isNan32 (interpolate s0 s1 frac) = true) :
    interpolate s0 s1 frac = nanResult s0 s1 frac :=
  cvt32_nan _ (isNan32_interpolate_iff.1 h)

end Sys2Proof.Machine
end

section
/-! SUPPORT. The interpolator at an integer read position (R165), where the product with +0.0 is a zero and only the sign of
a zero can be lost in the sum, and at a tap of +infinity (R164). -/

namespace Sys2Proof.Machine

/-! ## An integer read position -/

/-- Binary32 magnitudes are at most 2^128, and binary64 holds 2^129 (R164). -/
theorem exists_real64_sub64_f64OfF32 {s0 s1 : Word} (h0 : isFinite32 s0 = true) (h1 : isFinite32 s1 = true) :
    ∃ d, real64 (sub64 (f64OfF32 s1) (f64OfF32 s0)) = some d := by
  obtain ⟨x, hx, hx128⟩ := exists_real32_of_isFinite32 h0
  obtain ⟨y, hy, hy128⟩ := exists_real32_of_isFinite32 h1
  have hround := (sub64_finite (real64_f64OfF32 hy).1 (real64_f64OfF32 hx).1).1
  have hle : |y - x| ≤ (2 : Nat) * 2 ^ 128 := by
    push_cast
    linarith [abs_sub y x]
  obtain ⟨d, hd, -⟩ := hround.offsetWithin (by norm_num) hle
  exact ⟨d, hd⟩

theorem real64_zero64 (n : Bool) : real64 (zero64 n) = some 0 := by
  rw [real64, value64_zero64, FpValue.real_fin, dyadic_zero]

theorem sign_zero64 (n : Bool) : (zero64 n).getLsbD 63 = n := by cases n <;> decide

/-- Adding a zero changes nothing but the sign of a zero. -/
theorem add64_zero64 {a : Bits64} {x : Rat} (ha : real64 a = some x) (n : Bool) :
    add64 a (zero64 n) = if x = 0 then zero64 (a.getLsbD 63 && n) else a := by
  obtain ⟨hround, hzero⟩ := add64_finite ha (real64_zero64 n)
  rw [add_zero] at hround hzero
  split_ifs with hx
  · rw [hzero hx, sign_zero64]
  · exact eq_of_real_eq binary64_interchange hx (RoundsTo64.eq_of_held hround ha) ha

/-- Step 4 at frac = +0.0 adds the zero whose sign is that of the tap difference (R154, R165). -/
theorem interpolate64_zero {s0 s1 : Word} (h0 : isFinite32 s0 = true) (h1 : isFinite32 s1 = true) :
    interpolate64 s0 s1 0x0000000000000000#64
      = add64 (f64OfF32 s0) (zero64 ((sub64 (f64OfF32 s1) (f64OfF32 s0)).getLsbD 63)) := by
  obtain ⟨d, hd⟩ := exists_real64_sub64_f64OfF32 h0 h1
  obtain ⟨-, hmul⟩ := mul64_finite (real64_zero64 false) hd
  rw [sign_zero64, Bool.false_bne] at hmul
  have hzero : 0x0000000000000000#64 = zero64 false := rfl
  rw [interpolate64, hzero, hmul (zero_mul d)]

/-- Where s0 is no zero the output is its word (R165). -/
theorem interpolate_zero_of_ne_zero {s0 s1 : Word} {x : Rat} (h0 : real32 s0 = some x) (hx : x ≠ 0)
    (h1 : isFinite32 s1 = true) : interpolate s0 s1 0x0000000000000000#64 = s0 := by
  rw [interpolate, interpolate64_zero (isFinite32_of_real32 h0) h1, add64_zero64 (real64_f64OfF32 h0).1, if_neg hx]
  exact cvt32_f64OfF32_of_real32 _ h0

/-- Where s0 is a zero the output is a zero, negative when s0 and the tap difference both are (R165). -/
theorem interpolate_zero_of_zero (n : Bool) {s1 : Word} (h1 : isFinite32 s1 = true) :
    interpolate (zero32 n) s1 0x0000000000000000#64
      = zero32 (n && (sub64 (f64OfF32 s1) (zero64 n)).getLsbD 63) := by
  have hconv : f64OfF32 (zero32 n) = zero64 n := by rw [f64OfF32, value32_zero32]; exact round64_zero n _
  have h0 : isFinite32 (zero32 n) = true := by cases n <;> decide
  rw [interpolate, interpolate64_zero h0 h1, hconv, add64_zero64 (real64_zero64 n), if_pos rfl,
    (cvt32_finite _ (real64_zero64 _)).2 rfl, sign_zero64, sign_zero64]

theorem exists_eq_zero32_of_real32_eq_zero {w : Word} (h : real32 w = some 0) : ∃ n, w = zero32 n := by
  refine ⟨w.getLsbD 31, ?_⟩
  rw [← pack32_zero, pack32_eq]
  exact eq_zero_of_real_eq_zero binary32_interchange h

/-- The tap difference from s0 = -0.0 is negative when s1 is strictly so (R165). -/
theorem sign_sub64_zero64_true {w : Word} {x : Rat} (h : real32 w = some x) :
    (sub64 (f64OfF32 w) (zero64 true)).getLsbD 63 = decide (x < 0) := by
  obtain ⟨⟨-, -, -, hneg, hpos, -⟩, hzero⟩ := sub64_finite (real64_f64OfF32 h).1 (real64_zero64 true)
  rw [sub_zero] at hneg hpos hzero
  rcases lt_trichotomy x 0 with hx | hx | hx
  · rw [hneg hx, decide_eq_true hx]
  · rw [hzero hx, sign_zero64, sign_zero64, hx]
    simp
  · rw [hpos hx, decide_eq_false hx.not_gt]

/-! ## A tap of +infinity -/

theorem sub64_inf32_f64OfF32 {w : Word} {x : Rat} (h : real32 w = some x) :
    sub64 (f64OfF32 (inf32 false)) (f64OfF32 w) = inf64 false := by
  rw [f64OfF32_inf32]
  exact (add64_inf_finite false (real64_neg64 (real64_f64OfF32 h).1)).1

/-- A positive fraction keeps the infinity of the tap difference (R164). -/
theorem interpolate_inf_of_pos {s0 : Word} (h0 : isFinite32 s0 = true) {frac : Bits64} {f : Rat}
    (hf : real64 frac = some f) (hpos : 0 < f) : interpolate s0 (inf32 false) frac = inf32 false := by
  obtain ⟨x, hx, -⟩ := exists_real32_of_isFinite32 h0
  obtain ⟨m, e, -, -, hfrac⟩ := exists_fin_of_real64 hf
  obtain ⟨hsign, -⟩ := dyadic_pos_iff.1 (hfrac ▸ hpos)
  obtain ⟨-, hmul⟩ := (mul64_inf_finite false hf).1 hpos.ne'
  rw [hsign, bne_self_eq_false] at hmul
  rw [interpolate, interpolate64, sub64_inf32_f64OfF32 hx, hmul,
    (add64_inf_finite false (real64_f64OfF32 hx).1).2, cvt32_inf64]

/-- A zero fraction makes a NaN of the infinite tap difference (R163, R164). -/
theorem isNan32_interpolate_inf_of_zero {s0 : Word} (h0 : isFinite32 s0 = true) {frac : Bits64}
    (hf : real64 frac = some 0) : isNan32 (interpolate s0 (inf32 false) frac) = true := by
  obtain ⟨x, hx, -⟩ := exists_real32_of_isFinite32 h0
  rw [isNan32_interpolate_iff, interpolate64, sub64_inf32_f64OfF32 hx, isNan64_add64_iff, isNan64_mul64_iff hf]
  exact .inr (.inl (.inr ⟨rfl, false, value64_inf64 false⟩))

end Sys2Proof.Machine
end

section
/-! ## The statements -/

open Sys2Proof Sys2Proof.Machine

/-- Settles O54: a nonzero value is its own sum with a zero, and of two zeros the sum is negative when both are. -/
theorem integerPositionCopiesTheSlot : Obligations.IntegerPositionCopiesTheSlot := by
  intro s0 s1 x hf0 hx
  have hf1 := isFinite32_of_real32 hx
  have hnegative (h : s0 = 0x80000000#32) : interpolate s0 s1 0x0000000000000000#64
      = zero32 ((sub64 (f64OfF32 s1) (zero64 true)).getLsbD 63) := by
    rw [h]
    exact interpolate_zero_of_zero true hf1
  refine ⟨fun hne => ?_, fun h hlt => ?_, fun h hle => ?_⟩
  · obtain ⟨x0, hx0, -⟩ := exists_real32_of_isFinite32 hf0
    by_cases h0 : x0 = 0
    · obtain ⟨n, rfl⟩ := exists_eq_zero32_of_real32_eq_zero (h0 ▸ hx0)
      cases n with
      | false => exact interpolate_zero_of_zero false hf1
      | true => exact absurd rfl hne
    · exact interpolate_zero_of_ne_zero hx0 h0 hf1
  · rw [hnegative h, sign_sub64_zero64_true hx, decide_eq_true hlt]
    rfl
  · rw [hnegative h, sign_sub64_zero64_true hx, decide_eq_false (not_lt.2 hle)]
    rfl

/-- Settles O55: the listed cases are those in which the sum, the product or the difference of step 4 is a NaN. -/
theorem nanOutputs : Obligations.NanOutputs := by
  intro s0 s1 frac f hf
  refine ⟨?_, interpolate_of_isNan32⟩
  have hcomm : (∃ n, value32 s1 = .inf n ∧ value32 s0 = .inf n) ↔ ∃ n, value32 s0 = .inf n ∧ value32 s1 = .inf n := by
    simp only [and_comm]
  rw [isNan32_interpolate_iff, interpolate64, isNan64_add64_iff, isNan64_mul64_iff hf, isNan64_sub64_iff]
  simp only [isNan64_f64OfF32_iff, value64_f64OfF32_eq_inf_iff, hcomm, or_assoc]
  -- the sum and the difference both have s0 as an operand
  constructor
  · rintro (h | h)
    · exact .inl h
    · exact .inr (h.imp_right .inr)
  · rintro (h | h | h | h)
    · exact .inl h
    · exact .inr (.inl h)
    · exact .inl h
    · exact .inr (.inr h)

/-- Settles O56: the difference of the taps is finite, or +infinity, of which frac keeps the sign or makes a NaN. -/
theorem tapDifferenceNeverOverflows : Obligations.TapDifferenceNeverOverflows := by
  intro s0 s1 hf0
  refine ⟨fun hf1 => ?_, fun frac f hf => ⟨fun hpos => ?_, fun h0 => ?_⟩⟩
  · obtain ⟨d, hd⟩ := exists_real64_sub64_f64OfF32 hf0 hf1
    exact isFinite64_of_real64 hd
  · exact interpolate_inf_of_pos hf0 hf hpos
  · exact isNan32_interpolate_inf_of_zero hf0 (h0 ▸ hf)

end

section
/-! SUPPORT. The words the reads of a block leave in OBUF (R150, R160, R183): each is the READ_SAMPLE at its place in the read
order, and no later store of the block falls on it. -/

namespace Sys2Proof.Machine

section
variable {s : State} {c i k n : Nat} {x z : Bits64 × Memory}

/-- The word READ_SAMPLE(c) returns at the read offset `r` (R150). -/
def State.sampleWord (s : State) (c : Nat) (r : Bits64) : Option Word := (s.readSample c r).map Prod.fst

theorem State.sampleWord_eq_some {r : Bits64} {w : Word} (h : s.sampleWord c r = some w) :
    ∃ k0, floor64 (readPos s.par s.wcur r) = some k0
      ∧ w = interpolate (s.slot c (wrap s.par k0)) (s.slot c (wrap s.par (k0 + 1)))
          (readFrac (readPos s.par s.wcur r) k0) := by
  obtain ⟨⟨y, r'⟩, hread, rfl⟩ := Option.map_eq_some_iff.1 h
  obtain ⟨k0, hfloor, -, hy⟩ := State.readSample_eq hread
  exact ⟨k0, hfloor, hy⟩

/-- One output sample stores to no other word (R182). -/
theorem State.memRead_outputSample_of_ne {c' i' : Nat} (h : s.outputSample c i x = some z) (hi : i < 1024)
    (hi' : i' < 1024) (hne : (c', i') ≠ (c, i)) (e : Nat) :
    memRead e z.2 (obufAddr c' i') = memRead e x.2 (obufAddr c' i') := by
  obtain ⟨y, hmem, -⟩ := State.outputSample_eq h
  have haddr : obufAddr c i ≠ obufAddr c' i' := fun heq => by
    obtain ⟨rfl, rfl⟩ := (obufAddr_inj hi hi').1 heq
    exact hne rfl
  rw [hmem, memRead_memWrite _ _ _ _ _ (by unfold obufAddr at haddr ⊢; omega), if_neg haddr]

/-- The samples of a channel are stored to no word of another channel. -/
theorem State.memRead_outputSamples_of_ne {c' i' : Nat} (h : s.outputSamples c n x = some z) (hn : n ≤ 1024)
    (hi' : i' < 1024) (hne : c' ≠ c) (e : Nat) :
    memRead e z.2 (obufAddr c' i') = memRead e x.2 (obufAddr c' i') := by
  induction n generalizing z with
  | zero => cases h; rfl
  | succ n ih =>
    obtain ⟨y, hy, hz⟩ := State.outputSamples_succ h
    exact (State.memRead_outputSample_of_ne hz (by omega) hi' (by simp [hne]) e).trans (ih hy (by omega))

/-- Sample `i` of a read channel is read `i` advances after the channel's first (R156, R183). -/
theorem State.sampleWord_outputSamples (h : s.outputSamples c n x = some z) (hn : n ≤ 1024) (hc : c < s.active)
    (hi : i < n) (e : Nat) :
    s.sampleWord c ((advance s.par s.pitch)^[i] x.1) = some (memRead e z.2 (obufAddr c i)) := by
  induction n generalizing z with
  | zero => omega
  | succ n ih =>
    obtain ⟨y, hy, hz⟩ := State.outputSamples_succ h
    obtain rfl | hlt := Nat.eq_or_lt_of_le (Nat.le_of_lt_succ hi)
    · obtain ⟨w, hmem, ⟨-, hread⟩ | ⟨hge, -⟩⟩ := State.outputSample_eq hz
      · have hroff := State.outputSamples_roff hy
        rw [if_pos hc] at hroff
        rw [← hroff, State.sampleWord, hread, hmem, memRead_memWrite _ _ _ _ _ (.inl rfl), if_pos rfl]
        rfl
      · omega
    · rw [State.memRead_outputSample_of_ne hz (by omega) (by omega) (by simp [hlt.ne]) e]
      exact ih hy (by omega) hlt

/-- Sample `i` of read channel `c` is read `c * N + i` advances after the block's first: the channels share one read
offset (R160, R161, R183). -/
theorem State.sampleWord_outputChannels (h : s.outputChannels k x = some z) (hN : s.par.blk ≤ 1024) (hck : c < k)
    (hc : c < s.active) (hi : i < s.par.blk) (e : Nat) :
    s.sampleWord c ((advance s.par s.pitch)^[c * s.par.blk + i] x.1) = some (memRead e z.2 (obufAddr c i)) := by
  induction k generalizing z with
  | zero => omega
  | succ k ih =>
    obtain ⟨y, hy, hz⟩ := State.outputChannels_succ h
    obtain rfl | hlt := Nat.eq_or_lt_of_le (Nat.le_of_lt_succ hck)
    · have hroff := State.outputChannels_roff hy
      rw [Nat.min_eq_left hc.le] at hroff
      rw [Nat.add_comm, Function.iterate_add_apply, ← hroff]
      exact State.sampleWord_outputSamples hz hN hc hi e
    · rw [State.memRead_outputSamples_of_ne hz hN (by omega) hlt.ne e]
      exact ih hy hlt

end

/-- The OBUF words a block with input leaves (R182, R183): the reads are made with the ring, the cursor and the pitch of
its first three steps. -/
theorem State.sampleWord_completeProcess {s t : State} {nin nout c i : Nat} (hnin : nin ≠ 0)
    (h : s.completeProcess nin nout = .next t) (hN : s.par.blk ≤ 1024) (hck : c < nout) (hc : c < max s.active nin)
    (hi : i < s.par.blk) :
    (s.ingest nin).sampleWord c (s.offsetAfter (c * s.par.blk + i)) = some (t.obuf c i) := by
  obtain ⟨h0, -⟩ | ⟨-, -, he⟩ | ⟨-, -, -, he⟩ | ⟨-, -, u, hu, he⟩ := s.completeProcess_cases nin nout
  · exact absurd h0 hnin
  · cases he.symm.trans h
  · cases he.symm.trans h
  · cases he.symm.trans h
    obtain ⟨r, mem, r', ho, -, rfl⟩ := State.synthesize_eq hu
    have hword := State.sampleWord_outputChannels ho (by rwa [State.ingest_par]) hck (by rwa [State.ingest_active])
      (by rwa [State.ingest_par]) (s.ingest nin).epoch
    rw [State.ingest_par, State.ingest_pitch, State.ingest_roff] at hword
    exact hword

end Sys2Proof.Machine
end

section
/-! ## The statements -/

open Sys2Proof Sys2Proof.Machine

/-- Settles O43, by induction on the channels and on the samples of each: the read offset at a sample counts the reads
before it. -/
theorem outputSamplesAreInterpolated : Obligations.OutputSamplesAreInterpolated := by
  intro s t nin nout hp hi hnin ht c i hck hc hiN
  rw [State.engineStep_of_process hi] at ht
  obtain ⟨-, -, -, hN, -⟩ := hp
  obtain ⟨hpar, hring⟩ := State.completeProcess_ring hnin ht
  obtain ⟨hwcur, -⟩ := State.completeProcess_endState hnin ht
  have hslot (j : Nat) : t.slot c j = (s.ingest nin.toNat).slot c j := by
    rw [State.slot, hpar, hring, State.slot, State.ingest_par]
  obtain ⟨k0, hfloor, hword⟩ :=
    State.sampleWord_eq_some (State.sampleWord_completeProcess hnin ht (by omega) hck hc hiN)
  rw [State.ingest_par, State.ingest_wcur, writeSlot, ← hwcur] at hfloor hword
  exact ⟨_, k0, rfl, hfloor, by rw [hword, hslot, hslot]⟩

end

section
/-! SUPPORT. A block with input has one way to complete (R182), and the OBUF words that no read gives are silence: those of
a block with no input (R181) and those of channels with no populated buffer (R184). -/

namespace Sys2Proof.Machine

/-- A block fits the ring and a window (R8, R66). -/
theorem blk_bounds_of_legal {p : Params} (hp : p.Legal) : 0 < p.cap ∧ p.blk ≤ p.cap ∧ p.blk ≤ 1024 := by
  unfold Params.Legal at hp
  omega

/-- A block with input completes exactly when its pitch is finite and its reads and FINAL_NORMALIZE have a result; the end
state is that of its first three steps, with that result (R145, R182). -/
theorem State.completeProcess_eq_next_iff {s t : State} {nin nout : Nat} (hnin : nin ≠ 0) :
    s.completeProcess nin nout = .next t ↔ isFinite32 s.blockPitch = true ∧
      ∃ r mem r', (s.ingest nin).outputChannels nout (s.roff, s.mem) = some (r, mem)
        ∧ finalNormalize s.par r = some r' ∧ t = { s.ingest nin with roff := r', mem := mem }.finish := by
  constructor
  · intro h
    obtain ⟨h0, -⟩ | ⟨-, -, he⟩ | ⟨-, -, -, he⟩ | ⟨-, hfin, u, hu, he⟩ := s.completeProcess_cases nin nout
    · exact absurd h0 hnin
    · cases he.symm.trans h
    · cases he.symm.trans h
    · cases he.symm.trans h
      obtain ⟨r, mem, r', ho, hr, rfl⟩ := State.synthesize_eq hu
      rw [State.ingest_roff, State.ingest_mem] at ho
      rw [State.ingest_par] at hr
      exact ⟨hfin, r, mem, r', ho, hr, rfl⟩
  · rintro ⟨hfin, r, mem, r', ho, hr, rfl⟩
    rw [← State.ingest_par s nin] at hr
    rw [← State.ingest_roff s nin, ← State.ingest_mem s nin] at ho
    rw [State.completeProcess, if_neg hnin, State.ingest_pitch, if_pos hfin, State.synthesize_eq_some ho hr]

/-! ## Silence -/

/-- The words of a silenced channel are +0.0, and every other OBUF word stays (R181). -/
theorem memRead_silenceSamples (e c : Nat) (mem : Memory) (c' : Nat) {n i : Nat} (hn : n ≤ 1024) (hi : i < 1024) :
    memRead e (silenceSamples c n mem) (obufAddr c' i)
      = if c = c' ∧ i < n then 0x00000000#32 else memRead e mem (obufAddr c' i) := by
  induction n with
  | zero => simp [silenceSamples]
  | succ n ih =>
    have haddr := obufAddr_inj (c := c) (c' := c') (by omega : n < 1024) hi
    rw [silenceSamples, memRead_memWrite _ _ _ _ _ (by unfold obufAddr at haddr ⊢; omega), ih (by omega)]
    grind

theorem memRead_silenceChannels (e : Nat) {p : Params} (mem : Memory) (k c : Nat) {i : Nat} (hN : p.blk ≤ 1024)
    (hi : i < p.blk) : memRead e (silenceChannels p k mem) (obufAddr c i)
      = if c < k then 0x00000000#32 else memRead e mem (obufAddr c i) := by
  induction k with
  | zero => simp [silenceChannels]
  | succ k ih =>
    rw [silenceChannels, memRead_silenceSamples _ _ _ _ hN (by omega), ih]
    grind

/-- The samples of a channel with no populated buffer are silence and leave the read offset (R184). -/
theorem State.outputSamples_of_unpopulated {s : State} {c : Nat} (hc : s.active ≤ c) (n : Nat) (x : Bits64 × Memory) :
    s.outputSamples c n x = some (x.1, silenceSamples c n x.2) := by
  induction n with
  | zero => rfl
  | succ n ih =>
    rw [State.outputSamples, ih]
    exact if_neg (Nat.not_lt.2 hc)

theorem State.memRead_outputChannels_of_unpopulated {s : State} {k c i : Nat} {x z : Bits64 × Memory}
    (h : s.outputChannels k x = some z) (hN : s.par.blk ≤ 1024) (hck : c < k) (hc : s.active ≤ c) (hi : i < s.par.blk)
    (e : Nat) : memRead e z.2 (obufAddr c i) = 0x00000000#32 := by
  induction k generalizing z with
  | zero => omega
  | succ k ih =>
    obtain ⟨y, hy, hz⟩ := State.outputChannels_succ h
    obtain rfl | hlt := Nat.eq_or_lt_of_le (Nat.le_of_lt_succ hck)
    · cases (State.outputSamples_of_unpopulated hc _ y).symm.trans hz
      exact (memRead_silenceSamples e c y.2 c hN (by omega)).trans (if_pos ⟨rfl, hi⟩)
    · exact (State.memRead_outputSamples_of_ne hz hN (by omega) hlt.ne e).trans (ih hy hlt)

/-- The OBUF words a block with no input leaves (R181). -/
theorem State.obuf_noInput (s : State) {nout c i : Nat} (hN : s.par.blk ≤ 1024) (hc : c < nout) (hi : i < s.par.blk) :
    (s.noInput nout).obuf c i = 0x00000000#32 :=
  (memRead_silenceChannels s.epoch s.mem nout c hN hi).trans (if_pos hc)

/-- The OBUF words a block with input leaves for the channels with no populated buffer (R184). -/
theorem State.obuf_completeProcess_of_unpopulated {s t : State} {nin nout c i : Nat} (hnin : nin ≠ 0)
    (h : s.completeProcess nin nout = .next t) (hN : s.par.blk ≤ 1024) (hck : c < nout) (hc : max s.active nin ≤ c)
    (hi : i < s.par.blk) : t.obuf c i = 0x00000000#32 := by
  obtain ⟨-, r, mem, r', ho, -, rfl⟩ := (State.completeProcess_eq_next_iff hnin).1 h
  exact State.memRead_outputChannels_of_unpopulated ho (by rwa [State.ingest_par]) hck (by rwa [State.ingest_active])
    (by rwa [State.ingest_par]) (s.ingest nin).epoch

end Sys2Proof.Machine
end

section
/-! SUPPORT. The end state of a block with input (R190): its fields, the read offset and the stored block. -/

namespace Sys2Proof.Machine

section
variable {s t : State} {nin nout : Nat}

/-- The fields after a block with input: only RING, R and the staging bytes are not given by a formula here (R190). -/
theorem State.completeProcess_frame (hnin : nin ≠ 0) (h : s.completeProcess nin nout = .next t) :
    t = { s with
      ring := t.ring, wcur := (s.wcur + s.par.blk) % s.par.cap, roff := t.roff, pitch := s.blockPitch,
      active := max s.active nin, pend := false, inflight := .none, mem := t.mem } := by
  obtain ⟨-, r, mem, r', -, -, rfl⟩ := (State.completeProcess_eq_next_iff hnin).1 h
  rw [State.ingest_eq]
  rfl

/-- R after a block with input: one advance for each read of a populated channel, then FINAL_NORMALIZE (R190). -/
theorem State.finalNormalize_completeProcess (hnin : nin ≠ 0) (h : s.completeProcess nin nout = .next t) :
    finalNormalize s.par (s.offsetAfter (min nout (max s.active nin) * s.par.blk)) = some t.roff := by
  obtain ⟨-, r, mem, r', ho, hr, rfl⟩ := (State.completeProcess_eq_next_iff hnin).1 h
  have hroff : r = s.offsetAfter (min nout (max s.active nin) * s.par.blk) := by
    simpa [State.offsetAfter] using State.outputChannels_roff ho
  rwa [hroff] at hr

/-- The block in the N slots from W of a populated channel (R130, R190). -/
theorem State.slot_completeProcess_written (hcap : 0 < s.par.cap) (hblk : s.par.blk ≤ s.par.cap) (hnin : nin ≠ 0)
    (h : s.completeProcess nin nout = .next t) {c i : Nat} (hc : c < max s.active nin) (hi : i < s.par.blk) :
    t.slot c ((s.wcur + i) % s.par.cap) = if c < nin then s.ibuf c i else 0x00000000#32 := by
  obtain ⟨hwritten, -⟩ := State.ringRead_writeChannels { s with active := max s.active nin } nin s.ring hcap hblk c
    (writeSlot s.par s.wcur i) (writeSlot_lt hcap _ _) (max s.active nin)
  exact (State.slot_completeProcess hnin h c _).trans (hwritten i hi hc rfl)

end

end Sys2Proof.Machine
end

section
/-! SUPPORT. A PROCESS reads of the staging windows only the input words of channels below NIN (R187): with other windows
that agree on those words it stores the same block, makes the same reads and leaves the same output words. -/

namespace Sys2Proof.Machine

/-- `s` with other staging bytes, and other power-on contents of them. -/
def State.rewindow (s : State) (mem : Memory) (epoch : Nat) : State := { s with mem := mem, epoch := epoch }

/-! ## The write path -/

section
variable {s s' : State} {nin : Nat} (hpar : s'.par = s.par) (hw : s'.wcur = s.wcur)
  (hin : ∀ c i, i < s.par.blk → s'.inputWord nin c i = s.inputWord nin c i)
include hpar hw hin

/-- The write path depends on the parameters, the cursor and the input words alone (R130, R131). -/
theorem State.writeSamples_congr (c : Nat) {n : Nat} (hn : n ≤ s.par.blk) (ring : Memory) :
    s'.writeSamples nin c n ring = s.writeSamples nin c n ring := by
  induction n with
  | zero => rfl
  | succ i ih => rw [State.writeSamples, State.writeSamples, ih (by omega), hpar, hw, hin c i hn]

theorem State.writeChannels_congr (k : Nat) (ring : Memory) :
    s'.writeChannels nin k ring = s.writeChannels nin k ring := by
  induction k with
  | zero => rfl
  | succ c ih =>
    rw [State.writeChannels, State.writeChannels, ih, hpar, State.writeSamples_congr hpar hw hin c le_rfl]

end

section
variable {s : State} {mem : Memory} {epoch nin : Nat}

/-- The input words of channels at or above NIN are silence, whatever IBUF holds there (R132). -/
theorem State.inputWord_rewindow
    (hin : ∀ c i, c < nin → i < s.par.blk → (s.rewindow mem epoch).ibuf c i = s.ibuf c i) (c : Nat) {i : Nat}
    (hi : i < s.par.blk) : (s.rewindow mem epoch).inputWord nin c i = s.inputWord nin c i := by
  unfold State.inputWord
  split_ifs with hc
  · exact hin c i hc hi
  · rfl

theorem State.ingest_rewindow
    (hin : ∀ c i, c < nin → i < s.par.blk → (s.rewindow mem epoch).ibuf c i = s.ibuf c i) :
    (s.rewindow mem epoch).ingest nin = (s.ingest nin).rewindow mem epoch := by
  have hring := State.writeChannels_congr (s := { s with active := max s.active nin })
    (s' := { s.rewindow mem epoch with active := max s.active nin }) rfl rfl
    (fun c _ hi => State.inputWord_rewindow hin c hi) (max s.active nin) s.ring
  simp only [State.ingest_eq, State.rewindow] at hring ⊢
  rw [hring]
  rfl

/-! ## The read path -/

variable {x x' z : Bits64 × Memory}

theorem State.exists_outputSample_rewindow {c i : Nat} (h : s.outputSample c i x = some z) (hx : x'.1 = x.1) :
    ∃ z', (s.rewindow mem epoch).outputSample c i x' = some z' ∧ z'.1 = z.1 := by
  obtain ⟨y, -, ⟨hc, hread⟩ | ⟨hc, -, hr⟩⟩ := State.outputSample_eq h
  · have hread' : (s.rewindow mem epoch).readSample c x'.1 = some (y, z.1) := hx ▸ hread
    refine ⟨(z.1, memWrite x'.2 (obufAddr c i) y), (if_pos hc).trans ?_, rfl⟩
    rw [hread']
  · exact ⟨_, if_neg (Nat.not_lt.2 hc), hx.trans hr.symm⟩

theorem State.exists_outputSamples_rewindow {c n : Nat} (h : s.outputSamples c n x = some z) (hx : x'.1 = x.1) :
    ∃ z', (s.rewindow mem epoch).outputSamples c n x' = some z' ∧ z'.1 = z.1 := by
  induction n generalizing z with
  | zero => cases h; exact ⟨x', rfl, hx⟩
  | succ i ih =>
    obtain ⟨y, hy, hz⟩ := State.outputSamples_succ h
    obtain ⟨y', hy', hyy⟩ := ih hy
    rw [State.outputSamples, hy']
    exact State.exists_outputSample_rewindow hz hyy

/-- Whether the reads have a result, and the read offset after them, do not depend on the staging bytes (R150). -/
theorem State.exists_outputChannels_rewindow {k : Nat} (h : s.outputChannels k x = some z) (hx : x'.1 = x.1) :
    ∃ z', (s.rewindow mem epoch).outputChannels k x' = some z' ∧ z'.1 = z.1 := by
  induction k generalizing z with
  | zero => cases h; exact ⟨x', rfl, hx⟩
  | succ c ih =>
    obtain ⟨y, hy, hz⟩ := State.outputChannels_succ h
    obtain ⟨y', hy', hyy⟩ := ih hy
    rw [State.outputChannels, hy']
    exact State.exists_outputSamples_rewindow hz hyy

/-! ## Completion -/

variable {t t' : State} {nout : Nat}

/-- A block with input completes with the other windows too, in the same engine state (R187). -/
theorem State.exists_completeProcess_rewindow (hnin : nin ≠ 0)
    (hin : ∀ c i, c < nin → i < s.par.blk → (s.rewindow mem epoch).ibuf c i = s.ibuf c i)
    (h : s.completeProcess nin nout = .next t) :
    ∃ t', (s.rewindow mem epoch).completeProcess nin nout = .next t' ∧ SameEngineState t t' := by
  obtain ⟨hfin, r, m, r', ho, hr, rfl⟩ := (State.completeProcess_eq_next_iff hnin).1 h
  obtain ⟨⟨_, m'⟩, ho', rfl⟩ :=
    State.exists_outputChannels_rewindow (mem := mem) (epoch := epoch) (x' := (s.roff, mem)) ho rfl
  rw [← State.ingest_rewindow hin] at ho'
  refine ⟨_, (State.completeProcess_eq_next_iff hnin).2 ⟨hfin, _, m', r', ho', hr, rfl⟩, ?_⟩
  rw [State.ingest_rewindow hin]
  exact ⟨rfl, rfl, rfl, rfl, rfl⟩

/-- The output words of a block with input are the same with the other windows: the reads find the same ring, cursor and
pitch, and the other channels are silent (R184, R187). -/
theorem State.obuf_completeProcess_rewindow (hnin : nin ≠ 0)
    (hin : ∀ c i, c < nin → i < s.par.blk → (s.rewindow mem epoch).ibuf c i = s.ibuf c i)
    (h : s.completeProcess nin nout = .next t) (h' : (s.rewindow mem epoch).completeProcess nin nout = .next t')
    (hN : s.par.blk ≤ 1024) {c i : Nat} (hc : c < nout) (hi : i < s.par.blk) : t'.obuf c i = t.obuf c i := by
  by_cases hread : c < max s.active nin
  · have hword := State.sampleWord_completeProcess hnin h hN hc hread hi
    have hword' := State.sampleWord_completeProcess hnin h' hN hc hread hi
    rw [State.ingest_rewindow hin] at hword'
    exact Option.some.inj (hword'.symm.trans hword)
  · have hsilent := Nat.le_of_not_lt hread
    rw [State.obuf_completeProcess_of_unpopulated hnin h hN hc hsilent hi]
    exact State.obuf_completeProcess_of_unpopulated hnin h' hN hc hsilent hi

end

end Sys2Proof.Machine
end

section
/-! ## The statements -/

open Sys2Proof Sys2Proof.Machine

/-- Settles O38: the completion only stores the silence and ends the PROCESS. -/
theorem noInputBlockIsSilence : Obligations.NoInputBlockIsSilence := by
  intro s nout hp hi
  obtain ⟨-, -, hN⟩ := blk_bounds_of_legal hp
  have ht : s.engineStep = .next (s.noInput nout.toNat).finish :=
    (State.engineStep_of_process hi).trans (s.completeProcess_of_no_input _)
  exact ⟨_, ht, rfl, fun c i hc hiN => s.obuf_noInput hN hc hiN, processWritesOnlyItsOutputWords s _ 0 nout hi ht⟩

/-- Settles O39: the fields, R and the stored block are those of the write path and of the reads; the two frames are O40
and O41. -/
theorem inputBlockEndState : Obligations.InputBlockEndState := by
  intro s t nin nout hp hi hnin ht
  have hdone := (State.engineStep_of_process hi).symm.trans ht
  obtain ⟨hcap, hblk, -⟩ := blk_bounds_of_legal hp
  exact ⟨State.completeProcess_frame hnin hdone, State.finalNormalize_completeProcess hnin hdone,
    fun c i hc hiN => State.slot_completeProcess_written hcap hblk hnin hdone hc hiN,
    inputBlockLeavesOtherSlots s t nin nout hp hi hnin ht, processWritesOnlyItsOutputWords s t nin nout hi ht⟩

/-- Settles O42: the samples of such a channel are silence, and no later channel stores to its words. -/
theorem unpopulatedOutputsAreSilent : Obligations.UnpopulatedOutputsAreSilent := by
  intro s t nin nout hp hi hnin ht c i hc hck hiN
  obtain ⟨-, -, hN⟩ := blk_bounds_of_legal hp
  rw [State.engineStep_of_process hi] at ht
  exact State.obuf_completeProcess_of_unpopulated hnin ht hN hck hc hiN

/-- Settles O47: a block with no input leaves silence, and one with input reads only the words that agree. -/
theorem blockDependsOnItsInputsAlone : Obligations.BlockDependsOnItsInputsAlone := by
  intro s t nin nout mem epoch hp hi hin ht
  obtain ⟨-, -, hN⟩ := blk_bounds_of_legal hp
  rw [State.engineStep_of_process hi] at ht
  have hi' : (s.rewindow mem epoch).inflight = .process nin nout := hi
  obtain ⟨-, hidle, hpend⟩ := State.completeProcess_finished ht
  suffices h : ∃ t', (s.rewindow mem epoch).completeProcess nin.toNat nout.toNat = .next t' ∧ SameEngineState t t'
      ∧ ∀ c i, c < nout.toNat → i < s.par.blk → t'.obuf c i = t.obuf c i by
    obtain ⟨t', ht', hsame, hobuf⟩ := h
    obtain ⟨-, hidle', hpend'⟩ := State.completeProcess_finished ht'
    exact ⟨t', (State.engineStep_of_process hi').trans ht', hsame, hpend'.trans hpend.symm, hidle'.trans hidle.symm,
      hobuf⟩
  by_cases hnin : nin.toNat = 0
  · rw [hnin] at ht ⊢
    cases ht
    refine ⟨_, State.completeProcess_of_no_input _ _, ⟨rfl, rfl, rfl, rfl, rfl⟩, fun c i hc hiN => ?_⟩
    exact (State.obuf_noInput (s.rewindow mem epoch) hN hc hiN).trans (s.obuf_noInput hN hc hiN).symm
  · obtain ⟨t', ht', hsame⟩ := State.exists_completeProcess_rewindow hnin hin ht
    exact ⟨t', ht', hsame, fun c i hc hiN =>
      State.obuf_completeProcess_rewindow hnin hin ht ht' hN hc hiN⟩

end

section
/-! SUPPORT. The registers and windows as the host sees them: the bits of STATUS (R44), the ranges of the words read
while idle (R203), the lanes of a staging word (R67), and the accesses to the IBUF and OBUF windows (R209 to R211). -/

namespace Sys2Proof.Machine

/-! ## STATUS -/

/-- The bits of STATUS from bit 0 up, zeros above the four flags (R44). -/
theorem State.getLsbD_statusWord (s : State) (i : Nat) :
    s.statusWord.getLsbD i = [s.busy, s.errCmd, s.errBusy, s.pend].getD i false := by
  rw [State.statusWord, BitVec.zeroExtend, BitVec.getLsbD_setWidth]
  match i with
  | 0 | 1 | 2 | 3 => simp only [BitVec.getLsbD_append, BitVec.getLsbD_ofBool]; rfl
  | i + 4 => rw [BitVec.getLsbD_of_ge _ _ (by omega), Bool.and_false]; rfl

/-- The reserved field of STATUS reads 0 (R44). -/
theorem State.statusWord_top (s : State) : s.statusWord.extractLsb' 4 28 = 0#28 := by
  refine BitVec.eq_of_getLsbD_eq fun i _ => ?_
  rw [BitVec.getLsbD_extractLsb', s.getLsbD_statusWord, List.getD_eq_default _ _ (Nat.le_add_right 4 i), Bool.and_false,
    BitVec.getLsbD_zero]

/-! ## The words of engine state -/

namespace Inv

variable {s : State}

theorem toNat_wcurWord (h : Inv s) : (BitVec.ofNat 32 s.wcur).toNat = s.wcur := by
  obtain ⟨-, hcap, -⟩ := h.legal
  exact Nat.mod_eq_of_lt ((h.wcur_lt.trans_le hcap).trans (by norm_num))

theorem toNat_activeWord (h : Inv s) : (BitVec.ofNat 32 s.active).toNat = s.active := by
  obtain ⟨-, -, -, -, -, hnch⟩ := h.legal
  exact Nat.mod_eq_of_lt ((h.active_le.trans hnch).trans_lt (by norm_num))

end Inv

/-! ## Window words -/

section
variable (s : State)

theorem State.lane_ibuf (c i : Nat) {k : Nat} (hk : k < 4) : lane (s.ibuf c i) k = s.byte (ibufAddr c i + k) :=
  lane_wordAt _ _ k hk

theorem State.lane_obuf (c i : Nat) {k : Nat} (hk : k < 4) : lane (s.obuf c i) k = s.byte (obufAddr c i + k) :=
  lane_wordAt _ _ k hk

theorem State.byte_writeIbuf_add (c i : Nat) (v : Word) {k : Nat} (hk : k < 4) :
    (s.writeIbuf c i v).byte (ibufAddr c i + k) = lane v k := by
  rw [State.byte_writeIbuf, if_pos ⟨Nat.le_add_right _ _, Nat.add_lt_add_left hk _⟩, Nat.add_sub_cancel_left]

theorem State.byte_writeIbuf_of_outside {c i a : Nat} (v : Word) (ha : a < ibufAddr c i ∨ ibufAddr c i + 4 ≤ a) :
    (s.writeIbuf c i v).byte a = s.byte a := by
  rw [State.byte_writeIbuf, if_neg (by omega)]

end

section
variable {s : State} {c : BitVec 4} {i : BitVec 10}

theorem exec_rdIbuf_of_inWindow (hw : inWindow s.par c i = true) :
    exec (.rdIbuf c i) s = .next (s.returnWord (s.ibuf c.toNat i.toNat)) :=
  congrArg (fun w => Host.Outcome.next (s.returnWord w)) (if_pos hw)

theorem exec_rdObuf_of_idle (hi : s.inflight = .none) (hw : inWindow s.par c i = true) :
    exec (.rdObuf c i) s = .next (s.returnWord (s.obuf c.toNat i.toNat)) :=
  congrArg _ ((if_pos hw).trans (State.returnIfIdle_of_idle hi _))

theorem exec_wrIbuf_of_idle (v : Word) (hi : s.inflight = .none) (hw : inWindow s.par c i = true) :
    exec (.wrIbuf c i v) s = .next (s.writeIbuf c.toNat i.toNat v) :=
  congrArg _ ((if_pos hw).trans (State.whenIdle_of_idle hi _))

theorem exec_wrIbuf_of_busy (v : Word) (hb : s.inflight ≠ .none) (hw : inWindow s.par c i = true) :
    exec (.wrIbuf c i v) s = .next s.setErrBusy :=
  congrArg _ ((if_pos hw).trans (State.whenIdle_of_busy hb _))

/-- A word outside the window is a reserved address (R62, R208). -/
theorem exec_wrIbuf_of_not_inWindow (v : Word) (hw : ¬ inWindow s.par c i = true) :
    exec (.wrIbuf c i v) s = .next s :=
  congrArg _ (if_neg hw)

end

end Sys2Proof.Machine
end

section
/-! ## The statements -/

open Sys2Proof Sys2Proof.Machine

/-- Settles O18: the reads pass the gate of BUSY, the invariant bounds W and A, and the two reads of R split its
pattern. -/
theorem engineRegistersReadWhileIdle : Obligations.EngineRegistersReadWhileIdle := by
  intro s hi hinv
  have hread (w : Word) : s.returnIfIdle w = s.returnWord w := State.returnIfIdle_of_idle hi w
  exact ⟨BitVec.ofNat 32 s.wcur, BitVec.ofNat 32 s.active, s.roff.extractLsb' 0 32, s.roff.extractLsb' 32 32,
    congrArg _ (hread _), congrArg _ (hread _), hinv.toNat_wcurWord, congrArg _ (hread _), hinv.toNat_activeWord,
    congrArg _ (hread _), congrArg _ (hread _), BitVec.extractLsb'_append_extractLsb'⟩

/-- Settles O28: the window is tested before BUSY, and the word stored covers the four bytes of its lanes alone. -/
theorem ibufWriteStoresTheWord : Obligations.IbufWriteStoresTheWord := by
  refine fun s c i v => ⟨fun hi hc hiN => ?_, fun hb hc hiN => ?_, fun hout => ?_⟩
  · exact ⟨s.writeIbuf c.toNat i.toNat v, exec_wrIbuf_of_idle v hi (inWindow_iff.2 ⟨hc, hiN⟩), rfl,
      s.ibuf_writeIbuf _ _ v, fun k hk => s.byte_writeIbuf_add _ _ v hk,
      fun a ha => s.byte_writeIbuf_of_outside v ha⟩
  · exact exec_wrIbuf_of_busy v hb (inWindow_iff.2 ⟨hc, hiN⟩)
  · exact exec_wrIbuf_of_not_inWindow v (mt inWindow_iff.1 hout)

/-- Settles O16. -/
theorem writeOnlyRegistersReadZero : Obligations.WriteOnlyRegistersReadZero := fun _ => ⟨rfl, rfl⟩

/-- Settles O17: the word read is STATUS of the state itself, whose bits are the flags. -/
theorem statusReadGivesFlags : Obligations.StatusReadGivesFlags := by
  intro s
  have hbusy : s.statusWord.getLsbD 0 = s.busy := s.getLsbD_statusWord 0
  exact ⟨s.statusWord, rfl, hbusy ▸ s.busy_eq_true_iff, s.getLsbD_statusWord 1, s.getLsbD_statusWord 2,
    s.getLsbD_statusWord 3, s.statusWord_top⟩

/-- Settles O20: the read is not gated by BUSY, and the lanes of a word are the bytes it is read from. -/
theorem ibufReadReturnsStoredWord : Obligations.IbufReadReturnsStoredWord := fun s c i hc hiN =>
  ⟨s.ibuf c.toNat i.toNat, exec_rdIbuf_of_inWindow (inWindow_iff.2 ⟨hc, hiN⟩),
    fun _ hk => s.lane_ibuf c.toNat i.toNat hk⟩

/-- Settles O21: while idle the read passes the gate of BUSY. -/
theorem obufReadReturnsStoredWordWhileIdle : Obligations.ObufReadReturnsStoredWordWhileIdle := fun s c i hi hc hiN =>
  ⟨s.obuf c.toNat i.toNat, exec_rdObuf_of_idle hi (inWindow_iff.2 ⟨hc, hiN⟩),
    fun _ hk => s.lane_obuf c.toNat i.toNat hk⟩

/-- Settles O24. -/
theorem readOnlyAndObufWritesAreIgnored : Obligations.ReadOnlyAndObufWritesAreIgnored :=
  fun _ _ _ _ => ⟨rfl, rfl, rfl, rfl, rfl, rfl, rfl, rfl⟩

/-- Settles O25: each flag is kept where its bit of the written word is 0. -/
theorem statusWriteClearsFlags : Obligations.StatusWriteClearsFlags := by
  intro s v
  calc exec (.wrStatus v) s
      = .next { s with errCmd := s.errCmd && !v.getLsbD 1, errBusy := s.errBusy && !v.getLsbD 2 } := rfl
    _ = _ := by simp only [Bool.if_false_left, Bool.decide_eq_true, Bool.and_comm]

end

section
/-! SUPPORT. The error flags that a host access sets, said once for every instruction (R230, R231, R235), and the block
with nothing scheduled and nothing in flight (R245). -/

namespace Sys2Proof.Machine

/-! ## Which accesses set an error flag -/

/-- `i` writes CMD, PITCH_IN or an IBUF word: the accesses that BUSY discards (R231, R235). A command in the CMD format
is a write to CMD (R205). -/
def GatedWrite (s : State) (i : Instr) : Prop :=
  i ∈ [.nop, .init] ∨ (∃ nin nout, i = .process nin nout) ∨ (∃ w, i = .illegalCmd w) ∨ (∃ w, i = .wrCmd w)
    ∨ (∃ v, i = .wrPitchIn v) ∨ ∃ c j v, i = .wrIbuf c j v ∧ c.toNat < s.par.nch ∧ j.toNat < s.par.blk

/-- `i` submits a command that is not legal (R114, R230; log 14). -/
def IllegalCommand (s : State) (i : Instr) : Prop :=
  (∃ w, i = .illegalCmd w) ∨ (∃ w, i = .wrCmd w ∧ legalCmd s.par w = false)
    ∨ ∃ nin nout, i = .process nin nout ∧ (s.par.nch < nin.toNat ∨ s.par.nch < nout.toNat)

/-- What the access `i` does to the error flags on the way from `s`: ERR_BUSY alone is set, ERR_CMD alone is set, or
neither flag. -/
inductive FlagEffect (s : State) (i : Instr) : State → Prop where
  | errBusy : s.inflight ≠ .none → GatedWrite s i → FlagEffect s i s.setErrBusy
  | errCmd : s.inflight = .none → IllegalCommand s i → FlagEffect s i s.setErrCmd
  | unset {t : State} : (t.errCmd = true → s.errCmd = true) → (t.errBusy = true → s.errBusy = true) → FlagEffect s i t

namespace FlagEffect

variable {s t : State} {i : Instr}

theorem returnIfIdle (v : Word) : FlagEffect s i (s.returnIfIdle v) := by
  obtain ⟨w, d, h⟩ := s.returnIfIdle_eq v
  rw [h]
  exact .unset id id

theorem acceptWord (w : Word) : FlagEffect s i (s.acceptWord w) := by
  obtain ⟨-, h⟩ | ⟨-, h⟩ | ⟨-, -, h⟩ := s.acceptWord_cases w <;> rw [h] <;> exact .unset id id

/-- STATUS can only clear the flags (R204). -/
theorem clearErrors (v : Word) : FlagEffect s i (s.clearErrors v) :=
  .unset Bool.and_elim_left Bool.and_elim_left

theorem whenIdle (hg : GatedWrite s i) {f : State → State} (h : s.inflight = .none → FlagEffect s i (f s)) :
    FlagEffect s i (s.whenIdle f) := by
  obtain ⟨hi, he⟩ | ⟨hb, he⟩ := s.whenIdle_cases f <;> rw [he]
  · exact h hi
  · exact .errBusy hb hg

end FlagEffect

/-- Every instruction has one of these effects on the error flags. -/
theorem exec_flagEffect (i : Instr) (s : State) : ∃ t, exec i s = .next t ∧ FlagEffect s i t := by
  cases i with
  | nop | init => exact ⟨_, rfl, .whenIdle (by simp [GatedWrite]) fun _ => .unset id id⟩
  | process nin nout =>
    refine ⟨_, rfl, .whenIdle (by simp [GatedWrite]) fun hi => ?_⟩
    split_ifs with hop
    · exact .unset id id
    · exact .errCmd hi (.inr (.inr ⟨nin, nout, rfl, by omega⟩))
  | illegalCmd w =>
    exact ⟨_, rfl, .whenIdle (by simp [GatedWrite]) fun hi => .errCmd hi (.inl ⟨w, rfl⟩)⟩
  | wrCmd w =>
    refine ⟨_, rfl, .whenIdle (by simp [GatedWrite]) fun hi => ?_⟩
    split_ifs with hw
    · exact .acceptWord w
    · exact .errCmd hi (.inr (.inl ⟨w, rfl, Bool.eq_false_iff.2 hw⟩))
  | wrPitchIn v =>
    exact ⟨_, rfl, .whenIdle (by simp [GatedWrite]) fun _ => .unset id id⟩
  | wrIbuf c j v =>
    refine ⟨_, rfl, ?_⟩
    split_ifs with hw
    · have hgated : GatedWrite s (.wrIbuf c j v) := by simpa [GatedWrite] using inWindow_iff.1 hw
      exact .whenIdle hgated fun _ => .unset id id
    · exact .unset id id
  | wrStatus v => exact ⟨_, rfl, .clearErrors v⟩
  | rdCfgCap | rdCfgBlk | rdCmd | rdStatus | rdPitchIn => exact ⟨_, rfl, .unset id id⟩
  | rdPitch | rdWcur | rdActive | rdRoffLo | rdRoffHi => exact ⟨_, rfl, .returnIfIdle _⟩
  | rdIbuf c j => exact ⟨_, rfl, .unset id id⟩
  | rdObuf c j =>
    refine ⟨_, rfl, ?_⟩
    split_ifs
    · exact .returnIfIdle _
    · exact .unset id id
  | rdRsvd a => exact ⟨_, rfl, .unset id id⟩
  | wrRoCfgCap v | wrRoCfgBlk v | wrRoPitch v | wrRoWcur v | wrRoActive v | wrRoRoffLo v | wrRoRoffHi v =>
    exact ⟨_, rfl, .unset id id⟩
  | wrObuf c j v | wrRsvd a v => exact ⟨_, rfl, .unset id id⟩

section
variable {s t : State} {i : Instr}

theorem FlagEffect.of_exec (h : exec i s = .next t) : FlagEffect s i t := by
  obtain ⟨u, hu, he⟩ := exec_flagEffect i s
  cases hu.symm.trans h
  exact he

theorem FlagEffect.of_errBusy_set (h : FlagEffect s i t) (hs : s.errBusy = false) (ht : t.errBusy = true) :
    s.inflight ≠ .none ∧ GatedWrite s i := by
  cases h with
  | errBusy hb hg => exact ⟨hb, hg⟩
  | errCmd => cases hs.symm.trans ht
  | unset _ hbusy => cases hs.symm.trans (hbusy ht)

theorem FlagEffect.of_errCmd_set (h : FlagEffect s i t) (hs : s.errCmd = false) (ht : t.errCmd = true) :
    s.inflight = .none ∧ t = s.setErrCmd ∧ IllegalCommand s i := by
  cases h with
  | errCmd hi hc => exact ⟨hi, rfl, hc⟩
  | errBusy => cases hs.symm.trans ht
  | unset hcmd _ => cases hs.symm.trans (hcmd ht)

/-- The accesses of R231 pass the gate of BUSY, whatever they would do while idle. -/
theorem GatedWrite.exec_eq_whenIdle (h : GatedWrite s i) : ∃ f, exec i s = .next (s.whenIdle f) := by
  obtain h | ⟨nin, nout, rfl⟩ | ⟨w, rfl⟩ | ⟨w, rfl⟩ | ⟨v, rfl⟩ | ⟨c, j, v, rfl, hw⟩ := h
  · simp only [List.mem_cons, List.not_mem_nil, or_false] at h
    obtain rfl | rfl := h <;> exact ⟨_, rfl⟩
  · exact ⟨_, rfl⟩
  · exact ⟨_, rfl⟩
  · exact ⟨_, rfl⟩
  · exact ⟨_, rfl⟩
  · exact ⟨_, congrArg _ (if_pos (inWindow_iff.2 hw))⟩

theorem GatedWrite.exec_of_busy (h : GatedWrite s i) (hb : s.inflight ≠ .none) : exec i s = .next s.setErrBusy := by
  obtain ⟨f, hf⟩ := h.exec_eq_whenIdle
  rw [hf, State.whenIdle_of_busy hb]

/-! ## The finished block -/

/-- A state that a step keeps is kept by any number of steps. -/
theorem run_of_step_fixed {M : Host.Core} {u : M.State} (h : M.step u = .next u) (n : Nat) : M.run n u = .next u := by
  induction n with
  | zero => rfl
  | succ k ih => rw [Host.Core.run, h]; exact ih

/-- With nothing scheduled the turn is the Engine's, unless reset holds it, and nothing is in flight for it to complete
(R245, R270). -/
theorem State.Finished.step_eq (h : s.Finished) : step s = .next s := by
  obtain ⟨he, hi⟩ := h
  cases hr : s.rst with
  | true => exact step_of_wait (by rw [State.nextTurn, he]; simp [hr])
  | false => exact (step_of_engine (by rw [State.nextTurn, he]; simp [hr])).trans (State.engineStep_of_idle hi)

end

end Sys2Proof.Machine
end

section
/-! SUPPORT. The error flags change how nothing executes (R232): every operation takes two states that differ in them alone
to two such states. -/

namespace Sys2Proof.Machine

/-- `s` with other error flags. -/
def State.reflag (s : State) (b1 b2 : Bool) : State := { s with errCmd := b1, errBusy := b2 }

/-- `s'` is `s` but for the error flags. -/
def SameButFlags (s s' : State) : Prop := ∃ c1 c2, s' = s.reflag c1 c2

/-! ## Host accesses -/

namespace SameButFlags

variable {s s' : State}

theorem reflag (s : State) (b1 b2 : Bool) : SameButFlags s (s.reflag b1 b2) := ⟨b1, b2, rfl⟩

theorem ite {p : Prop} [Decidable p] {u u' : State} (h : SameButFlags s s') (hu : SameButFlags u u') :
    SameButFlags (if p then s else u) (if p then s' else u') := by
  split_ifs
  · exact h
  · exact hu

variable (b1 b2 : Bool)

/-- BUSY does not depend on the error flags (R44). -/
theorem whenIdle {f : State → State} (hf : SameButFlags (f s) (f (s.reflag b1 b2))) :
    SameButFlags (s.whenIdle f) ((s.reflag b1 b2).whenIdle f) :=
  .ite ⟨b1, true, rfl⟩ hf

theorem returnIfIdle (v : Word) : SameButFlags (s.returnIfIdle v) ((s.reflag b1 b2).returnIfIdle v) :=
  .ite (reflag s.returnAny b1 b2) (reflag (s.returnWord v) b1 b2)

theorem acceptWord (w : Word) : SameButFlags (s.acceptWord w) ((s.reflag b1 b2).acceptWord w) :=
  .ite (reflag (s.accept _) b1 b2) (.ite (reflag (s.accept _) b1 b2) (reflag s b1 b2))

end SameButFlags

/-- Only a read of STATUS returns the error flags, and each access sets or clears them in the same way (R202, R232). -/
theorem exec_reflag (i : Instr) (hi : i ≠ .rdStatus) (s : State) (b1 b2 : Bool) :
    ∃ t t', exec i s = .next t ∧ exec i (s.reflag b1 b2) = .next t' ∧ SameButFlags t t' := by
  have keep (t : State) : SameButFlags t (t.reflag b1 b2) := .reflag t b1 b2
  have illegal : SameButFlags s.setErrCmd (s.reflag b1 b2).setErrCmd := ⟨true, b2, rfl⟩
  cases i with
  | nop => exact ⟨_, _, rfl, rfl, .whenIdle b1 b2 (keep s)⟩
  | init => exact ⟨_, _, rfl, rfl, .whenIdle b1 b2 (keep (s.accept .clear))⟩
  | process nin nout => exact ⟨_, _, rfl, rfl, .whenIdle b1 b2 (.ite (keep (s.accept _)) illegal)⟩
  | illegalCmd w => exact ⟨_, _, rfl, rfl, .whenIdle b1 b2 illegal⟩
  | wrCmd w => exact ⟨_, _, rfl, rfl, .whenIdle b1 b2 (.ite (.acceptWord b1 b2 w) illegal)⟩
  | wrPitchIn v => exact ⟨_, _, rfl, rfl, .whenIdle b1 b2 (keep (s.stagePitch v))⟩
  | wrIbuf c j v => exact ⟨_, _, rfl, rfl, .ite (.whenIdle b1 b2 (keep (s.writeIbuf _ _ v))) (keep s)⟩
  | wrStatus v => exact ⟨_, _, rfl, rfl, b1 && !v.getLsbD 1, b2 && !v.getLsbD 2, rfl⟩
  | rdStatus => exact absurd rfl hi
  | rdCfgCap | rdCfgBlk | rdCmd | rdPitchIn => exact ⟨_, _, rfl, rfl, keep (s.returnWord _)⟩
  | rdPitch | rdWcur | rdActive | rdRoffLo | rdRoffHi => exact ⟨_, _, rfl, rfl, .returnIfIdle b1 b2 _⟩
  | rdIbuf c j => exact ⟨_, _, rfl, rfl, keep (s.returnWord _)⟩
  | rdObuf c j => exact ⟨_, _, rfl, rfl, .ite (.returnIfIdle b1 b2 _) (keep (s.returnWord _))⟩
  | rdRsvd a => exact ⟨_, _, rfl, rfl, keep (s.returnWord _)⟩
  | wrRoCfgCap v | wrRoCfgBlk v | wrRoPitch v | wrRoWcur v | wrRoActive v | wrRoRoffLo v | wrRoRoffHi v =>
    exact ⟨_, _, rfl, rfl, keep s⟩
  | wrObuf c j v | wrRsvd a v => exact ⟨_, _, rfl, rfl, keep s⟩

/-! ## The Engine -/

/-- The outcome with its next state, if it has one, under `f`. -/
def mapNext (f : State → State) : Host.Outcome State Fault Refusal → Host.Outcome State Fault Refusal
  | .next t => .next (f t)
  | .fault r => .fault r
  | .refused r => .refused r

section
variable (s : State) (b1 b2 : Bool)

theorem State.ingest_reflag (nin : Nat) : (s.reflag b1 b2).ingest nin = (s.ingest nin).reflag b1 b2 := by
  have hring := State.writeChannels_congr (s := { s with active := max s.active nin })
    (s' := { s.reflag b1 b2 with active := max s.active nin }) (nin := nin) rfl rfl (fun _ _ _ => rfl)
    (max s.active nin) s.ring
  simp only [State.ingest_eq, State.reflag] at hring ⊢
  rw [hring]
  rfl

/-- The reads use the parameters, the cursor, the pitch, the ring and A alone (R150, R183). -/
theorem State.outputSamples_reflag (c n : Nat) (x : Bits64 × Memory) :
    (s.reflag b1 b2).outputSamples c n x = s.outputSamples c n x := by
  induction n with
  | zero => rfl
  | succ i ih =>
    rw [State.outputSamples, ih]
    rfl

theorem State.outputChannels_reflag (k : Nat) (x : Bits64 × Memory) :
    (s.reflag b1 b2).outputChannels k x = s.outputChannels k x := by
  induction k with
  | zero => rfl
  | succ c ih =>
    simp only [State.outputChannels, ih, State.outputSamples_reflag]
    rfl

theorem State.synthesize_reflag (nout : Nat) :
    (s.reflag b1 b2).synthesize nout = (s.synthesize nout).map (State.reflag · b1 b2) := by
  have hreads : (s.reflag b1 b2).outputChannels nout ((s.reflag b1 b2).roff, (s.reflag b1 b2).mem)
      = s.outputChannels nout (s.roff, s.mem) := s.outputChannels_reflag b1 b2 nout _
  have hpar : (s.reflag b1 b2).par = s.par := rfl
  rw [State.synthesize, State.synthesize, hreads, hpar]
  cases s.outputChannels nout (s.roff, s.mem) with
  | none => rfl
  | some z =>
    dsimp only
    cases finalNormalize s.par z.1 <;> rfl

/-- The completion of a PROCESS reads neither flag and leaves both (R190, R232). -/
theorem State.completeProcess_reflag (nin nout : Nat) :
    (s.reflag b1 b2).completeProcess nin nout = mapNext (State.reflag · b1 b2) (s.completeProcess nin nout) := by
  have hpitch : ((s.ingest nin).reflag b1 b2).pitch = (s.ingest nin).pitch := rfl
  rw [State.completeProcess, State.completeProcess, State.ingest_reflag, State.synthesize_reflag, hpitch]
  split_ifs
  · rfl
  · cases (s.ingest nin).synthesize nout <;> rfl
  · rfl

theorem State.engineStep_reflag :
    (s.reflag b1 b2).engineStep = mapNext (State.reflag · b1 b2) s.engineStep := by
  cases hi : s.inflight with
  | none => rw [State.engineStep_of_idle hi, State.engineStep_of_idle (s := s.reflag b1 b2) hi]; rfl
  | clear => rw [State.engineStep_of_clear hi, State.engineStep_of_clear (s := s.reflag b1 b2) hi]; rfl
  | process nin nout =>
    rw [State.engineStep_of_process hi, State.engineStep_of_process (s := s.reflag b1 b2) hi]
    exact s.completeProcess_reflag b1 b2 nin.toNat nout.toNat

end

end Sys2Proof.Machine
end

section
/-! ## The statements -/

open Sys2Proof Sys2Proof.Machine

/-- Settles O31: the writes of R231 pass the gate of BUSY, and of all effects on the flags that gate alone sets
ERR_BUSY. -/
theorem busyWritesAreDiscarded : Obligations.BusyWritesAreDiscarded := fun _ _ =>
  ⟨fun hb hg => GatedWrite.exec_of_busy hg hb, fun _ h => (FlagEffect.of_exec h).of_errBusy_set⟩

/-- Settles O32: of all effects on the flags that of an illegal command while idle alone sets ERR_CMD. -/
theorem errCmdOnlyFromIllegalWordWhileIdle : Obligations.ErrCmdOnlyFromIllegalWordWhileIdle :=
  fun _ _ _ h => (FlagEffect.of_exec h).of_errCmd_set

/-- Settles O34: each access and each completion commutes with writing the error flags, but for what the access itself
does to them. -/
theorem errorFlagsDoNotAffectExecution : Obligations.ErrorFlagsDoNotAffectExecution := by
  intro s b1 b2
  have hengine : State.engineStep { s with errCmd := b1, errBusy := b2 } =
      mapNext (State.reflag · b1 b2) s.engineStep :=
    s.engineStep_reflag b1 b2
  refine ⟨fun i t hi ht => ?_, fun t ht => ?_, fun r hr => ?_⟩
  · obtain ⟨u, u', hu, hu', c1, c2, rfl⟩ := exec_reflag i hi s b1 b2
    cases hu.symm.trans ht
    exact ⟨c1, c2, hu'⟩
  · rw [hengine, ht]
    rfl
  · rw [hengine, hr]
    rfl

/-- Settles O8: one step keeps the state, so any number of them does. -/
theorem idleBlockKeepsItsState : Obligations.IdleBlockKeepsItsState :=
  fun _ n h => run_of_step_fixed (M := Sys2Proof.core) h.step_eq n

end

section
/-! SUPPORT. The turn of each event, at both levels of the reset input (R260, R270), the Engine's turn in a state of the
invariant (R271), and the stored words right after reset (R261). -/

namespace Sys2Proof.Machine

/-! ## The step of each event -/

section
variable {s : State} {op : HostOp} {rest : List Event}

/-- With the schedule exhausted the turn is the Engine's (R270; log 1). -/
theorem step_of_no_event (hr : s.rst = false) (he : s.events = []) : step s = s.engineStep :=
  step_of_engine (by rw [State.nextTurn, he]; simp [hr])

/-- Asserting reset changes the level of the input alone (log 12). -/
theorem step_of_resetAssert (he : s.events = .resetAssert :: rest) :
    step s = .next { s with events := rest, rst := true } :=
  step_of_wait (by rw [State.nextTurn, he])

/-- A host access while reset is asserted is refused before it is decoded (R260). -/
theorem step_of_host_of_reset (hr : s.rst = true) (he : s.events = .host op :: rest) :
    step s = .refused .accessDuringReset := by
  have hf : State.fetch { s with events := rest } op = .error .accessDuringReset := if_pos hr
  rw [step, State.nextTurn_of_host he]
  simp only [hf]

/-- Reset holds the Engine (log 12). -/
theorem step_of_engine_event_of_reset (hr : s.rst = true) (he : s.events = .engine :: rest) :
    step s = .next { s with events := rest } :=
  step_of_wait (by rw [State.nextTurn, he]; exact if_pos hr)

theorem step_of_no_event_of_reset (hr : s.rst = true) (he : s.events = []) : step s = .next s :=
  step_of_wait (by rw [State.nextTurn, he]; exact if_pos hr)

/-- The release restores the reset values and abandons the command in flight (R260, R261). -/
theorem step_of_resetRelease_of_reset (hr : s.rst = true) (he : s.events = .resetRelease :: rest) :
    step s = .next (State.releaseReset { s with events := rest }) :=
  step_of_wait (by rw [State.nextTurn, he]; exact if_pos hr)

/-- A release with nothing asserted moves the schedule alone (log 12). -/
theorem step_of_resetRelease_of_released (hr : s.rst = false) (he : s.events = .resetRelease :: rest) :
    step s = .next { s with events := rest } :=
  step_of_wait (by rw [State.nextTurn, he]; simp [hr])

end

/-! ## The Engine's turn -/

/-- In a state of the invariant only a block whose pitch is not finite keeps the Engine from completing (R145, R271). -/
theorem Inv.exists_engineStep {s : State} (h : Inv s)
    (hf : ∀ nin nout, s.inflight = .process nin nout → nin.toNat ≠ 0 → isFinite32 s.blockPitch = true) :
    ∃ t, s.engineStep = .next t ∧ t.inflight = .none := by
  cases hi : s.inflight with
  | none => exact ⟨s, State.engineStep_of_idle hi, hi⟩
  | clear => exact ⟨s.completeClear, State.engineStep_of_clear hi, s.completeClear_inflight⟩
  | process nin nout =>
    obtain ⟨hin, hout⟩ := h.operands nin nout hi
    obtain ⟨t, ht⟩ := h.exists_completeProcess hin hout (hf nin nout hi)
    obtain ⟨-, hidle, -⟩ := State.completeProcess_finished ht
    exact ⟨t, (State.engineStep_of_process hi).trans ht, hidle⟩

/-! ## Stored words right after reset -/

theorem State.slot_resetWith (p : Params) (c j : Nat) : (State.resetWith p).slot c j = 0x00000000#32 :=
  ringRead_of_not_listed nofun

/-- A window word of which no byte is listed has the free power-on contents (R40, R41; log 3). -/
theorem memRead_nil (epoch a : Nat) : memRead epoch [] a = wordAt (Config.powerOn epoch) a :=
  wordAt_eq_of fun _ _ => rfl

end Sys2Proof.Machine
end

section
/-! ## The statements -/

open Sys2Proof Sys2Proof.Machine

/-- Settles O45: for each kind of INFLIGHT the Engine's turn answers with nothing in flight, a PROCESS because its
latched operands are legal and R stays finite. -/
theorem completionIsNeverBlocked : Obligations.CompletionIsNeverBlocked := fun _ h hf => h.exists_engineStep hf

/-- Settles O7: an Engine event and an exhausted schedule both give the Engine the turn, which completes each kind of
INFLIGHT. -/
theorem engineTurnCompletesInFlight : Obligations.EngineTurnCompletesInFlight := fun _ _ hr =>
  ⟨step_of_engine_event hr, step_of_no_event hr, State.engineStep_of_idle, State.engineStep_of_clear,
    fun _ _ => State.engineStep_of_process⟩

/-- Settles O9: the registers have the values written in the reset state, and RING and the windows list no byte there. -/
theorem resetValues : Obligations.ResetValues := fun p c j =>
  ⟨State.slot_resetWith p c j, rfl, rfl, rfl, rfl, rfl, rfl, rfl, rfl, rfl, memRead_nil 0 (ibufAddr c j),
    memRead_nil 0 (obufAddr c j)⟩

/-- Settles O10: each reset event and each event at the held level has its own step. -/
theorem resetAbandonsAndRestores : Obligations.ResetAbandonsAndRestores := fun _ _ _ =>
  ⟨step_of_resetAssert, step_of_host_of_reset, step_of_engine_event_of_reset, step_of_no_event_of_reset,
    step_of_resetRelease_of_reset, step_of_resetRelease_of_released⟩

end
